-- ==== Sys2Proof/Word.lean ====
section
/-! DEFINITION. The word types of Pickle RISC (spec/10_state.md R22, R25; spec/20_memory.md R51): every
register, memory word, address and instruction is 16 bits wide. A byte is only the unit in which the
host's image of a memory is held (spec/20_memory.md R55; log 6). -/

namespace Sys2Proof

/-- Half of a memory word, as a host image holds it. -/
abbrev Byte := BitVec 8

/-- A 16-bit word, bit 15 the most significant (spec/00_scope.md R7, R8). -/
abbrev Word := BitVec 16

/-- The number of a general register, a 3-bit field (spec/30_encoding.md R85). -/
abbrev Reg := BitVec 3

/-- The number of a control register, a 3-bit field (spec/30_encoding.md R85). -/
abbrev CrNum := BitVec 3

end Sys2Proof
end

