-- ==== Sys2Proof/Config.lean ====
section
/-! DEFINITION. What the spec leaves to the machine or to nobody: the OPEN parameters of
spec/00_scope.md R6 as one record of plain data with the spec's default values, and the free values,
opaque constants about which nothing can be proved. -/

namespace Sys2Proof

/-- `IMAGE_BYTE_ORDER` (spec/20_memory.md R55): which byte of a word comes first in a host image. -/
inductive ByteOrder where
  /-- Bits 15:8 at the lower byte address. -/
  | big
  /-- Bits 7:0 at the lower byte address. -/
  | little
  deriving DecidableEq, Repr

/-- `HADDC_CARRY_WEIGHT` (spec/41_register_alu.md R130): the weight of the carry in the sum of `haddc`. -/
inductive CarryWeight where
  /-- Weight 2^15, the source's printed text. -/
  | two15
  /-- Weight 2^16, the alternative the spec names. -/
  | two16
  deriving DecidableEq, Repr

/-- `STCOND_FLAGS` (spec/10_state.md R35): what `st_cond` does to the four flags. -/
inductive StCondFlags where
  /-- All four become `any`. -/
  | draw
  /-- All four keep their values. -/
  | preserve
  deriving DecidableEq, Repr

/-- The parameters of spec/00_scope.md R6 that a model must be able to override. The state carries
them and no step changes them (log 1). -/
structure Params where
  /-- `R0_HARDWIRED_ZERO`: register 0 reads as zero and drops writes (spec/10_state.md R23). -/
  r0HardwiredZero : Bool
  /-- `PC_READ_BIAS`: what `Pc` in the pseudocode is, minus the address of the executing instruction
  (spec/10_state.md R26). -/
  pcReadBias : Word
  /-- `JUMP_DELAY_SLOTS`: how many delay slots follow `j` and `ja` (spec/45_system_and_jumps.md R175;
  log 13). -/
  jumpDelaySlots : Nat
  /-- `HADDC_CARRY_WEIGHT` (spec/41_register_alu.md R130). -/
  haddcWeight : CarryWeight
  /-- `LDUI_KEEPS_LOW_BYTE` (spec/40_immediate_alu.md R107). -/
  lduiKeepsLowByte : Bool
  /-- `SUB_CARRY_IS_BORROW` (spec/10_state.md R34). -/
  subCarryIsBorrow : Bool
  /-- `STCOND_FLAGS` (spec/10_state.md R35). -/
  stCondFlags : StCondFlags
  /-- `LDP_CLEARS_INTR_FLAG` (spec/10_state.md R43). -/
  ldpClearsIntr : Bool
  /-- `RESET_PC` (spec/10_state.md R48; log 5). -/
  resetPc : Word
  /-- `IMAGE_BYTE_ORDER` (spec/20_memory.md R55; log 6). -/
  imageByteOrder : ByteOrder
  deriving DecidableEq, Repr

/-- The values spec/00_scope.md R6 gives, and big for the byte order, for which it gives none
(DESIGN CHOICE, safe: no instruction can observe it; log 6). -/
def Params.default : Params where
  r0HardwiredZero := false
  pcReadBias := 1
  jumpDelaySlots := 0
  haddcWeight := .two15
  lduiKeepsLowByte := false
  subCarryIsBorrow := true
  stCondFlags := .draw
  ldpClearsIntr := false
  resetPc := 0
  imageByteOrder := .big

namespace Config

/-- The `n`-th draw of an unconstrained word, the spec's `any` (spec/00_scope.md R9; log 3). -/
opaque freeWord : Nat → Word

/-- The `n`-th draw of an unconstrained bit, the spec's `any` (spec/00_scope.md R9; log 3). -/
opaque freeBit : Nat → Bool

/-- What general register `r` holds after reset: the spec leaves it unspecified and says it is never
zero by default (spec/10_state.md R48; DESIGN CHOICE, unsafe, log 4). -/
opaque resetReg : Reg → Word

/-- What control-register cell `n` holds after reset (spec/10_state.md R48; log 4). -/
opaque resetCr : CrNum → Word

/-- The zero flag after reset (spec/10_state.md R48; log 4). -/
opaque resetZero : Bool

/-- The carry flag after reset (spec/10_state.md R48; log 4). -/
opaque resetCarry : Bool

/-- The negative flag after reset (spec/10_state.md R48; log 4). -/
opaque resetNegative : Bool

/-- The overflow flag after reset (spec/10_state.md R48; log 4). -/
opaque resetOverflow : Bool

/-- The hidden bit `intr_since_load` after reset (spec/10_state.md R48; log 4). -/
opaque resetIntr : Bool

end Config

end Sys2Proof
end

