-- ==== Sys2Proof/Syntax.lean ====
section
/-! DEFINITION. The 39 instructions (spec/00_scope.md R2), one constructor per row of
spec/opcode_table.json, operands in the order of the syntax line (spec/30_encoding.md R93). A last
field `ign` holds the bits the encoding table labels "ignored" (spec/30_encoding.md R86), so that an
instruction and its word determine each other (log 11). -/

namespace Sys2Proof

/-- An instruction of Pickle RISC (spec/30_encoding.md R88). -/
inductive Instr where
  -- Format I (R72): the immediate is the 8-bit field w[10:3]
  | addi (r : Reg) (imm : BitVec 8)
  | andi (r : Reg) (imm : BitVec 8)
  | ori (r : Reg) (imm : BitVec 8)
  | xori (r : Reg) (imm : BitVec 8)
  | cmpi (r : Reg) (imm : BitVec 8)
  | ldi (r : Reg) (imm : BitVec 8)
  | ldui (r : Reg) (imm : BitVec 8)
  | addipc (rd : Reg) (imm : BitVec 8)
  -- Format R (R73), and R' (R74) for upsample
  | add (rd rs1 rs2 : Reg)
  | addc (rd rs1 rs2 : Reg)
  | sub (rd rs1 rs2 : Reg)
  | subc (rd rs1 rs2 : Reg)
  | and (rd rs1 rs2 : Reg)
  | or (rd rs1 rs2 : Reg)
  | xor (rd rs1 rs2 : Reg)
  | cmp (rd rs1 rs2 : Reg)
  | hadd (rd rs1 rs2 : Reg)
  | haddc (rd rs1 rs2 : Reg)
  | upsample (rd rs1 rs2 : Reg)
  | byteswap (rd rs1 rs2 : Reg)
  -- Format B (R75): the offset is the 7-bit field w[9:3], `ign` is w[2:0]
  | bz (offset : BitVec 7) (ign : BitVec 3)
  | bnz (offset : BitVec 7) (ign : BitVec 3)
  | bc (offset : BitVec 7) (ign : BitVec 3)
  | bnc (offset : BitVec 7) (ign : BitVec 3)
  | bn (offset : BitVec 7) (ign : BitVec 3)
  | bnn (offset : BitVec 7) (ign : BitVec 3)
  | bo (offset : BitVec 7) (ign : BitVec 3)
  | bno (offset : BitVec 7) (ign : BitVec 3)
  -- Format M (R76)
  | ld (rd address : Reg) (offset : BitVec 7)
  | st (address : Reg) (offset : BitVec 7) (rs : Reg)
  -- Format C (R77): `ign` is w[8:3]
  | ldcr (rd : Reg) (cr : CrNum) (ign : BitVec 6)
  | stcr (cr : CrNum) (rs : Reg) (ign : BitVec 6)
  -- Format S0 (R78): `ign` is w[2:0]
  | syscall (code : BitVec 6) (ign : BitVec 3)
  -- Format S1 (R79): `ign` is w[5:3]
  | ja (address link : Reg) (ign : BitVec 3)
  -- Format S2 (R80)
  | j (offset : BitVec 7) (link : Reg)
  -- Format S1 (R79)
  | ldp (rd address : Reg) (ign : BitVec 3)
  | stCond (address rs : Reg) (ign : BitVec 3)
  -- Format S3 (R81): `ign` is w[8:0]
  | reti (ign : BitVec 9)
  | brk (ign : BitVec 9)
  deriving DecidableEq, Repr

end Sys2Proof
end

