-- ==== Sys2Proof/Decode.lean ====
section
/-! DEFINITION. The decoder, total on every word and on every list of bytes, and after it the encoder,
both written from the formats and the opcode map of spec/30_encoding.md R71 to R91. -/

namespace Sys2Proof

/-- Why bits are no instruction. -/
inductive Reject where
  /-- `0x5800` to `0x5FFF`: register-ALU opcodes 1100 to 1111 (spec/30_encoding.md R90 (a)). -/
  | unassignedRegisterAlu (w : Word)
  /-- `0xE000` to `0xEFFF`: prefix 1110 (spec/30_encoding.md R90 (b)). -/
  | unassignedGroup1110 (w : Word)
  /-- Fewer bytes than one instruction word (spec/30_encoding.md R70). -/
  | truncated
  deriving DecidableEq, Repr

/-- What decoding a word answers. -/
abbrev Decoded := Except Reject Instr

/-- Format I (R72): `w[13:11]` selects, `w[10:3]` is the immediate, `w[2:0]` the register. -/
def decodeImmediateAlu (w : Word) : Instr :=
  let imm := w.extractLsb' 3 8
  let r := w.extractLsb' 0 3
  match w.extractLsb' 11 3 with
  | 0b000#3 => .addi r imm
  | 0b001#3 => .andi r imm
  | 0b010#3 => .ori r imm
  | 0b011#3 => .xori r imm
  | 0b100#3 => .cmpi r imm
  | 0b101#3 => .ldi r imm
  | 0b110#3 => .ldui r imm
  | 0b111#3 => .addipc r imm

/-- Formats R and R' (R73, R74): `w[12:9]` selects, `w[8:6]`, `w[5:3]`, `w[2:0]` are the registers;
`upsample` has its two sources exchanged. The
selectors 1100 to 1111 are unassigned (R90 (a)). -/
def decodeRegisterAlu (w : Word) : Decoded :=
  let hi := w.extractLsb' 6 3
  let mid := w.extractLsb' 3 3
  let rd := w.extractLsb' 0 3
  match w.extractLsb' 9 4 with
  | 0b0000#4 => .ok (.add rd mid hi)
  | 0b0001#4 => .ok (.addc rd mid hi)
  | 0b0010#4 => .ok (.sub rd mid hi)
  | 0b0011#4 => .ok (.subc rd mid hi)
  | 0b0100#4 => .ok (.and rd mid hi)
  | 0b0101#4 => .ok (.or rd mid hi)
  | 0b0110#4 => .ok (.xor rd mid hi)
  | 0b0111#4 => .ok (.cmp rd mid hi)
  | 0b1000#4 => .ok (.hadd rd mid hi)
  | 0b1001#4 => .ok (.haddc rd mid hi)
  | 0b1010#4 => .ok (.upsample rd hi mid)
  | 0b1011#4 => .ok (.byteswap rd mid hi)
  | _ => .error (.unassignedRegisterAlu w)

/-- Format B (R75, R89): `w[12:10]` selects, `w[9:3]` is the offset, `w[2:0]` is ignored. -/
def decodeBranch (w : Word) : Instr :=
  let off := w.extractLsb' 3 7
  let ign := w.extractLsb' 0 3
  match w.extractLsb' 10 3 with
  | 0b000#3 => .bz off ign
  | 0b001#3 => .bnz off ign
  | 0b010#3 => .bc off ign
  | 0b011#3 => .bnc off ign
  | 0b100#3 => .bn off ign
  | 0b101#3 => .bnn off ign
  | 0b110#3 => .bo off ign
  | 0b111#3 => .bno off ign

/-- Format M (R76): `w[13]` selects, `w[12:10]` is the address register, `w[9:3]` the offset. -/
def decodeLoadStore (w : Word) : Instr :=
  let address := w.extractLsb' 10 3
  let off := w.extractLsb' 3 7
  let r := w.extractLsb' 0 3
  match w.extractLsb' 13 1 with
  | 0b0#1 => .ld r address off
  | 0b1#1 => .st address off r

/-- Format C (R77): `w[12]` selects, `w[11:9]` is the control register, `w[8:3]` is ignored. -/
def decodeControlRegister (w : Word) : Instr :=
  let cr := w.extractLsb' 9 3
  let ign := w.extractLsb' 3 6
  let r := w.extractLsb' 0 3
  match w.extractLsb' 12 1 with
  | 0b0#1 => .ldcr r cr ign
  | 0b1#1 => .stcr cr r ign

/-- Formats S0 to S3 (R78 to R81): `w[11:9]` selects; `j` takes two of its values, bit 9 being the top
bit of its offset. -/
def decodeSystem (w : Word) : Instr :=
  let low := w.extractLsb' 0 3
  let mid := w.extractLsb' 3 3
  let address := w.extractLsb' 6 3
  match w.extractLsb' 9 3 with
  | 0b000#3 => .syscall (w.extractLsb' 3 6) low
  | 0b001#3 => .ja address low mid
  | 0b010#3 => .j (w.extractLsb' 3 7) low
  | 0b011#3 => .j (w.extractLsb' 3 7) low
  | 0b100#3 => .ldp low address mid
  | 0b101#3 => .stCond address low mid
  | 0b110#3 => .reti (w.extractLsb' 0 9)
  | 0b111#3 => .brk (w.extractLsb' 0 9)

/-- The instruction of a word, or why it is none. The major opcode is the prefix code of
spec/30_encoding.md R71, examined from bit 15 downward. -/
def decode (w : Word) : Decoded :=
  if w.extractLsb' 14 2 = 0b00#2 then .ok (decodeImmediateAlu w)
  else if w.extractLsb' 13 3 = 0b010#3 then decodeRegisterAlu w
  else if w.extractLsb' 13 3 = 0b011#3 then .ok (decodeBranch w)
  else if w.extractLsb' 14 2 = 0b10#2 then .ok (decodeLoadStore w)
  else if w.extractLsb' 13 3 = 0b110#3 then .ok (decodeControlRegister w)
  else if w.extractLsb' 12 4 = 0b1110#4 then .error (.unassignedGroup1110 w)
  else .ok (decodeSystem w)

/-- The two bytes of a word in a host image, the first at the lower byte address
(spec/20_memory.md R55). -/
def wordBytes (o : ByteOrder) (w : Word) : List Byte :=
  match o with
  | .big => [w.extractLsb' 8 8, w.extractLsb' 0 8]
  | .little => [w.extractLsb' 0 8, w.extractLsb' 8 8]

/-- The first instruction of a list of image bytes and the bytes after it. -/
def decodeBytes (o : ByteOrder) : List Byte → Except Reject (Instr × List Byte)
  | first :: second :: rest =>
    let w := match o with
      | .big => first ++ second
      | .little => second ++ first
    match decode w with
    | .ok i => .ok (i, rest)
    | .error e => .error e
  | [_] => .error .truncated
  | [] => .error .truncated

/-- The word of an instruction (spec/30_encoding.md R72 to R81, R88). -/
def encode : Instr → Word
  | .addi r imm => 0b00#2 ++ 0b000#3 ++ imm ++ r
  | .andi r imm => 0b00#2 ++ 0b001#3 ++ imm ++ r
  | .ori r imm => 0b00#2 ++ 0b010#3 ++ imm ++ r
  | .xori r imm => 0b00#2 ++ 0b011#3 ++ imm ++ r
  | .cmpi r imm => 0b00#2 ++ 0b100#3 ++ imm ++ r
  | .ldi r imm => 0b00#2 ++ 0b101#3 ++ imm ++ r
  | .ldui r imm => 0b00#2 ++ 0b110#3 ++ imm ++ r
  | .addipc rd imm => 0b00#2 ++ 0b111#3 ++ imm ++ rd
  | .add rd rs1 rs2 => 0b010#3 ++ 0b0000#4 ++ rs2 ++ rs1 ++ rd
  | .addc rd rs1 rs2 => 0b010#3 ++ 0b0001#4 ++ rs2 ++ rs1 ++ rd
  | .sub rd rs1 rs2 => 0b010#3 ++ 0b0010#4 ++ rs2 ++ rs1 ++ rd
  | .subc rd rs1 rs2 => 0b010#3 ++ 0b0011#4 ++ rs2 ++ rs1 ++ rd
  | .and rd rs1 rs2 => 0b010#3 ++ 0b0100#4 ++ rs2 ++ rs1 ++ rd
  | .or rd rs1 rs2 => 0b010#3 ++ 0b0101#4 ++ rs2 ++ rs1 ++ rd
  | .xor rd rs1 rs2 => 0b010#3 ++ 0b0110#4 ++ rs2 ++ rs1 ++ rd
  | .cmp rd rs1 rs2 => 0b010#3 ++ 0b0111#4 ++ rs2 ++ rs1 ++ rd
  | .hadd rd rs1 rs2 => 0b010#3 ++ 0b1000#4 ++ rs2 ++ rs1 ++ rd
  | .haddc rd rs1 rs2 => 0b010#3 ++ 0b1001#4 ++ rs2 ++ rs1 ++ rd
  | .upsample rd rs1 rs2 => 0b010#3 ++ 0b1010#4 ++ rs1 ++ rs2 ++ rd
  | .byteswap rd rs1 rs2 => 0b010#3 ++ 0b1011#4 ++ rs2 ++ rs1 ++ rd
  | .bz off ign => 0b011#3 ++ 0b000#3 ++ off ++ ign
  | .bnz off ign => 0b011#3 ++ 0b001#3 ++ off ++ ign
  | .bc off ign => 0b011#3 ++ 0b010#3 ++ off ++ ign
  | .bnc off ign => 0b011#3 ++ 0b011#3 ++ off ++ ign
  | .bn off ign => 0b011#3 ++ 0b100#3 ++ off ++ ign
  | .bnn off ign => 0b011#3 ++ 0b101#3 ++ off ++ ign
  | .bo off ign => 0b011#3 ++ 0b110#3 ++ off ++ ign
  | .bno off ign => 0b011#3 ++ 0b111#3 ++ off ++ ign
  | .ld rd address off => 0b10#2 ++ 0b0#1 ++ address ++ off ++ rd
  | .st address off rs => 0b10#2 ++ 0b1#1 ++ address ++ off ++ rs
  | .ldcr rd cr ign => 0b110#3 ++ 0b0#1 ++ cr ++ ign ++ rd
  | .stcr cr rs ign => 0b110#3 ++ 0b1#1 ++ cr ++ ign ++ rs
  | .syscall code ign => 0b1111#4 ++ 0b000#3 ++ code ++ ign
  | .ja address link ign => 0b1111#4 ++ 0b001#3 ++ address ++ ign ++ link
  | .j off link => 0b1111#4 ++ 0b01#2 ++ off ++ link
  | .ldp rd address ign => 0b1111#4 ++ 0b100#3 ++ address ++ ign ++ rd
  | .stCond address rs ign => 0b1111#4 ++ 0b101#3 ++ address ++ ign ++ rs
  | .reti ign => 0b1111#4 ++ 0b110#3 ++ ign
  | .brk ign => 0b1111#4 ++ 0b111#3 ++ ign

/-- The bytes of an instruction in a host image. -/
def encodeBytes (o : ByteOrder) (i : Instr) : List Byte := wordBytes o (encode i)

/-- The instruction the decoder reads from an opcode-table word: every row is one 16-bit word
(spec/30_encoding.md R70), so `nbits` is 16 and only the low 16 bits of `w` count. The word is laid
out in image bytes, most significant first, and given to `decodeBytes`. -/
def decodeTableWord (_nbits w : Nat) : Option Instr :=
  match decodeBytes .big (wordBytes .big (BitVec.ofNat 16 w)) with
  | .ok (i, _) => some i
  | .error _ => none

end Sys2Proof
end

