-- ==== Sys2Proof/Machine/State.lean ====
section
/-! DEFINITION. The state of the machine as plain data (spec/10_state.md R20): what the spec calls state,
the parameters of spec/00_scope.md R6 and the environment of spec/60_exceptions.md R203 (log 1, log 2), and the model's own record of draws, events and the stop. -/

namespace Sys2Proof.Machine

/-- The four flags (spec/10_state.md R30). -/
structure Flags where
  /-- `Z`, zero. -/
  z : Bool
  /-- `C`, carry. -/
  c : Bool
  /-- `N`, negative. -/
  n : Bool
  /-- `V`, overflow. -/
  v : Bool
  deriving DecidableEq, Repr

/-- A memory: its written bytes in image form, word `a` at byte addresses `2a` and `2a + 1`, addresses
strictly rising. A byte that is not listed has no value (spec/20_memory.md R60; log 6, log 7). -/
abbrev Memory := List Host.Cell

/-- What an address of data memory is (spec/20_memory.md R59). -/
inductive Region where
  /-- Plain storage. -/
  | ram
  /-- A device: reads are `any`; reads and writes are recorded as events. -/
  | device
  /-- Nothing: an access is refused. -/
  | absent
  deriving DecidableEq, Repr

/-- A pending branch (spec/10_state.md R44). -/
structure Pending where
  /-- The address the run goes on at after the delay slots. -/
  target : Word
  /-- How many delay slots are left after the one the next instruction stands in: none after a taken
  branch, which has one slot; more only after a jump with several slots (`JUMP_DELAY_SLOTS`; log 13). -/
  more : Nat
  deriving DecidableEq, Repr

/-- A word operation the environment's expressions may use (log 2). -/
inductive EnvOp where
  | add
  | and
  | or
  | xor
  deriving DecidableEq, Repr

/-- A word the environment computes from the call's arguments and the state it is handed
(spec/60_exceptions.md R203: its members are functions of these; log 2). -/
inductive EnvVal where
  /-- A fixed word. -/
  | const (w : Word)
  /-- The call's `i`-th word argument: the number and the value of a control register, the code of a
  `syscall`, the unassigned word; 0 where the call has none. -/
  | arg (i : Nat)
  /-- The pc handed over. -/
  | pc
  | reg (r : Reg)
  | cr (n : CrNum)
  /-- The flags, packed as `Flags.toWord` packs them. -/
  | flags
  /-- `intr_since_load`, as 0 or 1. -/
  | intr
  /-- How many delay slots are about to be run: 0 where no branch is pending. -/
  | slots
  /-- The pending branch's target; 0 where no branch is pending. -/
  | branchTarget
  /-- The data word at an address, its bytes that nothing has written those of the second word. -/
  | data (a unwritten : EnvVal)
  /-- The program word at an address, its bytes that nothing has loaded those of the second word. -/
  | prog (a unwritten : EnvVal)
  | op (o : EnvOp) (x y : EnvVal)
  /-- The third word where the first two are equal, else the fourth. -/
  | ifEq (x y yes no : EnvVal)
  deriving DecidableEq, Repr

/-- One change the environment makes to a state it is handed (spec/60_exceptions.md R203 to R207,
R212). A list of them reaches every state of the spec (log 2). -/
inductive EnvAct where
  | setReg (r : Reg) (v : EnvVal)
  | setPc (v : EnvVal)
  /-- The flags, unpacked as `Flags.ofWord` unpacks them. -/
  | setFlags (v : EnvVal)
  | setCr (n : CrNum) (v : EnvVal)
  | setData (a v : EnvVal)
  | setProg (a v : EnvVal)
  /-- `intr_since_load` is set to whether the word is not 0. -/
  | setIntr (v : EnvVal)
  /-- A branch is left pending, with `more` slots left after the next. -/
  | setDelay (target : EnvVal) (more : Nat)
  /-- No branch is left pending. -/
  | clearDelay
  deriving DecidableEq, Repr

/-- What `Env.reti` and `Env.illegal` answer (spec/60_exceptions.md R203). -/
inductive Answer where
  | fault
  | resume (acts : List EnvAct)
  deriving DecidableEq, Repr

/-- What `Env.syscall` and `Env.break` answer (spec/60_exceptions.md R203). -/
inductive Reply where
  | stop
  | answer (a : Answer)
  deriving DecidableEq, Repr

/-- What `Env.CrRead` answers (spec/10_state.md R40, R41): the plain cell of the default instance, a
refusal, or a word of the environment's own with changes to the state. -/
inductive CrReadReply where
  | cell
  | refuse
  | value (v : EnvVal) (acts : List EnvAct)
  deriving DecidableEq, Repr

/-- What `Env.CrWrite` does (spec/10_state.md R40, R41): write the plain cell of the default instance,
refuse, or change the state its own way. -/
inductive CrWriteReply where
  | cell
  | refuse
  | acts (as : List EnvAct)
  deriving DecidableEq, Repr

/-- An interrupt: its source number and what `Env.deliver` makes of the state
(spec/60_exceptions.md R211, R212). -/
structure Interrupt where
  source : Nat
  deliver : List EnvAct
  deriving DecidableEq, Repr

/-- A function of the environment as plain data: a tree of tests on the call's arguments and the state
handed over, with an answer at each end (spec/60_exceptions.md R203; log 2). -/
inductive Plan (α : Type) where
  /-- What the default instance answers. -/
  | default
  | give (a : α)
  | ifEq (x y : EnvVal) (yes no : Plan α)
  deriving DecidableEq, Repr

/-- How the environment answers the calls of one member: first the coming answers in their order, for an
environment that does not answer by the state alone, then for ever as the plan says
(spec/60_exceptions.md R203; log 2). -/
structure Answers (α : Type) where
  coming : List α
  plan : Plan α
  deriving DecidableEq, Repr

/-- The answers of the default instance, for ever. -/
def Answers.default {α : Type} : Answers α := ⟨[], .default⟩

/-- The same answer, for ever. -/
def Answers.always {α : Type} (a : α) : Answers α := ⟨[], .give a⟩

/-- The environment (spec/60_exceptions.md R203) as plain data: the two memory maps, and how it answers
the calls of each of its other members (log 2). -/
structure Env where
  /-- `Env.dmap`: the first entry for an address counts; an address without one is `ram`. -/
  dataMap : List (Word × Region)
  /-- `Env.pmap`: the absent program addresses; every other one is `ram`. -/
  progAbsent : List Word
  /-- `Env.CrRead`; default: the plain cell. -/
  crReads : Answers CrReadReply
  /-- `Env.CrWrite`; default: the plain cell. -/
  crWrites : Answers CrWriteReply
  /-- `Env.syscall`; default: stop. -/
  syscalls : Answers Reply
  /-- `Env.break`; default: stop. -/
  breaks : Answers Reply
  /-- `Env.reti`; default: fault. -/
  retis : Answers Answer
  /-- `Env.illegal`; default: fault. -/
  illegals : Answers Answer
  /-- `Env.interrupt` with `Env.deliver`; default: none. -/
  interrupts : Answers (Option Interrupt)
  deriving DecidableEq, Repr

/-- The default instance of the environment (spec/60_exceptions.md R203; log 14). -/
def Env.default : Env where
  dataMap := []
  progAbsent := []
  crReads := .default
  crWrites := .default
  syscalls := .default
  breaks := .default
  retis := .default
  illegals := .default
  interrupts := .default

/-- What is recorded outside the machine's state: device accesses (spec/20_memory.md R59), and the
outcomes of spec/60_exceptions.md R200 that the environment resolved by resuming (log 10). -/
inductive Event where
  | deviceRead (a v : Word)
  | deviceWrite (a v : Word)
  | interrupt (source : Nat)
  | syscall (code : BitVec 6)
  | brk
  | reti
  | illegal (w : Word)
  deriving DecidableEq, Repr

/-- How a run ended normally (spec/60_exceptions.md R200, R208). -/
inductive Stop where
  /-- `Syscall(code)`. -/
  | syscall (code : BitVec 6)
  /-- `Break`. -/
  | brk
  deriving DecidableEq, Repr

/-- Why the machine stops in a state that is never final (spec/60_exceptions.md R200, kind fault). -/
inductive Fault where
  /-- `IllegalInstruction(w)` at `pc`, when `Env.illegal` answers fault, the default
  (spec/30_encoding.md R91). Raised by the step for an unassigned word. Safe. -/
  | illegalInstruction (w pc : Word)
  /-- `DelaySlotControl(w)` at `pc`: `addipc`, a branch, `j`, `ja`, `syscall`, `reti` or `break` in the
  delay slot of a taken branch (spec/42_branches.md R141 (d)). Raised by those meanings. Safe. -/
  | delaySlotControl (w pc : Word)
  /-- `Reti` at `pc`, when `Env.reti` answers fault, the default (spec/60_exceptions.md R206). Raised by
  `reti`. Safe. -/
  | reti (pc : Word)
  /-- `Syscall(code)` when `Env.syscall` answers fault; `pc` is past the instruction
  (spec/60_exceptions.md R204). Raised by `syscall`. Safe. -/
  | syscall (code : BitVec 6) (pc : Word)
  /-- `Break` when `Env.break` answers fault; `pc` is past the instruction (spec/60_exceptions.md R205).
  Raised by `break`. Safe. -/
  | brk (pc : Word)
  deriving DecidableEq, Repr

/-- Why a step has no meaning (spec/60_exceptions.md R200, kind refusal). -/
inductive Refusal where
  /-- An instruction whose arm of `exec` has no meaning yet; no arm is left so. Safe. -/
  | notModelled (mnemonic : String)
  /-- `Refused(a)`: `ld`, `st` or a performed `st_cond` at an absent data address
  (spec/20_memory.md R59). Cannot occur in the default environment. Safe. -/
  | absentData (a : Word)
  /-- `Refused(a)`: a fetch or `ldp` at an absent program address (spec/60_exceptions.md R200). Cannot
  occur in the default environment. Safe. -/
  | absentProgram (a : Word)
  /-- `Refused(n)`: `ldcr` when `Env.CrRead` refuses (spec/44_control_registers.md R165). Cannot occur
  in the default environment. Safe. -/
  | crRead (n : CrNum)
  /-- `Refused(n)`: `stcr` when `Env.CrWrite` refuses (spec/44_control_registers.md R165). Cannot occur
  in the default environment. Safe. -/
  | crWrite (n : CrNum)
  deriving DecidableEq, Repr

/-- The machine (spec/10_state.md R20). -/
structure State where
  /-- The general registers (R21, R22); read and written by `State.getReg` and `State.setReg` only. -/
  x : Vector Word 8
  /-- The address of the instruction about to execute (R25). -/
  pc : Word
  /-- `Z`, `C`, `N`, `V` (R30). -/
  flags : Flags
  /-- The cells of the default control registers (R40, R41). -/
  cr : Vector Word 8
  /-- Data memory (R45). -/
  dmem : Memory
  /-- Program memory (R46). -/
  pmem : Memory
  /-- `intr_since_load` (R43). -/
  intrSinceLoad : Bool
  /-- The pending-branch slot (R44). -/
  delay : Option Pending
  /-- The parameters (spec/00_scope.md R6; log 1). -/
  params : Params
  /-- The environment (spec/60_exceptions.md R203; log 2). -/
  env : Env
  /-- The recorded events, oldest first (log 10). -/
  events : List Event
  /-- The stop that ended the run, if one did (spec/60_exceptions.md R208; log 9). -/
  stopped : Option Stop
  /-- How many free values have been drawn (spec/00_scope.md R9; log 3). -/
  draws : Nat
  deriving DecidableEq, Repr

/-- The three outcomes of a step, as the host's interface names them. -/
abbrev Result := Host.Outcome State Fault Refusal

/-- The state after reset under parameters `p` and environment `e` (spec/70_reset_and_hazards.md R230):
`pc` is `RESET_PC`, `delay` is `none`, the memories list nothing, and every unspecified register,
flag, cell and hidden bit holds its free constant (log 4). -/
def State.resetWith (p : Params) (e : Env) : State where
  x := #v[Config.resetReg 0, Config.resetReg 1, Config.resetReg 2, Config.resetReg 3,
    Config.resetReg 4, Config.resetReg 5, Config.resetReg 6, Config.resetReg 7]
  pc := p.resetPc
  flags := ⟨Config.resetZero, Config.resetCarry, Config.resetNegative, Config.resetOverflow⟩
  cr := #v[Config.resetCr 0, Config.resetCr 1, Config.resetCr 2, Config.resetCr 3,
    Config.resetCr 4, Config.resetCr 5, Config.resetCr 6, Config.resetCr 7]
  dmem := []
  pmem := []
  intrSinceLoad := Config.resetIntr
  delay := none
  params := p
  env := e
  events := []
  stopped := none
  draws := 0

/-- The state after reset with the default parameters in the default environment
(spec/10_state.md R48). -/
def State.reset : State := State.resetWith Params.default Env.default

end Sys2Proof.Machine
end

