-- ==== Sys2Proof/Machine/Ops.lean ====
section
/-! DEFINITION. The named operations over memory, registers, free values and the environment that every
meaning is written with: memory in canonical form, register access, the draws of `any`, data and
program access with the memory maps, handing the state to the environment (the spec's only form of
taking an exception, spec/60_exceptions.md R200 to R213) and the return from it, and the end of an
instruction. -/

namespace Sys2Proof.Machine

/-! ### Memory -/

/-- The byte at a byte address, if it was ever written. -/
def Memory.get? : Memory → Nat → Option Byte
  | [], _ => none
  | c :: cs, k => if c.1 = k then some c.2 else Memory.get? cs k

/-- Write one byte, keeping the addresses strictly rising. -/
def Memory.set : Memory → Nat → Byte → Memory
  | [], k, v => [(k, v)]
  | c :: cs, k, v =>
    if k < c.1 then (k, v) :: c :: cs
    else if k = c.1 then (k, v) :: cs
    else c :: Memory.set cs k v

/-- Every address of the list is above `k`, rising, and inside the 2^17 bytes of a space of 2^16 words. -/
def Memory.risingFrom : Nat → Memory → Bool
  | _, [] => true
  | k, c :: cs => decide (k ≤ c.1) && decide (c.1 < 131072) && Memory.risingFrom (c.1 + 1) cs

/-- The canonical form: addresses strictly rising and inside the space (spec/20_memory.md R51). Every
listed byte differs from what an unlisted address holds, which is no value. -/
def Memory.wf (m : Memory) : Bool := Memory.risingFrom 0 m

/-- The byte address of bits 15:8 of word `a` in an image (spec/20_memory.md R55; log 6). -/
def highKey (o : ByteOrder) (a : Word) : Nat :=
  match o with
  | .big => 2 * a.toNat
  | .little => 2 * a.toNat + 1

/-- The byte address of bits 7:0 of word `a` in an image (spec/20_memory.md R55; log 6). -/
def lowKey (o : ByteOrder) (a : Word) : Nat :=
  match o with
  | .big => 2 * a.toNat + 1
  | .little => 2 * a.toNat

/-- The word at address `a`; a byte that nothing has written is the corresponding byte of `free`
(spec/20_memory.md R60; log 7). -/
def Memory.loadWord (o : ByteOrder) (m : Memory) (a free : Word) : Word :=
  (m.get? (highKey o a)).getD (free.extractLsb' 8 8) ++ (m.get? (lowKey o a)).getD (free.extractLsb' 0 8)

/-- Both bytes of word `a` have been written. -/
def Memory.holds (m : Memory) (a : Word) : Bool :=
  (m.get? (2 * a.toNat)).isSome && (m.get? (2 * a.toNat + 1)).isSome

/-- Write word `v` at address `a`. -/
def Memory.storeWord (o : ByteOrder) (m : Memory) (a v : Word) : Memory :=
  (m.set (highKey o a) (v.extractLsb' 8 8)).set (lowKey o a) (v.extractLsb' 0 8)

/-! ### Registers -/

/-- One of eight words. -/
def getAt (xs : Vector Word 8) (i : BitVec 3) : Word := xs[i.toNat]'i.isLt

/-- The eight words with one replaced. -/
def setAt (xs : Vector Word 8) (i : BitVec 3) (v : Word) : Vector Word 8 := xs.set i.toNat v i.isLt

/-- Register `r` is the hardwired zero register of this machine (spec/10_state.md R23). -/
def State.isZeroReg (s : State) (r : Reg) : Bool := s.params.r0HardwiredZero && r == 0

/-- `x[r]` (spec/00_scope.md R9; spec/10_state.md R23). -/
def State.getReg (s : State) (r : Reg) : Word := if s.isZeroReg r then 0 else getAt s.x r

/-- `x[r] <- v`; dropped for a hardwired zero register (spec/10_state.md R23; log 19). -/
def State.setReg (s : State) (r : Reg) (v : Word) : State :=
  if s.isZeroReg r then s else { s with x := setAt s.x r v }

/-- The default cell of control register `n` (spec/10_state.md R41). -/
def State.getCr (s : State) (n : CrNum) : Word := getAt s.cr n

/-- Write the default cell of control register `n` (spec/10_state.md R41). -/
def State.setCr (s : State) (n : CrNum) (v : Word) : State := { s with cr := setAt s.cr n v }

/-! ### Free values and events -/

/-- `n` free values have been used (spec/00_scope.md R9; log 3). -/
def State.drawn (s : State) (n : Nat) : State := { s with draws := s.draws + n }

/-- Record an event (log 10). -/
def State.record (s : State) (e : Event) : State := { s with events := s.events ++ [e] }

/-! ### Data and program memory -/

/-- `Env.dmap(a)` (spec/20_memory.md R59). -/
def Env.region (e : Env) (a : Word) : Region := lookup e.dataMap
where
  lookup : List (Word × Region) → Region
    | [] => .ram
    | p :: ps => if p.1 = a then p.2 else lookup ps

/-- `Env.pmap(a)` is `ram` (spec/60_exceptions.md R203). -/
def Env.hasProgram (e : Env) (a : Word) : Bool := !e.progAbsent.contains a

/-- The word at `a` of a memory of the machine, and the state after the read: a word not wholly written
takes a free value (spec/20_memory.md R60; log 7). -/
def State.readMem (s : State) (m : Memory) (a : Word) : Word × State :=
  (m.loadWord s.params.imageByteOrder a (Config.freeWord s.draws), if m.holds a then s else s.drawn 1)

/-- `MemRead(a, 1)`: `ram` answers the word, a device `any` with an event, and an absent address refuses
(spec/20_memory.md R59). -/
def State.readData (s : State) (a : Word) : Except Refusal (Word × State) :=
  match s.env.region a with
  | .ram => .ok (s.readMem s.dmem a)
  | .device =>
    let v := Config.freeWord s.draws
    .ok (v, (s.drawn 1).record (.deviceRead a v))
  | .absent => .error (.absentData a)

/-- The word `v` put at data address `a`, as plain storage. -/
def State.storeData (s : State) (a v : Word) : State :=
  { s with dmem := s.dmem.storeWord s.params.imageByteOrder a v }

/-- The word `v` put at program address `a`: the host's or the environment's, no instruction's
(spec/20_memory.md R66). -/
def State.storeProg (s : State) (a v : Word) : State :=
  { s with pmem := s.pmem.storeWord s.params.imageByteOrder a v }

/-- `MemWrite(a, 1, v)` when `doIt`, nothing at all otherwise: `ram` stores, a device only records, an
absent address refuses (spec/20_memory.md R59; spec/45_system_and_jumps.md R187). -/
def State.writeDataIf (s : State) (doIt : Bool) (a v : Word) : Except Refusal State :=
  match s.env.region a with
  | .ram => .ok (if doIt then s.storeData a v else s)
  | .device => .ok (if doIt then s.record (.deviceWrite a v) else s)
  | .absent => if doIt then .error (.absentData a) else .ok s

/-- `PMemRead(a)` (spec/00_scope.md R9; spec/60_exceptions.md R200). -/
def State.readProg (s : State) (a : Word) : Except Refusal (Word × State) :=
  if s.env.hasProgram a then .ok (s.readMem s.pmem a) else .error (.absentProgram a)

/-- Fetching the instruction word at the pc (spec/42_branches.md R141 (b); log 8). -/
def State.fetch (s : State) : Except Refusal (Word × State) := s.readProg s.pc

/-- Go on with what an access answers, or refuse. -/
def proceed {α : Type} (r : Except Refusal α) (k : α → Result) : Result :=
  match r with
  | .ok a => k a
  | .error e => .refused e

/-! ### The end of an instruction -/

/-- The address after a normally completed instruction: the pending branch target in the last delay slot
of a taken branch, else the next word (spec/42_branches.md R141 (e); spec/10_state.md R27, R28; log
13). -/
def State.nextPc (s : State) : Word :=
  match s.delay with
  | none => s.pc + 1
  | some ⟨target, 0⟩ => target
  | some ⟨_, _ + 1⟩ => s.pc + 1

/-- What is pending after an instruction that is no branch: nothing after the last delay slot, and one
slot less before it (spec/42_branches.md R141 (b); log 13). -/
def State.nextDelay (s : State) : Option Pending :=
  match s.delay with
  | none => none
  | some ⟨_, 0⟩ => none
  | some ⟨target, more + 1⟩ => some ⟨target, more⟩

/-- `delay <- none`, or one slot less of a jump with several (spec/42_branches.md R141 (b); log 13). -/
def State.leaveSlot (s : State) : State := { s with delay := s.nextDelay }

/-- Normal completion of an instruction that began in `before`: the pc advances from where it stood then
(spec/42_branches.md R141 (e); log 17). -/
def State.finish (s before : State) : State := { s with pc := before.nextPc }

/-- Refuse to run the word `w` in the delay slot of a taken branch (spec/42_branches.md R141 (d)). -/
def State.outsideSlot (s : State) (w : Word) (k : Result) : Result :=
  match s.delay with
  | some _ => .fault (.delaySlotControl w s.pc)
  | none => k

/-! ### The environment -/

/-- The flags in a word of the environment's, `Z`, `C`, `N`, `V` in bits 3 to 0 (log 2). -/
def Flags.toWord (f : Flags) : Word :=
  BitVec.setWidth 16 (BitVec.ofBool f.z ++ BitVec.ofBool f.c ++ BitVec.ofBool f.n ++ BitVec.ofBool f.v)

/-- The flags from a word of the environment's, `Z`, `C`, `N`, `V` in bits 3 to 0 (log 2). -/
def Flags.ofWord (w : Word) : Flags := ⟨w.getLsbD 3, w.getLsbD 2, w.getLsbD 1, w.getLsbD 0⟩

/-- A word operation of the environment's expressions. -/
def EnvOp.apply : EnvOp → Word → Word → Word
  | .add, a, b => a + b
  | .and, a, b => a &&& b
  | .or, a, b => a ||| b
  | .xor, a, b => a ^^^ b

/-- How many delay slots are about to be run. -/
def State.slots (s : State) : Nat :=
  match s.delay with
  | none => 0
  | some p => p.more + 1

/-- The target of the pending branch, 0 where there is none. -/
def State.branchTarget (s : State) : Word :=
  match s.delay with
  | none => 0
  | some p => p.target

/-- The word the environment computes when it is handed `s` with the arguments `args` (log 2). -/
def EnvVal.eval (s : State) (args : List Word) : EnvVal → Word
  | .const w => w
  | .arg i => args.getD i 0
  | .pc => s.pc
  | .reg r => s.getReg r
  | .cr n => s.getCr n
  | .flags => s.flags.toWord
  | .intr => BitVec.setWidth 16 (BitVec.ofBool s.intrSinceLoad)
  | .slots => BitVec.ofNat 16 s.slots
  | .branchTarget => s.branchTarget
  | .data a u => s.dmem.loadWord s.params.imageByteOrder (a.eval s args) (u.eval s args)
  | .prog a u => s.pmem.loadWord s.params.imageByteOrder (a.eval s args) (u.eval s args)
  | .op o x y => o.apply (x.eval s args) (y.eval s args)
  | .ifEq x y p q => if x.eval s args = y.eval s args then p.eval s args else q.eval s args

/-- The answer of a plan when the environment is handed `s` with the arguments `args` (log 2). -/
def Plan.choose {α : Type} (dflt : α) (s : State) (args : List Word) : Plan α → α
  | .default => dflt
  | .give a => a
  | .ifEq x y p q =>
    if x.eval s args = y.eval s args then p.choose dflt s args else q.choose dflt s args

/-- What the environment answers when it is handed `s` with the arguments `args`, where the default
instance answers `dflt` (spec/60_exceptions.md R203; log 2). -/
def Answers.answer {α : Type} (q : Answers α) (dflt : α) (s : State) (args : List Word) : α :=
  match q.coming with
  | [] => q.plan.choose dflt s args
  | a :: _ => a

/-- How it will answer after that: a coming answer is used up, the plan stays. -/
def Answers.rest {α : Type} (q : Answers α) : Answers α := { q with coming := q.coming.tail }

/-- One change by the environment, to `t`, its words computed from the state `s` it was handed. -/
def State.act (s : State) (args : List Word) (t : State) : EnvAct → State
  | .setReg r v => t.setReg r (v.eval s args)
  | .setPc v => { t with pc := v.eval s args }
  | .setFlags v => { t with flags := .ofWord (v.eval s args) }
  | .setCr n v => t.setCr n (v.eval s args)
  | .setData a v => t.storeData (a.eval s args) (v.eval s args)
  | .setProg a v => t.storeProg (a.eval s args) (v.eval s args)
  | .setIntr v => { t with intrSinceLoad := v.eval s args != 0 }
  | .setDelay target more => { t with delay := some ⟨target.eval s args, more⟩ }
  | .clearDelay => { t with delay := none }

/-- The state the environment resumes with when it is handed `s` with the arguments `args`: its changes
one after the other, every word computed from `s` (spec/60_exceptions.md R204; log 2). -/
def State.applyActs (s : State) (args : List Word) (as : List EnvAct) : State := as.foldl (s.act args) s

/-- Handing the state to the environment, which faults or resumes: the one way an exception is taken and
the one way it is returned from (spec/60_exceptions.md R200, R213). -/
def State.handOver (s : State) (e : Event) (f : Fault) (args : List Word) (a : Answer) : Result :=
  match a with
  | .fault => .fault f
  | .resume acts => .next ((s.record e).applyActs args acts)

/-- As `State.handOver`, for the two calls the environment may also answer by ending the run
(spec/60_exceptions.md R208; log 9). -/
def State.handOverOrStop (s : State) (e : Event) (f : Fault) (p : Stop) (args : List Word) (r : Reply) :
    Result :=
  match r with
  | .stop => .next { s with stopped := some p }
  | .answer a => s.handOver e f args a

/-- What `Env.syscall(code, s)` answers (spec/60_exceptions.md R204). -/
def State.syscallAnswer (s : State) (code : BitVec 6) : Reply :=
  s.env.syscalls.answer .stop s [code.setWidth 16]

/-- `raise Syscall(code)`: `Env.syscall` is handed the state, whose pc is past the instruction
(spec/60_exceptions.md R204). -/
def State.raiseSyscall (s : State) (code : BitVec 6) : Result :=
  { s with env := { s.env with syscalls := s.env.syscalls.rest } }.handOverOrStop
    (.syscall code) (.syscall code s.pc) (.syscall code) [code.setWidth 16] (s.syscallAnswer code)

/-- What `Env.break(s)` answers (spec/60_exceptions.md R205). -/
def State.breakAnswer (s : State) : Reply := s.env.breaks.answer .stop s []

/-- `raise Break`: `Env.break` is handed the state, whose pc is past the instruction
(spec/60_exceptions.md R205). -/
def State.raiseBreak (s : State) : Result :=
  { s with env := { s.env with breaks := s.env.breaks.rest } }.handOverOrStop
    .brk (.brk s.pc) .brk [] s.breakAnswer

/-- What `Env.reti(s)` answers (spec/60_exceptions.md R206). -/
def State.retiAnswer (s : State) : Answer := s.env.retis.answer .fault s []

/-- `raise Reti`: the return from an interrupt, as `Env.reti` makes it; the pc handed over is that of the
instruction (spec/60_exceptions.md R206). -/
def State.raiseReti (s : State) : Result :=
  { s with env := { s.env with retis := s.env.retis.rest } }.handOver .reti (.reti s.pc) [] s.retiAnswer

/-- What `Env.illegal(w, s)` answers (spec/60_exceptions.md R207). -/
def State.illegalAnswer (s : State) (w : Word) : Answer := s.env.illegals.answer .fault s [w]

/-- `raise IllegalInstruction(w)`: `Env.illegal` is handed the state on entry to the step, the pending
branch slot included (spec/60_exceptions.md R207). -/
def State.raiseIllegal (s : State) (w : Word) : Result :=
  { s with env := { s.env with illegals := s.env.illegals.rest } }.handOver
    (.illegal w) (.illegalInstruction w s.pc) [w] (s.illegalAnswer w)

/-- What `Env.interrupt(s)` answers, with what `Env.deliver` would do (spec/60_exceptions.md R212). -/
def State.interruptAnswer (s : State) : Option Interrupt := s.env.interrupts.answer none s []

/-- `Env.interrupt(s)`, asked only when no branch is pending (spec/60_exceptions.md R212). -/
def State.askInterrupt (s : State) : Option Interrupt × State :=
  match s.delay with
  | some _ => (none, s)
  | none => (s.interruptAnswer, { s with env := { s.env with interrupts := s.env.interrupts.rest } })

/-- Interrupt delivery: the hidden bit is set, then `Env.deliver` makes the state to continue from
(spec/60_exceptions.md R212; log 18). -/
def State.deliver (s : State) (k : Interrupt) : State :=
  ({ s with intrSinceLoad := true }.record (.interrupt k.source)).applyActs [] k.deliver

/-- What `Env.CrRead(n)` answers when it is handed `s` (spec/10_state.md R40). -/
def State.crReadAnswer (s : State) (n : CrNum) : CrReadReply :=
  s.env.crReads.answer .cell s [n.setWidth 16]

/-- `CrRead(n)` (spec/10_state.md R40, R41). -/
def State.readCr (s : State) (n : CrNum) : Except Refusal (Word × State) :=
  let t := { s with env := { s.env with crReads := s.env.crReads.rest } }
  match s.crReadAnswer n with
  | .cell => .ok (s.getCr n, t)
  | .refuse => .error (.crRead n)
  | .value v acts => .ok (v.eval s [n.setWidth 16], t.applyActs [n.setWidth 16] acts)

/-- What `Env.CrWrite(n, v)` answers when it is handed `s` (spec/10_state.md R40). -/
def State.crWriteAnswer (s : State) (n : CrNum) (v : Word) : CrWriteReply :=
  s.env.crWrites.answer .cell s [n.setWidth 16, v]

/-- `CrWrite(n, v)` (spec/10_state.md R40, R41). -/
def State.writeCr (s : State) (n : CrNum) (v : Word) : Except Refusal State :=
  let t := { s with env := { s.env with crWrites := s.env.crWrites.rest } }
  match s.crWriteAnswer n v with
  | .cell => .ok (t.setCr n v)
  | .refuse => .error (.crWrite n)
  | .acts as => .ok (t.applyActs [n.setWidth 16, v] as)

/-! ### The step -/

/-- Run the fetched word `w`: its instruction by `run`, or the environment's answer to an unassigned
word (spec/42_branches.md R141 (c), (e)). -/
def State.runWord (s : State) (run : Instr → State → Result) (w : Word) : Result :=
  match decode w with
  | .ok i => run i s
  | .error _ => s.raiseIllegal w

/-- One step with `run` for the meanings (spec/42_branches.md R141): a run that has ended stays as it is
(log 9); else the environment may deliver an interrupt; else the word at the pc is fetched and run. -/
def State.stepWith (s : State) (run : Instr → State → Result) : Result :=
  if s.stopped.isSome then .next s
  else
    match s.askInterrupt with
    | (some k, t) => .next (t.deliver k)
    | (none, t) => proceed t.fetch fun p => p.2.runWord run p.1

/-! ### The host -/

/-- The host places program words before the run (spec/70_reset_and_hazards.md R232). -/
def State.loadProgram (s : State) (words : List (Word × Word)) : State :=
  words.foldl (fun t p => t.storeProg p.1 p.2) s

/-- The host places data words before the run (spec/70_reset_and_hazards.md R232). -/
def State.loadData (s : State) (words : List (Word × Word)) : State :=
  words.foldl (fun t p => t.storeData p.1 p.2) s

end Sys2Proof.Machine
end

