-- ==== Sys2Proof/Machine/Operands.lean ====
section
/-! DEFINITION. The operand forms: sign-extended immediates and offsets, `Pc`, effective addresses and
branch targets, and the integer readings of a word that the rules compute with
(spec/00_scope.md R8, R9; spec/30_encoding.md R82, R83). -/

namespace Sys2Proof.Machine

/-- `trunc16(n)` (spec/00_scope.md R8). -/
def trunc16 (n : Int) : Word := BitVec.ofInt 16 n

/-- `signed(v)` (spec/00_scope.md R8). -/
def signed (w : Word) : Int := w.toInt

/-- The operand value of an 8-bit immediate, `sext_16(w[10:3], 8)` (spec/30_encoding.md R82). -/
def immWord (imm : BitVec 8) : Word := imm.signExtend 16

/-- The operand value of a 7-bit offset, `sext_16(w[9:3], 7)` (spec/30_encoding.md R83). -/
def offWord (off : BitVec 7) : Word := off.signExtend 16

/-- `Pc`, what the source's pseudocode reads as the program counter (spec/10_state.md R26; log 12). -/
def State.pcRead (s : State) : Word := s.pc + s.params.pcReadBias

/-- `trunc16(Pc + off)`, the target of a conditional branch and of `j` (spec/42_branches.md R140;
spec/45_system_and_jumps.md R181). -/
def State.relTarget (s : State) (off : BitVec 7) : Word := s.pcRead + offWord off

/-- `trunc16(x[address] + off)`, the effective address of `ld` and `st` (spec/43_load_store.md R155). -/
def State.effAddr (s : State) (address : Reg) (off : BitVec 7) : Word :=
  s.getReg address + offWord off

end Sys2Proof.Machine
end

