-- ==== Sys2Proof/Machine/Branches.lean ====
section
/-! DEFINITION. The eight conditional branches of major opcode 011 (spec/42_branches.md). -/

namespace Sys2Proof.Machine

/-- A conditional branch with word `w` (spec/42_branches.md R140): taken, it leaves its target pending;
either way the next instruction is the sequential one, its delay slot. -/
def State.branch (s : State) (w : Word) (cond : Bool) (off : BitVec 7) : Result :=
  s.outsideSlot w
    (.next { s with delay := if cond then some ⟨s.relTarget off, 0⟩ else none, pc := s.pc + 1 })

/-- `bz offset` (spec/42_branches.md R142). -/
def execBz (off : BitVec 7) (ign : BitVec 3) (s : State) : Result :=
  s.branch (encode (.bz off ign)) s.flags.z off

/-- `bnz offset` (spec/42_branches.md R143). -/
def execBnz (off : BitVec 7) (ign : BitVec 3) (s : State) : Result :=
  s.branch (encode (.bnz off ign)) (!s.flags.z) off

/-- `bc offset` (spec/42_branches.md R144). -/
def execBc (off : BitVec 7) (ign : BitVec 3) (s : State) : Result :=
  s.branch (encode (.bc off ign)) s.flags.c off

/-- `bnc offset` (spec/42_branches.md R145). -/
def execBnc (off : BitVec 7) (ign : BitVec 3) (s : State) : Result :=
  s.branch (encode (.bnc off ign)) (!s.flags.c) off

/-- `bn offset` (spec/42_branches.md R146). -/
def execBn (off : BitVec 7) (ign : BitVec 3) (s : State) : Result :=
  s.branch (encode (.bn off ign)) s.flags.n off

/-- `bnn offset` (spec/42_branches.md R147). -/
def execBnn (off : BitVec 7) (ign : BitVec 3) (s : State) : Result :=
  s.branch (encode (.bnn off ign)) (!s.flags.n) off

/-- `bo offset` (spec/42_branches.md R148). -/
def execBo (off : BitVec 7) (ign : BitVec 3) (s : State) : Result :=
  s.branch (encode (.bo off ign)) s.flags.v off

/-- `bno offset` (spec/42_branches.md R149). -/
def execBno (off : BitVec 7) (ign : BitVec 3) (s : State) : Result :=
  s.branch (encode (.bno off ign)) (!s.flags.v) off

end Sys2Proof.Machine
end

