-- ==== Sys2Proof/Machine/ControlRegisters.lean ====
section
/-! DEFINITION. The control-register moves of major opcode 110 (spec/44_control_registers.md). -/

namespace Sys2Proof.Machine

/-- `ldcr rd, cr` (spec/44_control_registers.md R166). -/
def execLdcr (rd : Reg) (cr : CrNum) (s : State) : Result :=
  proceed (s.leaveSlot.readCr cr) fun p => .next ((p.2.setReg rd p.1).finish s)

/-- `stcr cr, rs` (spec/44_control_registers.md R167). -/
def execStcr (cr : CrNum) (rs : Reg) (s : State) : Result :=
  proceed (s.leaveSlot.writeCr cr (s.getReg rs)) fun t => .next (t.finish s)

end Sys2Proof.Machine
end

