-- ==== Sys2Proof/Machine/Flags.lean ====
section
/-! DEFINITION. The arithmetic results and the flags of the ALU groups, computed over the integers and
narrowed at the end as the rules write them (spec/10_state.md R33, R34; spec/41_register_alu.md). -/

namespace Sys2Proof.Machine

/-- The integer lies outside the range of a signed word (spec/10_state.md R33, column V). -/
def outsideSigned (n : Int) : Bool := decide (n < -32768 ∨ 32767 < n)

/-- The result of an addition with carry in (spec/41_register_alu.md R121, R122). -/
def addResult (a b : Word) (cin : Bool) : Word := trunc16 (a.toNat + b.toNat + cin.toNat)

/-- The flags of an addition with carry in (spec/10_state.md R33, first row). -/
def addFlags (a b : Word) (cin : Bool) : Flags where
  z := addResult a b cin == 0
  c := decide (65536 ≤ a.toNat + b.toNat + cin.toNat)
  n := (addResult a b cin).msb
  v := outsideSigned (signed a + signed b + cin.toNat)

/-- The result of a subtraction with borrow in (spec/41_register_alu.md R123, R124). -/
def subResult (a b : Word) (bin : Bool) : Word := trunc16 (a.toNat - b.toNat - bin.toNat)

/-- The flags of a subtraction with borrow in (spec/10_state.md R33, second row): the carry is the
borrow, or its complement when `SUB_CARRY_IS_BORROW` is false (spec/10_state.md R34). -/
def subFlags (p : Params) (a b : Word) (bin : Bool) : Flags where
  z := subResult a b bin == 0
  c := decide ((a.toNat : Int) - b.toNat - bin.toNat < 0) == p.subCarryIsBorrow
  n := (subResult a b bin).msb
  v := outsideSigned (signed a - signed b - bin.toNat)

/-- `HADDC_CARRY_WEIGHT` as a number (spec/41_register_alu.md R130). -/
def carryWeight : CarryWeight → Nat
  | .two15 => 32768
  | .two16 => 65536

/-- The sum of a halving add before it is halved (spec/41_register_alu.md R129, R130). -/
def haddSum (p : Params) (a b : Word) (cin : Bool) : Nat :=
  a.toNat + b.toNat + cin.toNat * carryWeight p.haddcWeight

/-- The result of a halving add: bits 16:1 of the sum (spec/41_register_alu.md R129, R130). -/
def haddResult (p : Params) (a b : Word) (cin : Bool) : Word := trunc16 (haddSum p a b cin / 2 : Nat)

/-- All four flags set (spec/00_scope.md R9, `Flags <-`). -/
def State.setFlags (s : State) (f : Flags) : State := { s with flags := f }

/-- The flags of a halving add: `C` is bit 0 of the sum, `V` is `any`
(spec/10_state.md R33, fourth row). -/
def State.setHaddFlags (s : State) (a b : Word) (cin : Bool) : State :=
  { s with
    flags :=
      { z := haddResult s.params a b cin == 0
        c := decide (haddSum s.params a b cin % 2 = 1)
        n := (haddResult s.params a b cin).msb
        v := Config.freeBit s.draws } }.drawn 1

/-- The flags of a bitwise operation with result `res`: `C` and `V` are `any`
(spec/10_state.md R33, third row). -/
def State.setLogicFlags (s : State) (res : Word) : State :=
  { s with
    flags :=
      { z := res == 0
        c := Config.freeBit s.draws
        n := res.msb
        v := Config.freeBit (s.draws + 1) } }.drawn 2

/-- All four flags `any` (spec/10_state.md R33, last row; R35). -/
def State.freeFlags (s : State) : State :=
  { s with
    flags :=
      { z := Config.freeBit s.draws
        c := Config.freeBit (s.draws + 1)
        n := Config.freeBit (s.draws + 2)
        v := Config.freeBit (s.draws + 3) } }.drawn 4

/-! ### The shapes of an ALU instruction -/

/-- An addition into `rd` (spec/40_immediate_alu.md R101; spec/41_register_alu.md R121, R122). -/
def State.addInto (s : State) (rd : Reg) (a b : Word) (cin : Bool) : Result :=
  .next (((s.leaveSlot.setReg rd (addResult a b cin)).setFlags (addFlags a b cin)).finish s)

/-- A subtraction into `rd` (spec/41_register_alu.md R123, R124). -/
def State.subInto (s : State) (rd : Reg) (a b : Word) (bin : Bool) : Result :=
  .next (((s.leaveSlot.setReg rd (subResult a b bin)).setFlags (subFlags s.params a b bin)).finish s)

/-- A comparison: the flags of a subtraction and nothing else
(spec/40_immediate_alu.md R105; spec/41_register_alu.md R128). -/
def State.compare (s : State) (a b : Word) : Result :=
  .next ((s.leaveSlot.setFlags (subFlags s.params a b false)).finish s)

/-- A bitwise operation into `rd` (spec/40_immediate_alu.md R102; spec/41_register_alu.md R125). -/
def State.logicInto (s : State) (rd : Reg) (res : Word) : Result :=
  .next (((s.leaveSlot.setReg rd res).setLogicFlags res).finish s)

/-- A halving add into `rd` (spec/41_register_alu.md R129, R130). -/
def State.haddInto (s : State) (rd : Reg) (a b : Word) (cin : Bool) : Result :=
  .next (((s.leaveSlot.setReg rd (haddResult s.params a b cin)).setHaddFlags a b cin).finish s)

/-- A word put into `rd` with all flags `any` (spec/40_immediate_alu.md R106; spec/41_register_alu.md
R131). -/
def State.moveInto (s : State) (rd : Reg) (res : Word) : Result :=
  .next ((s.leaveSlot.setReg rd res).freeFlags.finish s)

end Sys2Proof.Machine
end

