-- ==== Sys2Proof/Machine/ImmediateAlu.lean ====
section
/-! DEFINITION. The eight instructions of major opcode 00 (spec/40_immediate_alu.md). -/

namespace Sys2Proof.Machine

/-- `addi r, immediate` (spec/40_immediate_alu.md R101). -/
def execAddi (r : Reg) (imm : BitVec 8) (s : State) : Result :=
  s.addInto r (s.getReg r) (immWord imm) false

/-- `andi r, immediate` (spec/40_immediate_alu.md R102). -/
def execAndi (r : Reg) (imm : BitVec 8) (s : State) : Result :=
  s.logicInto r (s.getReg r &&& immWord imm)

/-- `ori r, immediate` (spec/40_immediate_alu.md R103). -/
def execOri (r : Reg) (imm : BitVec 8) (s : State) : Result :=
  s.logicInto r (s.getReg r ||| immWord imm)

/-- `xori r, immediate` (spec/40_immediate_alu.md R104). -/
def execXori (r : Reg) (imm : BitVec 8) (s : State) : Result :=
  s.logicInto r (s.getReg r ^^^ immWord imm)

/-- `cmpi r, immediate` (spec/40_immediate_alu.md R105). -/
def execCmpi (r : Reg) (imm : BitVec 8) (s : State) : Result :=
  s.compare (s.getReg r) (immWord imm)

/-- `ldi r, immediate` (spec/40_immediate_alu.md R106). -/
def execLdi (r : Reg) (imm : BitVec 8) (s : State) : Result :=
  s.moveInto r (immWord imm)

/-- `ldui r, immediate` (spec/40_immediate_alu.md R107): the low byte is zero, or the old one when
`LDUI_KEEPS_LOW_BYTE` is true. -/
def execLdui (r : Reg) (imm : BitVec 8) (s : State) : Result :=
  s.moveInto r (imm ++ (if s.params.lduiKeepsLowByte then (s.getReg r).extractLsb' 0 8 else 0#8))

/-- `addipc rd, immediate` (spec/40_immediate_alu.md R108). -/
def execAddipc (rd : Reg) (imm : BitVec 8) (s : State) : Result :=
  s.outsideSlot (encode (.addipc rd imm)) (s.moveInto rd (s.pcRead + immWord imm))

end Sys2Proof.Machine
end

