-- ==== Sys2Proof/Machine/LoadStore.lean ====
section
/-! DEFINITION. The load and the store of major opcode 10 (spec/43_load_store.md). -/

namespace Sys2Proof.Machine

/-- `ld rd, address, offset` (spec/43_load_store.md R156): a completed load clears `intr_since_load`. -/
def execLd (rd address : Reg) (off : BitVec 7) (s : State) : Result :=
  proceed (s.leaveSlot.readData (s.effAddr address off)) fun p =>
    .next ({ p.2.setReg rd p.1 with intrSinceLoad := false }.finish s)

/-- `st address, offset, rs` (spec/43_load_store.md R157). -/
def execSt (address : Reg) (off : BitVec 7) (rs : Reg) (s : State) : Result :=
  proceed (s.leaveSlot.writeDataIf true (s.effAddr address off) (s.getReg rs)) fun t =>
    .next (t.finish s)

end Sys2Proof.Machine
end

