-- ==== Sys2Proof/Machine/RegisterAlu.lean ====
section
/-! DEFINITION. The twelve instructions of major opcode 010 (spec/41_register_alu.md). -/

namespace Sys2Proof.Machine

/-- `add rd, rs1, rs2` (spec/41_register_alu.md R121). -/
def execAdd (rd rs1 rs2 : Reg) (s : State) : Result :=
  s.addInto rd (s.getReg rs1) (s.getReg rs2) false

/-- `addc rd, rs1, rs2` (spec/41_register_alu.md R122). -/
def execAddc (rd rs1 rs2 : Reg) (s : State) : Result :=
  s.addInto rd (s.getReg rs1) (s.getReg rs2) s.flags.c

/-- `sub rd, rs1, rs2` (spec/41_register_alu.md R123). -/
def execSub (rd rs1 rs2 : Reg) (s : State) : Result :=
  s.subInto rd (s.getReg rs1) (s.getReg rs2) false

/-- `subc rd, rs1, rs2` (spec/41_register_alu.md R124): the flag is subtracted as it stands, whatever
`SUB_CARRY_IS_BORROW` says (spec/10_state.md R34). -/
def execSubc (rd rs1 rs2 : Reg) (s : State) : Result :=
  s.subInto rd (s.getReg rs1) (s.getReg rs2) s.flags.c

/-- `and rd, rs1, rs2` (spec/41_register_alu.md R125). -/
def execAnd (rd rs1 rs2 : Reg) (s : State) : Result :=
  s.logicInto rd (s.getReg rs1 &&& s.getReg rs2)

/-- `or rd, rs1, rs2` (spec/41_register_alu.md R126). -/
def execOr (rd rs1 rs2 : Reg) (s : State) : Result :=
  s.logicInto rd (s.getReg rs1 ||| s.getReg rs2)

/-- `xor rd, rs1, rs2` (spec/41_register_alu.md R127). -/
def execXor (rd rs1 rs2 : Reg) (s : State) : Result :=
  s.logicInto rd (s.getReg rs1 ^^^ s.getReg rs2)

/-- `cmp rd, rs1, rs2` (spec/41_register_alu.md R128): `rd` is neither read nor written
(spec/30_encoding.md R87). -/
def execCmp (_rd rs1 rs2 : Reg) (s : State) : Result :=
  s.compare (s.getReg rs1) (s.getReg rs2)

/-- `hadd rd, rs1, rs2` (spec/41_register_alu.md R129). -/
def execHadd (rd rs1 rs2 : Reg) (s : State) : Result :=
  s.haddInto rd (s.getReg rs1) (s.getReg rs2) false

/-- `haddc rd, rs1, rs2` (spec/41_register_alu.md R130). -/
def execHaddc (rd rs1 rs2 : Reg) (s : State) : Result :=
  s.haddInto rd (s.getReg rs1) (s.getReg rs2) s.flags.c

/-- `upsample rd, rs1, rs2` (spec/41_register_alu.md R131): the low bytes, `rs1`'s above `rs2`'s. -/
def execUpsample (rd rs1 rs2 : Reg) (s : State) : Result :=
  s.moveInto rd ((s.getReg rs1).extractLsb' 0 8 ++ (s.getReg rs2).extractLsb' 0 8)

/-- `byteswap rd, rs1, rs2` (spec/41_register_alu.md R132): the low byte of `rs1` above the high byte of
`rs2`. -/
def execByteswap (rd rs1 rs2 : Reg) (s : State) : Result :=
  s.moveInto rd ((s.getReg rs1).extractLsb' 0 8 ++ (s.getReg rs2).extractLsb' 8 8)

end Sys2Proof.Machine
end

