-- ==== Sys2Proof/Machine/System.lean ====
section
/-! DEFINITION. The seven instructions of major opcode 1111: system call, jumps, program-memory load,
conditional store, return from interrupt, break (spec/45_system_and_jumps.md). -/

namespace Sys2Proof.Machine

/-- The state handed to the environment by `syscall` and `break`: the pc at the next instruction
(spec/45_system_and_jumps.md R176, R192). -/
def State.pastInstr (s : State) : State := { s with pc := s.pc + 1 }

/-- A jump with link to `target` (spec/45_system_and_jumps.md R178, R181): at once, or after as many
delay slots as `JUMP_DELAY_SLOTS` says (spec/45_system_and_jumps.md R175; log 13). -/
def State.jump (s : State) (w target : Word) (link : Reg) : Result :=
  s.outsideSlot w
    (.next
      (match s.params.jumpDelaySlots with
      | 0 => { s.setReg link s.pcRead with pc := target }
      | more + 1 => { s.setReg link s.pcRead with delay := some ⟨target, more⟩, pc := s.pc + 1 }))

/-- `syscall code` (spec/45_system_and_jumps.md R176). -/
def execSyscall (code : BitVec 6) (ign : BitVec 3) (s : State) : Result :=
  s.outsideSlot (encode (.syscall code ign)) (s.pastInstr.raiseSyscall code)

/-- `ja address, link` (spec/45_system_and_jumps.md R178): the target is read before the link is
written. -/
def execJa (address link : Reg) (ign : BitVec 3) (s : State) : Result :=
  s.jump (encode (.ja address link ign)) (s.getReg address) link

/-- `j offset, link` (spec/45_system_and_jumps.md R181). -/
def execJ (off : BitVec 7) (link : Reg) (s : State) : Result :=
  s.jump (encode (.j off link)) (s.relTarget off) link

/-- `ldp rd, address` (spec/45_system_and_jumps.md R184): `intr_since_load` is cleared only when
`LDP_CLEARS_INTR_FLAG` is true (spec/10_state.md R43). -/
def execLdp (rd address : Reg) (s : State) : Result :=
  proceed (s.leaveSlot.readProg (s.getReg address)) fun p =>
    .next ({ p.2.setReg rd p.1 with
      intrSinceLoad := s.intrSinceLoad && !s.params.ldpClearsIntr }.finish s)

/-- The flags after `st_cond` (spec/10_state.md R35). -/
def State.stCondFlags (s : State) : State :=
  match s.params.stCondFlags with
  | .draw => s.freeFlags
  | .preserve => s

/-- `st_cond address, rs` (spec/45_system_and_jumps.md R187). -/
def execStCond (address rs : Reg) (s : State) : Result :=
  proceed (s.leaveSlot.writeDataIf (!s.intrSinceLoad) (s.getReg address) (s.getReg rs)) fun t =>
    .next (t.stCondFlags.finish s)

/-- `reti` (spec/45_system_and_jumps.md R190). -/
def execReti (ign : BitVec 9) (s : State) : Result :=
  s.outsideSlot (encode (.reti ign)) s.raiseReti

/-- `break` (spec/45_system_and_jumps.md R192). -/
def execBrk (ign : BitVec 9) (s : State) : Result :=
  s.outsideSlot (encode (.brk ign)) s.pastInstr.raiseBreak

end Sys2Proof.Machine
end

