-- ==== Sys2Proof/Machine/Dispatch.lean ====
section
/-! DEFINITION. The meaning of every instruction: one arm per constructor, each a direct call. -/

namespace Sys2Proof.Machine

def exec (i : Instr) (s : State) : Host.Outcome State Fault Refusal :=
  match i with
  | .addi r imm => Sys2Proof.Machine.execAddi r imm s
  | .andi r imm => Sys2Proof.Machine.execAndi r imm s
  | .ori r imm => Sys2Proof.Machine.execOri r imm s
  | .xori r imm => Sys2Proof.Machine.execXori r imm s
  | .cmpi r imm => Sys2Proof.Machine.execCmpi r imm s
  | .ldi r imm => Sys2Proof.Machine.execLdi r imm s
  | .ldui r imm => Sys2Proof.Machine.execLdui r imm s
  | .addipc r imm => Sys2Proof.Machine.execAddipc r imm s
  | .add rd rs1 rs2 => Sys2Proof.Machine.execAdd rd rs1 rs2 s
  | .addc rd rs1 rs2 => Sys2Proof.Machine.execAddc rd rs1 rs2 s
  | .sub rd rs1 rs2 => Sys2Proof.Machine.execSub rd rs1 rs2 s
  | .subc rd rs1 rs2 => Sys2Proof.Machine.execSubc rd rs1 rs2 s
  | .and rd rs1 rs2 => Sys2Proof.Machine.execAnd rd rs1 rs2 s
  | .or rd rs1 rs2 => Sys2Proof.Machine.execOr rd rs1 rs2 s
  | .xor rd rs1 rs2 => Sys2Proof.Machine.execXor rd rs1 rs2 s
  | .cmp rd rs1 rs2 => Sys2Proof.Machine.execCmp rd rs1 rs2 s
  | .hadd rd rs1 rs2 => Sys2Proof.Machine.execHadd rd rs1 rs2 s
  | .haddc rd rs1 rs2 => Sys2Proof.Machine.execHaddc rd rs1 rs2 s
  | .upsample rd rs1 rs2 => Sys2Proof.Machine.execUpsample rd rs1 rs2 s
  | .byteswap rd rs1 rs2 => Sys2Proof.Machine.execByteswap rd rs1 rs2 s
  | .bz off ign => Sys2Proof.Machine.execBz off ign s
  | .bnz off ign => Sys2Proof.Machine.execBnz off ign s
  | .bc off ign => Sys2Proof.Machine.execBc off ign s
  | .bnc off ign => Sys2Proof.Machine.execBnc off ign s
  | .bn off ign => Sys2Proof.Machine.execBn off ign s
  | .bnn off ign => Sys2Proof.Machine.execBnn off ign s
  | .bo off ign => Sys2Proof.Machine.execBo off ign s
  | .bno off ign => Sys2Proof.Machine.execBno off ign s
  | .ld rd address off => Sys2Proof.Machine.execLd rd address off s
  | .st address off rs => Sys2Proof.Machine.execSt address off rs s
  | .ldcr rd cr _ => Sys2Proof.Machine.execLdcr rd cr s
  | .stcr cr rs _ => Sys2Proof.Machine.execStcr cr rs s
  | .syscall code ign => Sys2Proof.Machine.execSyscall code ign s
  | .ja address link ign => Sys2Proof.Machine.execJa address link ign s
  | .j off link => Sys2Proof.Machine.execJ off link s
  | .ldp rd address _ => Sys2Proof.Machine.execLdp rd address s
  | .stCond address rs _ => Sys2Proof.Machine.execStCond address rs s
  | .reti ign => Sys2Proof.Machine.execReti ign s
  | .brk ign => Sys2Proof.Machine.execBrk ign s

end Sys2Proof.Machine
end

