-- ==== Sys2Proof/Machine/Step.lean ====
section
/-! DEFINITION. One step of the machine (spec/42_branches.md R141), and the placing of one instruction
where the next step fetches it. -/

namespace Sys2Proof.Machine

/-- One step (spec/42_branches.md R141). -/
def step (s : State) : Host.Outcome State Fault Refusal := s.stepWith exec

/-- `s` with the instruction word `w` where the next step fetches it: the word at the pc, the program
address present, no interrupt about to be delivered and no stop. Every instruction is 16 bits, so
`nbits` plays no part (spec/30_encoding.md R70). -/
def State.withFetchWord (s : State) (_nbits w : Nat) : State :=
  { s.storeProg s.pc (BitVec.ofNat 16 w) with
    env :=
      { s.env with
        progAbsent := s.env.progAbsent.filter fun a => a != s.pc
        interrupts := .default }
    stopped := none }

end Sys2Proof.Machine
end

