-- ==== Sys2Proof/Safety.lean ====
section
/-! DEFINITION. The terms in which claims about the machine are stated: what an instruction leaves
unchanged, how it completes, the invariants of the state, and how a run ends. -/

namespace Sys2Proof.Machine

/-! ### Frames -/

/-- Every byte of both memories reads as before. -/
def SameMemory (s t : State) : Prop :=
  ∀ k, t.dmem.get? k = s.dmem.get? k ∧ t.pmem.get? k = s.pmem.get? k

/-- Every byte of both memories reads as before, except the two bytes of data word `a`. -/
def SameMemoryBut (a : Word) (s t : State) : Prop :=
  (∀ k, k ≠ 2 * a.toNat → k ≠ 2 * a.toNat + 1 → t.dmem.get? k = s.dmem.get? k) ∧
    ∀ k, t.pmem.get? k = s.pmem.get? k

/-- Data word `a` holds `v`, whatever a never-written byte would read as. -/
def HoldsWord (t : State) (a v : Word) : Prop :=
  ∀ free, t.dmem.loadWord t.params.imageByteOrder a free = v

/-- No general register changes. -/
def SameRegs (s t : State) : Prop := ∀ r, t.getReg r = s.getReg r

/-- Register `rd` takes `v`, unless it is a hardwired zero register, and no other register changes
(spec/10_state.md R23). -/
def WritesReg (rd : Reg) (v : Word) (s t : State) : Prop :=
  t.getReg rd = (if s.isZeroReg rd then 0 else v) ∧ ∀ r, r ≠ rd → t.getReg r = s.getReg r

/-- No control-register cell changes. -/
def SameCr (s t : State) : Prop := ∀ n, t.getCr n = s.getCr n

/-- Neither the parameters nor the environment nor the record of events nor the stop changes. -/
def SameOutside (s t : State) : Prop :=
  t.params = s.params ∧ t.env = s.env ∧ t.events = s.events ∧ t.stopped = s.stopped

/-- The instruction completed normally: in the last delay slot the pc is the pending branch target, else
it is the next word; no branch is pending any more, or one slot less of a jump with several
(spec/42_branches.md R141 (b), (e); log 13). -/
def Completed (s t : State) : Prop :=
  match s.delay with
  | none => t.pc = s.pc + 1 ∧ t.delay = none
  | some ⟨target, 0⟩ => t.pc = target ∧ t.delay = none
  | some ⟨target, more + 1⟩ => t.pc = s.pc + 1 ∧ t.delay = some ⟨target, more⟩

/-- The frame of an ALU instruction: it completes normally and touches no memory, no control register,
not the hidden bit, and nothing outside the core. -/
def AluFrame (s t : State) : Prop :=
  Completed s t ∧ SameMemory s t ∧ SameCr s t ∧ t.intrSinceLoad = s.intrSinceLoad ∧ SameOutside s t

/-- All four flags are fresh free values, and nothing else was drawn (spec/00_scope.md R9). -/
def FreshFlags (s t : State) : Prop :=
  t.flags = ⟨Config.freeBit s.draws, Config.freeBit (s.draws + 1), Config.freeBit (s.draws + 2),
    Config.freeBit (s.draws + 3)⟩ ∧ t.draws = s.draws + 4

/-- `Z` and `N` describe the result (spec/10_state.md R33). -/
def ZNOf (res : Word) (t : State) : Prop :=
  (t.flags.z = true ↔ res = 0) ∧ (t.flags.n = true ↔ 32768 ≤ res.toNat)

/-- The exact integer does not fit a signed word (spec/10_state.md R33, column V). -/
def SignedOverflow (n : Int) : Prop := n < -32768 ∨ 32767 < n

/-- `t` is `s` after a write of `v` to `rd` with all flags fresh, and nothing else
(spec/40_immediate_alu.md R106; spec/41_register_alu.md R131). -/
def MovesInto (rd : Reg) (v : Word) (s t : State) : Prop :=
  WritesReg rd v s t ∧ FreshFlags s t ∧ AluFrame s t

/-- `t` is `s` after a bitwise operation with result `res` into `rd`: `C` and `V` are fresh
(spec/40_immediate_alu.md R102; spec/41_register_alu.md R125). -/
def LogicInto (rd : Reg) (res : Word) (s t : State) : Prop :=
  WritesReg rd res s t ∧ ZNOf res t ∧ t.flags.c = Config.freeBit s.draws ∧
    t.flags.v = Config.freeBit (s.draws + 1) ∧ t.draws = s.draws + 2 ∧ AluFrame s t

/-- `t` is `s` with `C` the borrow of `a - b - bin` or its complement (spec/10_state.md R33, R34) and the
other flags those of that subtraction. -/
def SubFlagsOf (a b : Word) (bin : Nat) (s t : State) : Prop :=
  ZNOf (BitVec.ofInt 16 (a.toNat - b.toNat - bin)) t ∧
    (t.flags.c = true ↔ (a.toNat < b.toNat + bin ↔ s.params.subCarryIsBorrow = true)) ∧
    (t.flags.v = true ↔ SignedOverflow (a.toInt - b.toInt - bin))

/-- `t` has the flags of `a + b + cin` (spec/10_state.md R33). -/
def AddFlagsOf (a b : Word) (cin : Nat) (t : State) : Prop :=
  ZNOf (BitVec.ofNat 16 (a.toNat + b.toNat + cin)) t ∧
    (t.flags.c = true ↔ 65536 ≤ a.toNat + b.toNat + cin) ∧
    (t.flags.v = true ↔ SignedOverflow (a.toInt + b.toInt + cin))

/-- The frame of an instruction that writes no flag and uses `n` free values: it completes normally, and
flags, memory, control registers and everything outside the core stay. -/
def QuietFrame (n : Nat) (s t : State) : Prop :=
  Completed s t ∧ t.flags = s.flags ∧ SameMemory s t ∧ SameCr s t ∧ SameOutside s t ∧
    t.draws = s.draws + n

/-- The frame of a jump: flags, memory, control registers, the hidden bit, everything outside the core
and the draws stay; the link register, the pc and the pending branch are the jump's. -/
def JumpFrame (s t : State) : Prop :=
  t.flags = s.flags ∧ SameMemory s t ∧ SameCr s t ∧ t.intrSinceLoad = s.intrSinceLoad ∧
    SameOutside s t ∧ t.draws = s.draws

/-! ### Instructions as the spec's rules group them -/

/-- Mask and match of the instruction's row (spec/30_encoding.md R88). -/
def opcodeRow : Instr → Word × Word
  | .addi _ _ => (0xF800, 0x0000)
  | .andi _ _ => (0xF800, 0x0800)
  | .ori _ _ => (0xF800, 0x1000)
  | .xori _ _ => (0xF800, 0x1800)
  | .cmpi _ _ => (0xF800, 0x2000)
  | .ldi _ _ => (0xF800, 0x2800)
  | .ldui _ _ => (0xF800, 0x3000)
  | .addipc _ _ => (0xF800, 0x3800)
  | .add _ _ _ => (0xFE00, 0x4000)
  | .addc _ _ _ => (0xFE00, 0x4200)
  | .sub _ _ _ => (0xFE00, 0x4400)
  | .subc _ _ _ => (0xFE00, 0x4600)
  | .and _ _ _ => (0xFE00, 0x4800)
  | .or _ _ _ => (0xFE00, 0x4A00)
  | .xor _ _ _ => (0xFE00, 0x4C00)
  | .cmp _ _ _ => (0xFE00, 0x4E00)
  | .hadd _ _ _ => (0xFE00, 0x5000)
  | .haddc _ _ _ => (0xFE00, 0x5200)
  | .upsample _ _ _ => (0xFE00, 0x5400)
  | .byteswap _ _ _ => (0xFE00, 0x5600)
  | .bz _ _ => (0xFC00, 0x6000)
  | .bnz _ _ => (0xFC00, 0x6400)
  | .bc _ _ => (0xFC00, 0x6800)
  | .bnc _ _ => (0xFC00, 0x6C00)
  | .bn _ _ => (0xFC00, 0x7000)
  | .bnn _ _ => (0xFC00, 0x7400)
  | .bo _ _ => (0xFC00, 0x7800)
  | .bno _ _ => (0xFC00, 0x7C00)
  | .ld _ _ _ => (0xE000, 0x8000)
  | .st _ _ _ => (0xE000, 0xA000)
  | .ldcr _ _ _ => (0xF000, 0xC000)
  | .stcr _ _ _ => (0xF000, 0xD000)
  | .syscall _ _ => (0xFE00, 0xF000)
  | .ja _ _ _ => (0xFE00, 0xF200)
  | .j _ _ => (0xFC00, 0xF400)
  | .ldp _ _ _ => (0xFE00, 0xF800)
  | .stCond _ _ _ => (0xFE00, 0xFA00)
  | .reti _ => (0xFE00, 0xFC00)
  | .brk _ => (0xFE00, 0xFE00)

/-- The bits of the instruction's word that the source labels "ignored" (spec/30_encoding.md R86). -/
def ignoredBits : Instr → Word
  | .bz _ _ | .bnz _ _ | .bc _ _ | .bnc _ _ | .bn _ _ | .bnn _ _ | .bo _ _ | .bno _ _ => 0x0007
  | .syscall _ _ => 0x0007
  | .ldcr _ _ _ | .stcr _ _ _ => 0x01F8
  | .ja _ _ _ | .ldp _ _ _ | .stCond _ _ _ => 0x0038
  | .reti _ | .brk _ => 0x01FF
  | .addi _ _ | .andi _ _ | .ori _ _ | .xori _ _ | .cmpi _ _ | .ldi _ _ | .ldui _ _ | .addipc _ _ => 0
  | .add _ _ _ | .addc _ _ _ | .sub _ _ _ | .subc _ _ _ | .and _ _ _ | .or _ _ _ | .xor _ _ _ => 0
  | .cmp _ _ _ | .hadd _ _ _ | .haddc _ _ _ | .upsample _ _ _ | .byteswap _ _ _ => 0
  | .ld _ _ _ | .st _ _ _ | .j _ _ => 0

/-- The instruction with zeros in its ignored bits. -/
def zeroIgnored : Instr → Instr
  | .bz off _ => .bz off 0
  | .bnz off _ => .bnz off 0
  | .bc off _ => .bc off 0
  | .bnc off _ => .bnc off 0
  | .bn off _ => .bn off 0
  | .bnn off _ => .bnn off 0
  | .bo off _ => .bo off 0
  | .bno off _ => .bno off 0
  | .syscall code _ => .syscall code 0
  | .ldcr rd cr _ => .ldcr rd cr 0
  | .stcr cr rs _ => .stcr cr rs 0
  | .ja address link _ => .ja address link 0
  | .ldp rd address _ => .ldp rd address 0
  | .stCond address rs _ => .stCond address rs 0
  | .reti _ => .reti 0
  | .brk _ => .brk 0
  | i => i

/-- The instructions that may not stand in the delay slot of a taken branch
(spec/42_branches.md R141 (d)). -/
def isControl : Instr → Bool
  | .addipc _ _ => true
  | .bz _ _ | .bnz _ _ | .bc _ _ | .bnc _ _ | .bn _ _ | .bnn _ _ | .bo _ _ | .bno _ _ => true
  | .j _ _ | .ja _ _ _ | .syscall _ _ | .reti _ | .brk _ => true
  | _ => false

/-- The instructions that read a flag (spec/10_state.md R36). -/
def readsFlags : Instr → Bool
  | .bz _ _ | .bnz _ _ | .bc _ _ | .bnc _ _ | .bn _ _ | .bnn _ _ | .bo _ _ | .bno _ _ => true
  | .addc _ _ _ | .subc _ _ _ | .haddc _ _ _ => true
  | _ => false

/-- The instructions whose rules write flags: major opcodes 00 and 010, and `st_cond`
(spec/10_state.md R32). -/
def writesFlags : Instr → Bool
  | .addi _ _ | .andi _ _ | .ori _ _ | .xori _ _ | .cmpi _ _ | .ldi _ _ | .ldui _ _ | .addipc _ _ => true
  | .add _ _ _ | .addc _ _ _ | .sub _ _ _ | .subc _ _ _ | .and _ _ _ | .or _ _ _ | .xor _ _ _ => true
  | .cmp _ _ _ | .hadd _ _ _ | .haddc _ _ _ | .upsample _ _ _ | .byteswap _ _ _ => true
  | .stCond _ _ _ => true
  | _ => false

/-- The next state of a result with its flags put to `f`: what of a result does not depend on flags. -/
def Result.withFlags (f : Flags) : Result → Result
  | .next t => .next { t with flags := f }
  | .fault r => .fault r
  | .refused r => .refused r

/-- The same words, held in images of either byte order: `t` is `s` but for the byte order of images
and the memories, and every word reads the same (spec/20_memory.md R53). -/
def SameWords (s t : State) : Prop :=
  (∃ o d p, t = { s with params := { s.params with imageByteOrder := o }, dmem := d, pmem := p }) ∧
    (∀ a free, t.dmem.loadWord t.params.imageByteOrder a free =
      s.dmem.loadWord s.params.imageByteOrder a free) ∧
    ∀ a free, t.pmem.loadWord t.params.imageByteOrder a free =
      s.pmem.loadWord s.params.imageByteOrder a free

/-- Two results that end alike, in states that hold the same words if in states at all. -/
def Result.SameWords : Result → Result → Prop
  | .next s, .next t => Machine.SameWords s t
  | .fault e, .fault f => e = f
  | .refused e, .refused f => e = f
  | _, _ => False

/-! ### Invariants -/

/-- Every word is written whole or not at all, as word accesses leave it (spec/20_memory.md R58). -/
def Memory.whole (m : Memory) : Prop :=
  ∀ a : Word, (m.get? (2 * a.toNat)).isSome = (m.get? (2 * a.toNat + 1)).isSome

/-- Both memories are in canonical form and hold whole words. -/
def State.MemoryInv (s : State) : Prop :=
  s.dmem.wf = true ∧ s.pmem.wf = true ∧ s.dmem.whole ∧ s.pmem.whole

/-! ### Runs -/

/-- The environment answers as the default instance does, but for its memory maps
(spec/60_exceptions.md R203). -/
def Env.quiet (e : Env) : Prop :=
  e.crReads = .default ∧ e.crWrites = .default ∧ e.syscalls = .default ∧ e.breaks = .default ∧
    e.retis = .default ∧ e.illegals = .default ∧ e.interrupts = .default

/-- What an answer is and what is left to answer, by how the environment answers: as the default instance
for ever; the coming answers in their order; the same answer for ever; or by a test of two words
computed from the call's arguments and the state handed over
(spec/60_exceptions.md R203; the form is log 2). -/
def Answers.Lawful {α : Type} (q : Answers α) (dflt : α) (s : State) (args : List Word) : Prop :=
  (q = .default → q.answer dflt s args = dflt ∧ q.rest = q) ∧
    (∀ a as, q.coming = a :: as → q.answer dflt s args = a ∧ q.rest = ⟨as, q.plan⟩) ∧
    (∀ a, q = .always a → q.answer dflt s args = a ∧ q.rest = q) ∧
    ∀ x y yes no, q = ⟨[], .ifEq x y yes no⟩ → q.rest = q ∧
      q.answer dflt s args = (Answers.mk [] (if x.eval s args = y.eval s args then yes else no)).answer
        dflt s args

/-- The answers a plan may give besides the default's. -/
def Plan.answers {α : Type} : Plan α → List α
  | .default => []
  | .give a => [a]
  | .ifEq _ _ p q => p.answers ++ q.answers

/-- The words a plan tests. -/
def Plan.tests {α : Type} : Plan α → List EnvVal
  | .default => []
  | .give _ => []
  | .ifEq x y p q => x :: y :: (p.tests ++ q.tests)

/-- Every answer the environment may yet give besides the default's. -/
def Answers.all {α : Type} (q : Answers α) : List α := q.coming ++ q.plan.answers

/-- The changes in one answer of the environment. -/
def Answer.changes : Answer → List EnvAct
  | .fault => []
  | .resume acts => acts

/-- The changes in one answer of the environment. -/
def Reply.changes : Reply → List EnvAct
  | .stop => []
  | .answer a => a.changes

/-- The changes in one answer of the environment. -/
def CrReadReply.changes : CrReadReply → List EnvAct
  | .cell => []
  | .refuse => []
  | .value _ acts => acts

/-- The changes in one answer of the environment. -/
def CrWriteReply.changes : CrWriteReply → List EnvAct
  | .cell => []
  | .refuse => []
  | .acts as => as

/-- The changes in one answer of the environment about interrupts. -/
def interruptChanges : Option Interrupt → List EnvAct
  | none => []
  | some k => k.deliver

/-- Every change that the environment may yet make (spec/60_exceptions.md R203; log 2). -/
def Env.changes (e : Env) : List EnvAct :=
  e.crReads.all.flatMap CrReadReply.changes ++ (e.crWrites.all.flatMap CrWriteReply.changes ++
    (e.syscalls.all.flatMap Reply.changes ++ (e.breaks.all.flatMap Reply.changes ++
      (e.retis.all.flatMap Answer.changes ++ (e.illegals.all.flatMap Answer.changes ++
        e.interrupts.all.flatMap interruptChanges)))))

/-- No answer the environment may yet give changes program memory (spec/20_memory.md R66). -/
def Env.keepsProgram (e : Env) : Prop := ∀ a v, EnvAct.setProg a v ∉ e.changes

/-- The word computed depends on the flags handed over. -/
def EnvVal.readsFlags : EnvVal → Bool
  | .flags => true
  | .const _ | .arg _ | .pc | .reg _ | .cr _ | .intr | .slots | .branchTarget => false
  | .data a u | .prog a u => a.readsFlags || u.readsFlags
  | .op _ x y => x.readsFlags || y.readsFlags
  | .ifEq x y p q => x.readsFlags || y.readsFlags || (p.readsFlags || q.readsFlags)

/-- The words a change computes. -/
def EnvAct.words : EnvAct → List EnvVal
  | .setReg _ v | .setPc v | .setFlags v | .setCr _ v | .setIntr v | .setDelay v _ => [v]
  | .setData a v | .setProg a v => [a, v]
  | .clearDelay => []

/-- The word an answer of `Env.CrRead` computes. -/
def CrReadReply.words : CrReadReply → List EnvVal
  | .value v _ => [v]
  | .cell | .refuse => []

/-- Every word the environment may yet compute. -/
def Env.words (e : Env) : List EnvVal :=
  e.crReads.plan.tests ++ (e.crWrites.plan.tests ++ (e.syscalls.plan.tests ++ (e.breaks.plan.tests ++
    (e.retis.plan.tests ++ (e.illegals.plan.tests ++ (e.interrupts.plan.tests ++
      (e.crReads.all.flatMap CrReadReply.words ++ e.changes.flatMap EnvAct.words)))))))

/-- The environment looks at no flag: its answers are the same for states that differ in their flags only
(spec/10_state.md R36: whether a control register reads the flags is the environment's matter). -/
def Env.flagBlind (e : Env) : Prop := ∀ v ∈ e.words, v.readsFlags = false

/-- The instructions that ask the environment (spec/60_exceptions.md R203). -/
def asksEnv : Instr → Bool
  | .ldcr _ _ _ | .stcr _ _ _ | .syscall _ _ | .reti _ | .brk _ => true
  | _ => false

/-- The environment delivers no interrupt in the step from `s`: a branch is pending, or it answers none
(spec/60_exceptions.md R212). -/
def State.noInterrupt (s : State) : Prop := s.delay ≠ none ∨ s.interruptAnswer = none

/-- The word a step from `s` fetches: the word at the pc, its bytes that nothing has loaded those of the
next free value (spec/42_branches.md R141 (b); spec/20_memory.md R60; log 8). -/
def State.fetchedWord (s : State) : Word :=
  s.pmem.loadWord s.params.imageByteOrder s.pc (Config.freeWord s.draws)

/-- The state in which the fetched word runs: `s`, less the environment's answer about interrupts where
it was asked, and with one more draw where the word at the pc was not loaded
(spec/42_branches.md R141 (a), (b); log 2, log 8). -/
def State.fetchState (s : State) : State :=
  { s with
    env := if s.delay = none then { s.env with interrupts := s.env.interrupts.rest } else s.env
    draws := if s.pmem.holds s.pc = true then s.draws else s.draws + 1 }

/-- The instructions run one after the other from `s` and complete in `t`. -/
def ExecsTo : List Instr → State → State → Prop
  | [], s, t => t = s
  | k :: ks, s, t => ∃ u, exec k s = .next u ∧ ExecsTo ks u t

/-- `n` steps lead from `s` to `t` with no fault and no refusal. -/
def Runs (n : Nat) (s t : State) : Prop := Host.Core.run Sys2Proof.core n s = .next t

/-- The run from `s` ends normally in `t` (spec/60_exceptions.md R208). -/
def EndsNormally (s t : State) (p : Stop) : Prop := ∃ n, Runs n s t ∧ t.stopped = some p

/-- Every address of both memories is plain storage, as in the default environment
(spec/60_exceptions.md R203). -/
def Env.allRam (e : Env) : Prop := e.dataMap = [] ∧ e.progAbsent = []

/-- The run from `s` never faults and never leaves what the model gives meaning to. -/
def Safe (s : State) : Prop := ∀ n, ∃ t, Runs n s t

end Sys2Proof.Machine
end

