-- ==== Sys2Proof/WellFormed.lean ====
section
/-! DEFINITION. The check on instructions as terms. Every operand field has exactly the width of its
encoding field, so no operand is out of range; what remains is that an assembler writes zeros in the
bits labelled "ignored" (spec/30_encoding.md R86). The machine runs an instruction whatever those bits
hold: nothing in the step asks for this check. -/

namespace Sys2Proof

/-- The instruction is one the spec's assembler writes: its ignored bits are zero
(spec/30_encoding.md R86, D17). -/
def Instr.wellFormed : Instr → Bool
  | .addi _ _ | .andi _ _ | .ori _ _ | .xori _ _ | .cmpi _ _ | .ldi _ _ | .ldui _ _ | .addipc _ _ => true
  | .add _ _ _ | .addc _ _ _ | .sub _ _ _ | .subc _ _ _ | .and _ _ _ | .or _ _ _ | .xor _ _ _ => true
  | .cmp _ _ _ | .hadd _ _ _ | .haddc _ _ _ | .upsample _ _ _ | .byteswap _ _ _ => true
  | .bz _ ign | .bnz _ ign | .bc _ ign | .bnc _ ign | .bn _ ign | .bnn _ ign | .bo _ ign | .bno _ ign => ign == 0
  | .ld _ _ _ | .st _ _ _ => true
  | .ldcr _ _ ign | .stcr _ _ ign => ign == 0
  | .syscall _ ign => ign == 0
  | .j _ _ => true
  | .ja _ _ ign | .ldp _ _ ign | .stCond _ _ ign => ign == 0
  | .reti ign | .brk ign => ign == 0

/-- `Instr.wellFormed` as a proposition. -/
abbrev WellFormed (i : Instr) : Prop := i.wellFormed = true

end Sys2Proof
end

