-- ==== Sys2Proof/Certificates/Slice0/Obligations.lean ====
section
/-! DEFINITION. The statements about the machine that the provers are asked to settle. Each docstring
names the rule of spec/ it formalises. Where a rule rests on a decision the spec marks as its own, the
docstring names the decision. -/

open Sys2Proof Sys2Proof.Machine

/-! ### Encoding -/

/-- Words of the spec's own encoding table decode to their instructions
(spec/95_test_vectors.md 2.1; spec/30_encoding.md R72 to R81). -/
def Obligations.SpecWordsDecode : Prop :=
  decode 0x07F9 = .ok (.addi 1 0xFF) ∧ decode 0x087A = .ok (.andi 2 0x0F) ∧
  decode 0x3097 = .ok (.ldui 7 0x12) ∧ decode 0x40D1 = .ok (.add 1 2 3) ∧
  decode 0x5499 = .ok (.upsample 1 2 3) ∧ decode 0x56D1 = .ok (.byteswap 1 2 3) ∧
  decode 0x67E8 = .ok (.bnz 0x7D 0) ∧ decode 0x63FF = .ok (.bz 0x7F 7) ∧
  decode 0x8BE1 = .ok (.ld 1 2 0x7C) ∧ decode 0xA819 = .ok (.st 2 3 1) ∧
  decode 0xCA01 = .ok (.ldcr 1 5 0) ∧ decode 0xDA01 = .ok (.stcr 5 1 0) ∧
  decode 0xF150 = .ok (.syscall 42 0) ∧ decode 0xF2C7 = .ok (.ja 3 7 0) ∧
  decode 0xF7B7 = .ok (.j 0x76 7) ∧ decode 0xF842 = .ok (.ldp 2 1 0) ∧
  decode 0xFB05 = .ok (.stCond 4 5 0) ∧ decode 0xFC00 = .ok (.reti 0) ∧
  decode 0xFFFF = .ok (.brk 0x1FF) ∧ decode 0x5800 = .error (.unassignedRegisterAlu 0x5800) ∧
  decode 0xE000 = .error (.unassignedGroup1110 0xE000)

/-- Decoding the image bytes of any instruction, in either byte order and with anything after them,
gives the instruction back with every operand and every ignored bit (spec/30_encoding.md R70 to R88). -/
def Obligations.DecodeOfEncodeIsIdentity : Prop :=
  ∀ (o : ByteOrder) (i : Instr) (rest : List Byte),
    decode (encode i) = .ok i ∧ decodeBytes o (encodeBytes o i ++ rest) = .ok (i, rest)

/-- Encoding what a word decodes to gives the word back: the decoder drops no bit of any word
(spec/30_encoding.md R70 to R88). -/
def Obligations.EncodeOfDecodeIsIdentity : Prop :=
  ∀ (w : Word) (i : Instr), decode w = .ok i → encode i = w

/-- The words that are no instruction are exactly those of the two unassigned ranges, each rejected
under its own name (spec/30_encoding.md R90, marked derived by the spec). -/
def Obligations.UnassignedWordsAreTheTwoRanges : Prop :=
  ∀ w : Word,
    (decode w = .error (.unassignedRegisterAlu w) ↔ 0x5800 ≤ w.toNat ∧ w.toNat ≤ 0x5FFF) ∧
    (decode w = .error (.unassignedGroup1110 w) ↔ 0xE000 ≤ w.toNat ∧ w.toNat ≤ 0xEFFF) ∧
    ((∃ i, decode w = .ok i) ↔
      ¬(0x5800 ≤ w.toNat ∧ w.toNat ≤ 0x5FFF) ∧ ¬(0xE000 ≤ w.toNat ∧ w.toNat ≤ 0xEFFF))

/-- A word is an instruction of a row of the opcode map exactly when it has the row's match under the
row's mask (spec/30_encoding.md R88). -/
def Obligations.OpcodeMapDecidesTheRow : Prop :=
  ∀ (w : Word) (j : Instr),
    w &&& (opcodeRow j).1 = (opcodeRow j).2 ↔ ∃ i, decode w = .ok i ∧ opcodeRow i = opcodeRow j

/-- Bits labelled "ignored" take no part in decoding or execution: words that differ in them only decode
to instructions that differ in them only, outside the slot of a taken branch these run alike, and in
the slot either both fault as control instructions, each under its own word, or both run alike; the
assembler's form has zeros there (spec/30_encoding.md R86; the zeros are decision D17). -/
def Obligations.IgnoredBitsTakeNoPart : Prop :=
  ∀ (w u : Word) (i : Instr), decode w = .ok i → (w ^^^ u) &&& ~~~(ignoredBits i) = 0 →
    ∃ k, decode u = .ok k ∧ zeroIgnored k = zeroIgnored i ∧
      (WellFormed i ↔ w &&& ignoredBits i = 0) ∧
      ∀ s : State, (s.delay = none ∨ isControl i = false → exec k s = exec i s) ∧
        ∀ t, s.delay = some t → isControl i = true →
          exec i s = .fault (.delaySlotControl w s.pc) ∧ exec k s = .fault (.delaySlotControl u s.pc)

/-- The `rd` field of `cmp` may hold anything: every value decodes as `cmp`, no register is written, and
the outcome does not depend on the field (spec/30_encoding.md R87). -/
def Obligations.CmpIgnoresItsDestination : Prop :=
  ∀ (rd rd' rs1 rs2 : Reg) (s : State),
    decode (0b0100111#7 ++ rs2 ++ rs1 ++ rd) = .ok (.cmp rd rs1 rs2) ∧
    exec (.cmp rd rs1 rs2) s = exec (.cmp rd' rs1 rs2) s ∧
    ∃ t, exec (.cmp rd rs1 rs2) s = .next t ∧ SameRegs s t

/-! ### Immediate ALU instructions -/

/-- `addi` (spec/40_immediate_alu.md R101; the flag values are decision D7). -/
def Obligations.AddiAddsItsImmediate : Prop :=
  ∀ (r : Reg) (imm : BitVec 8), decode (0b00000#5 ++ imm ++ r) = .ok (.addi r imm) ∧
    ∀ s : State, ∃ t, exec (.addi r imm) s = .next t ∧
      WritesReg r (BitVec.ofInt 16 ((s.getReg r).toNat + imm.toInt)) s t ∧
      AddFlagsOf (s.getReg r) (BitVec.ofInt 16 imm.toInt) 0 t ∧ AluFrame s t ∧ t.draws = s.draws

/-- `andi`, `ori`, `xori` with the sign-extended immediate; `C` and `V` are fresh free values
(spec/40_immediate_alu.md R102, R103, R104; the flags are decision D7). -/
def Obligations.BitwiseImmediates : Prop :=
  ∀ (r : Reg) (imm : BitVec 8) (s : State),
    decode (0b00001#5 ++ imm ++ r) = .ok (.andi r imm) ∧
    decode (0b00010#5 ++ imm ++ r) = .ok (.ori r imm) ∧
    decode (0b00011#5 ++ imm ++ r) = .ok (.xori r imm) ∧
    (∃ t, exec (.andi r imm) s = .next t ∧
      LogicInto r (s.getReg r &&& BitVec.ofInt 16 imm.toInt) s t) ∧
    (∃ t, exec (.ori r imm) s = .next t ∧
      LogicInto r (s.getReg r ||| BitVec.ofInt 16 imm.toInt) s t) ∧
    (∃ t, exec (.xori r imm) s = .next t ∧
      LogicInto r (s.getReg r ^^^ BitVec.ofInt 16 imm.toInt) s t)

/-- `cmpi` writes the flags of a subtraction and no register
(spec/40_immediate_alu.md R105; the flag values are decisions D7 and D8). -/
def Obligations.CmpiWritesFlagsOnly : Prop :=
  ∀ (r : Reg) (imm : BitVec 8), decode (0b00100#5 ++ imm ++ r) = .ok (.cmpi r imm) ∧
    ∀ s : State, ∃ t, exec (.cmpi r imm) s = .next t ∧ SameRegs s t ∧
      SubFlagsOf (s.getReg r) (BitVec.ofInt 16 imm.toInt) 0 s t ∧ AluFrame s t ∧ t.draws = s.draws

/-- `ldi` loads the sign-extended immediate and leaves all flags free
(spec/40_immediate_alu.md R106; the flags are decision D7). -/
def Obligations.LdiLoadsItsImmediate : Prop :=
  ∀ (r : Reg) (imm : BitVec 8), decode (0b00101#5 ++ imm ++ r) = .ok (.ldi r imm) ∧
    ∀ s : State, ∃ t, exec (.ldi r imm) s = .next t ∧ MovesInto r (BitVec.ofInt 16 imm.toInt) s t

/-- `ldui` loads the immediate into the high byte; the low byte is zero, or the old one where
`LDUI_KEEPS_LOW_BYTE` is true (spec/40_immediate_alu.md R107; decisions D7 and D10). -/
def Obligations.LduiLoadsTheHighByte : Prop :=
  ∀ (r : Reg) (imm : BitVec 8), decode (0b00110#5 ++ imm ++ r) = .ok (.ldui r imm) ∧
    ∀ s : State, ∃ t, exec (.ldui r imm) s = .next t ∧
      MovesInto r
        (BitVec.ofNat 16 (imm.toNat * 256 +
          if s.params.lduiKeepsLowByte = true then (s.getReg r).toNat % 256 else 0)) s t

/-- `addipc` adds its immediate to `Pc` outside the slot of a taken branch and faults in it
(spec/40_immediate_alu.md R108; decisions D4, D6, D7). -/
def Obligations.AddipcAddsToPc : Prop :=
  ∀ (rd : Reg) (imm : BitVec 8), decode (0b00111#5 ++ imm ++ rd) = .ok (.addipc rd imm) ∧
    ∀ s : State,
      (s.delay = none → ∃ t, exec (.addipc rd imm) s = .next t ∧
        MovesInto rd (BitVec.ofInt 16 (s.pc.toNat + s.params.pcReadBias.toNat + imm.toInt)) s t) ∧
      ∀ d, s.delay = some d →
        exec (.addipc rd imm) s = .fault (.delaySlotControl (0b00111#5 ++ imm ++ rd) s.pc)

/-! ### Register ALU instructions -/

/-- `add` (spec/41_register_alu.md R121; the flag values are decision D7). -/
def Obligations.AddAddsTwoRegisters : Prop :=
  ∀ rd rs1 rs2 : Reg, decode (0b0100000#7 ++ rs2 ++ rs1 ++ rd) = .ok (.add rd rs1 rs2) ∧
    ∀ s : State, ∃ t, exec (.add rd rs1 rs2) s = .next t ∧
      WritesReg rd (BitVec.ofNat 16 ((s.getReg rs1).toNat + (s.getReg rs2).toNat)) s t ∧
      AddFlagsOf (s.getReg rs1) (s.getReg rs2) 0 t ∧ AluFrame s t ∧ t.draws = s.draws

/-- `addc` (spec/41_register_alu.md R122; the flag values are decision D7). -/
def Obligations.AddcAddsTheCarry : Prop :=
  ∀ rd rs1 rs2 : Reg, decode (0b0100001#7 ++ rs2 ++ rs1 ++ rd) = .ok (.addc rd rs1 rs2) ∧
    ∀ s : State, ∃ t, exec (.addc rd rs1 rs2) s = .next t ∧
      WritesReg rd
        (BitVec.ofNat 16 ((s.getReg rs1).toNat + (s.getReg rs2).toNat + if s.flags.c then 1 else 0)) s t ∧
      AddFlagsOf (s.getReg rs1) (s.getReg rs2) (if s.flags.c then 1 else 0) t ∧ AluFrame s t ∧
      t.draws = s.draws

/-- `sub` (spec/41_register_alu.md R123; the flag values are decisions D7 and D8). -/
def Obligations.SubSubtracts : Prop :=
  ∀ rd rs1 rs2 : Reg, decode (0b0100010#7 ++ rs2 ++ rs1 ++ rd) = .ok (.sub rd rs1 rs2) ∧
    ∀ s : State, ∃ t, exec (.sub rd rs1 rs2) s = .next t ∧
      WritesReg rd (s.getReg rs1 - s.getReg rs2) s t ∧
      SubFlagsOf (s.getReg rs1) (s.getReg rs2) 0 s t ∧ AluFrame s t ∧ t.draws = s.draws

/-- `subc` subtracts the carry flag as it stands
(spec/41_register_alu.md R124; the flag values are decisions D7 and D8). -/
def Obligations.SubcSubtractsTheCarry : Prop :=
  ∀ rd rs1 rs2 : Reg, decode (0b0100011#7 ++ rs2 ++ rs1 ++ rd) = .ok (.subc rd rs1 rs2) ∧
    ∀ s : State, ∃ t, exec (.subc rd rs1 rs2) s = .next t ∧
      WritesReg rd (s.getReg rs1 - s.getReg rs2 - if s.flags.c then 1 else 0) s t ∧
      SubFlagsOf (s.getReg rs1) (s.getReg rs2) (if s.flags.c then 1 else 0) s t ∧ AluFrame s t ∧
      t.draws = s.draws

/-- `and`, `or`, `xor`; `C` and `V` are fresh free values
(spec/41_register_alu.md R125, R126, R127; the flags are decision D7). -/
def Obligations.BitwiseRegisters : Prop :=
  ∀ (rd rs1 rs2 : Reg) (s : State),
    decode (0b0100100#7 ++ rs2 ++ rs1 ++ rd) = .ok (.and rd rs1 rs2) ∧
    decode (0b0100101#7 ++ rs2 ++ rs1 ++ rd) = .ok (.or rd rs1 rs2) ∧
    decode (0b0100110#7 ++ rs2 ++ rs1 ++ rd) = .ok (.xor rd rs1 rs2) ∧
    (∃ t, exec (.and rd rs1 rs2) s = .next t ∧ LogicInto rd (s.getReg rs1 &&& s.getReg rs2) s t) ∧
    (∃ t, exec (.or rd rs1 rs2) s = .next t ∧ LogicInto rd (s.getReg rs1 ||| s.getReg rs2) s t) ∧
    (∃ t, exec (.xor rd rs1 rs2) s = .next t ∧ LogicInto rd (s.getReg rs1 ^^^ s.getReg rs2) s t)

/-- `cmp` writes the flags of `sub` and no register
(spec/41_register_alu.md R128; the flag values are decisions D7 and D8). -/
def Obligations.CmpWritesFlagsOnly : Prop :=
  ∀ rd rs1 rs2 : Reg, decode (0b0100111#7 ++ rs2 ++ rs1 ++ rd) = .ok (.cmp rd rs1 rs2) ∧
    ∀ s : State, ∃ t, exec (.cmp rd rs1 rs2) s = .next t ∧ SameRegs s t ∧
      SubFlagsOf (s.getReg rs1) (s.getReg rs2) 0 s t ∧ AluFrame s t ∧ t.draws = s.draws ∧
      ∃ u, exec (.sub rd rs1 rs2) s = .next u ∧ t.flags = u.flags

/-- `hadd`: the 17-bit sum shifted right by one, `C` the bit shifted out, `V` free
(spec/41_register_alu.md R129; the flags are decision D7). -/
def Obligations.HaddHalvesTheSum : Prop :=
  ∀ rd rs1 rs2 : Reg, decode (0b0101000#7 ++ rs2 ++ rs1 ++ rd) = .ok (.hadd rd rs1 rs2) ∧
    ∀ s : State, ∃ t, exec (.hadd rd rs1 rs2) s = .next t ∧
      let sum := (s.getReg rs1).toNat + (s.getReg rs2).toNat
      (∀ r, r ≠ rd → t.getReg r = s.getReg r) ∧
      (s.isZeroReg rd = false → (t.getReg rd).toNat = sum / 2) ∧
      (s.isZeroReg rd = true → t.getReg rd = 0) ∧
      ZNOf (BitVec.ofNat 16 (sum / 2)) t ∧ (t.flags.c = true ↔ sum % 2 = 1) ∧
      t.flags.v = Config.freeBit s.draws ∧ t.draws = s.draws + 1 ∧ AluFrame s t

/-- `haddc`: the carry enters with weight 2^15 or 2^16 as the parameter says, bit 17 of the sum is lost,
`C` is bit 0 of the sum of the registers, `V` is free
(spec/41_register_alu.md R130; decisions D7 and D9, conflict C1). -/
def Obligations.HaddcHalvesTheSumWithCarry : Prop :=
  ∀ rd rs1 rs2 : Reg, decode (0b0101001#7 ++ rs2 ++ rs1 ++ rd) = .ok (.haddc rd rs1 rs2) ∧
    ∀ s : State, ∃ t, exec (.haddc rd rs1 rs2) s = .next t ∧
      let sum := (s.getReg rs1).toNat + (s.getReg rs2).toNat +
        (if s.flags.c then (if s.params.haddcWeight = .two15 then 32768 else 65536) else 0)
      WritesReg rd (BitVec.ofNat 16 (sum / 2)) s t ∧ ZNOf (BitVec.ofNat 16 (sum / 2)) t ∧
      (t.flags.c = true ↔ ((s.getReg rs1).toNat + (s.getReg rs2).toNat) % 2 = 1) ∧
      t.flags.v = Config.freeBit s.draws ∧ t.draws = s.draws + 1 ∧ AluFrame s t

/-- `upsample` joins two low bytes, and its two source fields stand exchanged in the word
(spec/41_register_alu.md R131; the flags are decision D7). -/
def Obligations.UpsampleJoinsLowBytes : Prop :=
  ∀ rd rs1 rs2 : Reg, decode (0b0101010#7 ++ rs1 ++ rs2 ++ rd) = .ok (.upsample rd rs1 rs2) ∧
    ∀ s : State, ∃ t, exec (.upsample rd rs1 rs2) s = .next t ∧
      MovesInto rd (s.getReg rs1 <<< 8 ||| s.getReg rs2 &&& 0x00FF) s t

/-- `byteswap` takes the middle word of the concatenation of its two sources
(spec/41_register_alu.md R132; the flags are decision D7). -/
def Obligations.ByteswapTakesTheMiddleWord : Prop :=
  ∀ rd rs1 rs2 : Reg, decode (0b0101011#7 ++ rs2 ++ rs1 ++ rd) = .ok (.byteswap rd rs1 rs2) ∧
    ∀ s : State, ∃ t, exec (.byteswap rd rs1 rs2) s = .next t ∧
      MovesInto rd ((s.getReg rs1 ++ s.getReg rs2).extractLsb' 8 16) s t

/-- Two-word addition and subtraction: the low instruction followed by the one with carry compute modulo
2^32, when the low result overwrites no source of the high one, the registers written are not
hardwired, and the carry after a subtraction is the borrow
(spec/41_register_alu.md R133 (b), marked derived by the spec; decision D8). -/
def Obligations.TwoWordArithmetic : Prop :=
  ∀ (l h a0 a1 b0 b1 : Reg) (s : State), l ≠ a1 → l ≠ b1 → l ≠ h →
    s.isZeroReg l = false → s.isZeroReg h = false →
    (∃ t u, exec (.add l a0 b0) s = .next t ∧ exec (.addc h a1 b1) t = .next u ∧
      u.getReg h ++ u.getReg l = (s.getReg a1 ++ s.getReg a0) + (s.getReg b1 ++ s.getReg b0)) ∧
    (s.params.subCarryIsBorrow = true →
      ∃ t u, exec (.sub l a0 b0) s = .next t ∧ exec (.subc h a1 b1) t = .next u ∧
        u.getReg h ++ u.getReg l = (s.getReg a1 ++ s.getReg a0) - (s.getReg b1 ++ s.getReg b0))

/-- With carry weight 2^16 and a zero second source, `haddc` rotates right through carry
(spec/41_register_alu.md R130, what the spec says of the alternative weight). -/
def Obligations.HaddcRotatesRightAtWeightTwo16 : Prop :=
  ∀ (rd rs rz : Reg) (s : State), s.params.haddcWeight = .two16 → s.getReg rz = 0 →
    s.isZeroReg rd = false →
    ∃ t, exec (.haddc rd rs rz) s = .next t ∧
      t.getReg rd ++ BitVec.ofBool t.flags.c = BitVec.ofBool s.flags.c ++ s.getReg rs

/-! ### Branches and the delay slot -/

/-- Each conditional branch tests its flag: outside the slot of a taken branch it leaves the target
pending if the condition holds and goes on at the next word either way, changing nothing else
(spec/42_branches.md R142 to R149; decisions D4, D5, D6). -/
def Obligations.BranchesTestTheirFlags : Prop :=
  ∀ (off : BitVec 7) (ign : BitVec 3) (s : State),
    let after := fun (taken : Bool) =>
      { s with
        delay := if taken then
            some ⟨BitVec.ofInt 16 (s.pc.toNat + s.params.pcReadBias.toNat + off.toInt), 0⟩ else none
        pc := BitVec.ofNat 16 (s.pc.toNat + 1) }
    let branch := fun (sel : BitVec 3) (i : Instr) (taken : Bool) =>
      decode (0b011#3 ++ sel ++ off ++ ign) = .ok i ∧
        (s.delay = none → exec i s = .next (after taken)) ∧
        ∀ d, s.delay = some d →
          exec i s = .fault (.delaySlotControl (0b011#3 ++ sel ++ off ++ ign) s.pc)
    branch 0b000 (.bz off ign) s.flags.z ∧ branch 0b001 (.bnz off ign) (!s.flags.z) ∧
    branch 0b010 (.bc off ign) s.flags.c ∧ branch 0b011 (.bnc off ign) (!s.flags.c) ∧
    branch 0b100 (.bn off ign) s.flags.n ∧ branch 0b101 (.bnn off ign) (!s.flags.n) ∧
    branch 0b110 (.bo off ign) s.flags.v ∧ branch 0b111 (.bno off ign) (!s.flags.v)

/-- A branch, then its slot instruction: whatever completes in the slot goes on at the branch's target if
it was taken and at the second next word if not; the flags the slot writes do not matter to the
branch already decided (spec/42_branches.md R140, R150 (a), marked derived by the spec). That this holds too
of an `ldcr` or `stcr` during which the environment sets the pc is the model's reading: the advance
overwrites that pc (log 17). -/
def Obligations.SlotThenTarget : Prop :=
  ∀ (off : BitVec 7) (ign : BitVec 3) (s : State) (k : Instr), s.delay = none → isControl k = false →
    let goesOn := fun (i : Instr) (taken : Bool) =>
      ∃ t, exec i s = .next t ∧ ∀ u, exec k t = .next u →
        u.pc = if taken then BitVec.ofInt 16 (s.pc.toNat + s.params.pcReadBias.toNat + off.toInt)
          else BitVec.ofNat 16 (s.pc.toNat + 2)
    goesOn (.bz off ign) s.flags.z ∧ goesOn (.bnz off ign) (!s.flags.z) ∧
    goesOn (.bc off ign) s.flags.c ∧ goesOn (.bnc off ign) (!s.flags.c) ∧
    goesOn (.bn off ign) s.flags.n ∧ goesOn (.bnn off ign) (!s.flags.n) ∧
    goesOn (.bo off ign) s.flags.v ∧ goesOn (.bno off ign) (!s.flags.v)

/-- In the slot of a taken branch exactly the fourteen listed instructions fault, and no instruction
raises that fault elsewhere (spec/42_branches.md R141 (d), R235; decision D6). -/
def Obligations.ControlInstructionsFaultInTheSlot : Prop :=
  ∀ (i : Instr) (s : State),
    (∃ w p, exec i s = .fault (.delaySlotControl w p)) ↔ isControl i = true ∧ s.delay ≠ none

/-! ### Memory -/

/-- `ld`: from plain storage it reads the word, from a device a fresh free value with an event, and at
an absent address it is refused; a completed load clears `intr_since_load`. That a word nothing has
written reads as a fresh free value, where the spec also allows a fault, is the model's choice (log 7)
(spec/43_load_store.md R156; decisions D3, D7, D15). -/
def Obligations.LdLoadsAWord : Prop :=
  ∀ (rd address : Reg) (off : BitVec 7), decode (0b100#3 ++ address ++ off ++ rd) = .ok (.ld rd address off) ∧
    ∀ s : State,
      let ea : Word := BitVec.ofInt 16 ((s.getReg address).toNat + off.toInt)
      let frame := fun t : State => Completed s t ∧ t.flags = s.flags ∧ SameMemory s t ∧ SameCr s t ∧
        t.intrSinceLoad = false ∧ t.params = s.params ∧ t.env = s.env ∧ t.stopped = s.stopped
      (s.env.region ea = .ram →
        ∃ t v, exec (.ld rd address off) s = .next t ∧ WritesReg rd v s t ∧ frame t ∧
          t.events = s.events ∧ t.draws = (if s.dmem.holds ea = true then s.draws else s.draws + 1) ∧
          (s.dmem.holds ea = true → ∀ free, s.dmem.loadWord s.params.imageByteOrder ea free = v) ∧
          v = s.dmem.loadWord s.params.imageByteOrder ea (Config.freeWord s.draws)) ∧
      (s.env.region ea = .device →
        ∃ t, exec (.ld rd address off) s = .next t ∧ WritesReg rd (Config.freeWord s.draws) s t ∧ frame t ∧
          t.events = s.events ++ [.deviceRead ea (Config.freeWord s.draws)] ∧ t.draws = s.draws + 1) ∧
      (s.env.region ea = .absent → exec (.ld rd address off) s = .refused (.absentData ea))

/-- `st`: it stores the register's word at the effective address and changes nothing else; a device
write is recorded instead, and an absent address is refused
(spec/43_load_store.md R157; decisions D3, D7). -/
def Obligations.StStoresAWord : Prop :=
  ∀ (address : Reg) (off : BitVec 7) (rs : Reg),
    decode (0b101#3 ++ address ++ off ++ rs) = .ok (.st address off rs) ∧
    ∀ s : State,
      let ea : Word := BitVec.ofInt 16 ((s.getReg address).toNat + off.toInt)
      (s.env.region ea = .ram →
        ∃ t, exec (.st address off rs) s = .next t ∧ HoldsWord t ea (s.getReg rs) ∧ SameMemoryBut ea s t ∧
          SameRegs s t ∧ Completed s t ∧ t.flags = s.flags ∧ SameCr s t ∧
          t.intrSinceLoad = s.intrSinceLoad ∧ SameOutside s t ∧ t.draws = s.draws) ∧
      (s.env.region ea = .device →
        ∃ t, exec (.st address off rs) s = .next t ∧ SameMemory s t ∧
          SameRegs s t ∧ Completed s t ∧ t.flags = s.flags ∧ SameCr s t ∧
          t.intrSinceLoad = s.intrSinceLoad ∧ t.params = s.params ∧ t.env = s.env ∧
          t.events = s.events ++ [.deviceWrite ea (s.getReg rs)] ∧ t.stopped = s.stopped ∧
          t.draws = s.draws) ∧
      (s.env.region ea = .absent → exec (.st address off rs) s = .refused (.absentData ea))

/-- `ldp` reads program memory at the register's address with no offset; an absent address is refused;
`intr_since_load` is cleared only where the parameter says so. That a word nothing has loaded reads as
a fresh free value, where the spec also allows a fault, is the model's choice (log 7)
(spec/45_system_and_jumps.md R184; decisions D3, D7, D15). -/
def Obligations.LdpReadsProgramMemory : Prop :=
  ∀ (rd address : Reg) (ign : BitVec 3),
    decode (0b1111100#7 ++ address ++ ign ++ rd) = .ok (.ldp rd address ign) ∧
    ∀ s : State,
      let a := s.getReg address
      (s.env.hasProgram a = true →
        ∃ t v, exec (.ldp rd address ign) s = .next t ∧ WritesReg rd v s t ∧
          QuietFrame (if s.pmem.holds a = true then 0 else 1) s t ∧
          t.intrSinceLoad = (if s.params.ldpClearsIntr = true then false else s.intrSinceLoad) ∧
          (s.pmem.holds a = true → ∀ free, s.pmem.loadWord s.params.imageByteOrder a free = v) ∧
          v = s.pmem.loadWord s.params.imageByteOrder a (Config.freeWord s.draws)) ∧
      (s.env.hasProgram a = false → exec (.ldp rd address ign) s = .refused (.absentProgram a))

/-- `st_cond` stores exactly when no interrupt was delivered since the last load; otherwise it makes no
access; its flags are free or kept as the parameter says, and the bit stays
(spec/45_system_and_jumps.md R187; decision D15). -/
def Obligations.StCondStoresUnlessInterrupted : Prop :=
  ∀ (address rs : Reg) (ign : BitVec 3),
    decode (0b1111101#7 ++ address ++ ign ++ rs) = .ok (.stCond address rs ign) ∧
    ∀ s : State,
      let ea := s.getReg address
      let frame := fun t : State => SameRegs s t ∧ Completed s t ∧ SameCr s t ∧
        t.intrSinceLoad = s.intrSinceLoad ∧ t.params = s.params ∧ t.env = s.env ∧ t.stopped = s.stopped ∧
        (s.params.stCondFlags = .preserve → t.flags = s.flags ∧ t.draws = s.draws) ∧
        (s.params.stCondFlags = .draw → FreshFlags s t)
      (s.intrSinceLoad = true →
        ∃ t, exec (.stCond address rs ign) s = .next t ∧ SameMemory s t ∧ t.events = s.events ∧ frame t) ∧
      (s.intrSinceLoad = false → s.env.region ea = .ram →
        ∃ t, exec (.stCond address rs ign) s = .next t ∧ HoldsWord t ea (s.getReg rs) ∧
          SameMemoryBut ea s t ∧ t.events = s.events ∧ frame t) ∧
      (s.intrSinceLoad = false → s.env.region ea = .device →
        ∃ t, exec (.stCond address rs ign) s = .next t ∧ SameMemory s t ∧
          t.events = s.events ++ [.deviceWrite ea (s.getReg rs)] ∧ frame t) ∧
      (s.intrSinceLoad = false → s.env.region ea = .absent →
        exec (.stCond address rs ign) s = .refused (.absentData ea))

/-- A load after a store: at the same address it returns the word stored, at another the word that was
there, whatever the registers and offsets that form the addresses (spec/20_memory.md R63; decision
D20). Where nothing has written that other word, that the load completes is the model's choice (log
7), and the two loads compared take the draw of the same number (log 3). -/
def Obligations.LoadAfterStore : Prop :=
  ∀ (ra rb rs rd : Reg) (o1 o2 : BitVec 7) (s : State),
    s.env.region (s.effAddr ra o1) = .ram → s.env.region (s.effAddr rb o2) = .ram →
    s.isZeroReg rd = false →
    ∃ t u, exec (.st ra o1 rs) s = .next t ∧ exec (.ld rd rb o2) t = .next u ∧
      (s.effAddr rb o2 = s.effAddr ra o1 → u.getReg rd = s.getReg rs) ∧
      (s.effAddr rb o2 ≠ s.effAddr ra o1 →
        ∃ v, exec (.ld rd rb o2) s = .next v ∧ u.getReg rd = v.getReg rd)

/-- A `ld` clears the condition of `st_cond` whatever it reads, and a delivered interrupt sets it before
the environment makes its state, so a `st_cond` after the one stores and after the other does not,
the environment's own changes left aside
(spec/20_memory.md R65, spec/10_state.md R43, spec/60_exceptions.md R212; decisions D14, D15). -/
def Obligations.InterruptBlocksTheConditionalStore : Prop :=
  ∀ (rd ra address rs : Reg) (off : BitVec 7) (ign : BitVec 3) (s t : State),
    exec (.ld rd ra off) s = .next t → t.env.region (t.getReg address) = .ram →
    (∃ u, exec (.stCond address rs ign) t = .next u ∧ HoldsWord u (t.getReg address) (t.getReg rs)) ∧
    ∀ k : Interrupt, k.deliver = [] →
      ∃ u, exec (.stCond address rs ign) (t.deliver k) = .next u ∧ SameMemory t u

/-! ### Control registers -/

/-- `ldcr` asks the environment. Answered as the default instance does, it reads the cell and changes
nothing else; answered with a word and changes, those are made first; refused, it is refused
(spec/44_control_registers.md R166; decisions D12, D15; the order is log 17, the form of the
environment log 2). -/
def Obligations.LdcrReadsAControlRegister : Prop :=
  ∀ (rd : Reg) (cr : CrNum) (ign : BitVec 6),
    decode (0b1100#4 ++ cr ++ ign ++ rd) = .ok (.ldcr rd cr ign) ∧
    ∀ s : State,
      let args : List Word := [BitVec.ofNat 16 cr.toNat]
      let handed := { s with delay := s.nextDelay }
      let left := { handed with env := { s.env with crReads := s.env.crReads.rest } }
      s.env.crReads.Lawful .cell handed args ∧
      (s.env.crReads.answer .cell handed args = .cell →
        ∃ t, exec (.ldcr rd cr ign) s = .next t ∧ WritesReg rd (s.getCr cr) s t ∧
          QuietFrame 0 { s with env := left.env } t ∧ t.intrSinceLoad = s.intrSinceLoad) ∧
      (∀ v acts, s.env.crReads.answer .cell handed args = .value v acts →
        let u := left.applyActs args acts
        ∃ t, exec (.ldcr rd cr ign) s = .next t ∧ WritesReg rd (v.eval handed args) u t ∧
          t.flags = u.flags ∧ SameMemory u t ∧ SameCr u t ∧ t.intrSinceLoad = u.intrSinceLoad ∧
          SameOutside u t ∧ t.delay = u.delay ∧ t.draws = u.draws ∧ t.pc = s.nextPc) ∧
      (s.env.crReads.answer .cell handed args = .refuse →
        exec (.ldcr rd cr ign) s = .refused (.crRead cr))

/-- `stcr` asks the environment. Answered as the default instance does, it writes the cell and nothing
else; answered with changes, those are made instead; refused, it is refused
(spec/44_control_registers.md R167; decision D12; the order is log 17, the form of the environment
log 2). -/
def Obligations.StcrWritesAControlRegister : Prop :=
  ∀ (cr : CrNum) (rs : Reg) (ign : BitVec 6),
    decode (0b1101#4 ++ cr ++ ign ++ rs) = .ok (.stcr cr rs ign) ∧
    ∀ s : State,
      let args : List Word := [BitVec.ofNat 16 cr.toNat, s.getReg rs]
      let handed := { s with delay := s.nextDelay }
      let left := { handed with env := { s.env with crWrites := s.env.crWrites.rest } }
      s.env.crWrites.Lawful .cell handed args ∧
      (s.env.crWrites.answer .cell handed args = .cell →
        ∃ t, exec (.stcr cr rs ign) s = .next t ∧ t.getCr cr = s.getReg rs ∧
          (∀ n, n ≠ cr → t.getCr n = s.getCr n) ∧ SameRegs s t ∧ Completed s t ∧ t.flags = s.flags ∧
          SameMemory s t ∧ t.intrSinceLoad = s.intrSinceLoad ∧
          SameOutside { s with env := left.env } t ∧ t.draws = s.draws) ∧
      (∀ acts, s.env.crWrites.answer .cell handed args = .acts acts →
        exec (.stcr cr rs ign) s = .next { left.applyActs args acts with pc := s.nextPc }) ∧
      (s.env.crWrites.answer .cell handed args = .refuse →
        exec (.stcr cr rs ign) s = .refused (.crWrite cr))

/-! ### Jumps, system call, break, return from interrupt -/

/-- `ja`, where jumps have no delay slot: the target is the old value of its register and the link is
`Pc`; in the slot of a taken branch it faults
(spec/45_system_and_jumps.md R178; decisions D4, D5, D6, D11). -/
def Obligations.JaJumpsAndLinks : Prop :=
  ∀ (address link : Reg) (ign : BitVec 3),
    decode (0b1111001#7 ++ address ++ ign ++ link) = .ok (.ja address link ign) ∧
    ∀ s : State,
      (s.delay = none → s.params.jumpDelaySlots = 0 → ∃ t, exec (.ja address link ign) s = .next t ∧
        t.pc = s.getReg address ∧ t.delay = none ∧
        WritesReg link (BitVec.ofNat 16 (s.pc.toNat + s.params.pcReadBias.toNat)) s t ∧ JumpFrame s t) ∧
      ∀ d, s.delay = some d → exec (.ja address link ign) s =
        .fault (.delaySlotControl (0b1111001#7 ++ address ++ ign ++ link) s.pc)

/-- `j`, where jumps have no delay slot: the target is `Pc + offset` and the link is `Pc`; in the slot of
a taken branch it faults (spec/45_system_and_jumps.md R181; decisions D4, D5, D6). -/
def Obligations.JJumpsAndLinks : Prop :=
  ∀ (off : BitVec 7) (link : Reg),
    decode (0b111101#6 ++ off ++ link) = .ok (.j off link) ∧
    ∀ s : State,
      (s.delay = none → s.params.jumpDelaySlots = 0 → ∃ t, exec (.j off link) s = .next t ∧
        t.pc = BitVec.ofInt 16 (s.pc.toNat + s.params.pcReadBias.toNat + off.toInt) ∧ t.delay = none ∧
        WritesReg link (BitVec.ofNat 16 (s.pc.toNat + s.params.pcReadBias.toNat)) s t ∧ JumpFrame s t) ∧
      ∀ d, s.delay = some d → exec (.j off link) s =
        .fault (.delaySlotControl (0b111101#6 ++ off ++ link) s.pc)

/-- `ja` and `j` where `JUMP_DELAY_SLOTS` is `n + 1`: they link at once and leave their target pending.
Where the control registers are the plain cells, the next words are then run one after the other, as
many as there are slots, and after the last the run goes on at the target. How the slots work is the
model's own reading (log 13; spec/45_system_and_jumps.md R175, spec/00_scope.md R6). -/
def Obligations.JumpsWithDelaySlots : Prop :=
  ∀ (i : Instr) (link : Reg) (target : Word) (n : Nat) (s : State),
    s.delay = none → s.params.jumpDelaySlots = n + 1 →
    ((∃ address ign, i = .ja address link ign ∧ target = s.getReg address) ∨
      (∃ off, i = .j off link ∧
        target = BitVec.ofInt 16 (s.pc.toNat + s.params.pcReadBias.toNat + off.toInt))) →
    ∃ t, exec i s = .next t ∧ t.pc = s.pc + 1 ∧ t.delay = some ⟨target, n⟩ ∧
      WritesReg link (BitVec.ofNat 16 (s.pc.toNat + s.params.pcReadBias.toNat)) s t ∧ JumpFrame s t ∧
      ∀ (ks : List Instr) (u : State), s.env.crReads = .default → s.env.crWrites = .default →
        (∀ k ∈ ks, isControl k = false) → ks.length ≤ n + 1 → ExecsTo ks t u →
        if ks.length = n + 1 then u.pc = target ∧ u.delay = none
        else u.pc = s.pc + 1 + BitVec.ofNat 16 ks.length ∧ u.delay = some ⟨target, n - ks.length⟩

/-- `syscall` hands the environment its code and the state with the pc past the instruction: by default the
run stops with its code, and a service resumes it, or faults. That the end of the run is a next state
is the model's choice (log 9), that the pc handed over is the next word under every `PC_READ_BIAS` is
its reading (log 12), and the form of the environment is log 2
(spec/45_system_and_jumps.md R176, spec/60_exceptions.md R204; decision D13). -/
def Obligations.SyscallGoesToTheEnvironment : Prop :=
  ∀ (code : BitVec 6) (ign : BitVec 3),
    decode (0b1111000#7 ++ code ++ ign) = .ok (.syscall code ign) ∧
    ∀ s : State,
      let args : List Word := [BitVec.ofNat 16 code.toNat]
      let handed := { s with pc := s.pc + 1 }
      let left := { handed with env := { s.env with syscalls := s.env.syscalls.rest } }
      s.env.syscalls.Lawful .stop handed args ∧
      (s.delay = none → s.env.syscalls.answer .stop handed args = .stop →
        exec (.syscall code ign) s = .next { left with stopped := some (.syscall code) }) ∧
      (∀ acts, s.delay = none → s.env.syscalls.answer .stop handed args = .answer (.resume acts) →
        exec (.syscall code ign) s =
          .next ({ left with events := s.events ++ [Event.syscall code] }.applyActs args acts)) ∧
      (s.delay = none → s.env.syscalls.answer .stop handed args = .answer .fault →
        exec (.syscall code ign) s = .fault (.syscall code (s.pc + 1))) ∧
      ∀ d, s.delay = some d → exec (.syscall code ign) s =
        .fault (.delaySlotControl (0b1111000#7 ++ code ++ ign) s.pc)

/-- `break` hands the environment the state with the pc past the instruction: by default the run stops.
That the end of the run is a next state is the model's choice (log 9), that the pc handed over is the
next word under every `PC_READ_BIAS` is its reading (log 12), and the form of the environment is log 2
(spec/45_system_and_jumps.md R192, spec/60_exceptions.md R205; decision D13). -/
def Obligations.BreakGoesToTheEnvironment : Prop :=
  ∀ ign : BitVec 9, decode (0b1111111#7 ++ ign) = .ok (.brk ign) ∧
    ∀ s : State,
      let handed := { s with pc := s.pc + 1 }
      let left := { handed with env := { s.env with breaks := s.env.breaks.rest } }
      s.env.breaks.Lawful .stop handed [] ∧
      (s.delay = none → s.env.breaks.answer .stop handed [] = .stop →
        exec (.brk ign) s = .next { left with stopped := some .brk }) ∧
      (∀ acts, s.delay = none → s.env.breaks.answer .stop handed [] = .answer (.resume acts) →
        exec (.brk ign) s = .next ({ left with events := s.events ++ [Event.brk] }.applyActs [] acts)) ∧
      (s.delay = none → s.env.breaks.answer .stop handed [] = .answer .fault →
        exec (.brk ign) s = .fault (.brk (s.pc + 1))) ∧
      ∀ d, s.delay = some d → exec (.brk ign) s =
        .fault (.delaySlotControl (0b1111111#7 ++ ign) s.pc)

/-- `reti` hands the environment the state at the instruction: where the environment has a state to
return to, that state is resumed; by default there is none and the run faults
(spec/45_system_and_jumps.md R190, spec/60_exceptions.md R206; decisions D13, D14; the form of the
environment is log 2). -/
def Obligations.RetiGoesToTheEnvironment : Prop :=
  ∀ ign : BitVec 9, decode (0b1111110#7 ++ ign) = .ok (.reti ign) ∧
    ∀ s : State,
      s.env.retis.Lawful .fault s [] ∧
      (∀ acts, s.delay = none → s.env.retis.answer .fault s [] = .resume acts → exec (.reti ign) s =
        .next ({ s with env := { s.env with retis := s.env.retis.rest },
                        events := s.events ++ [Event.reti] }.applyActs [] acts)) ∧
      (s.delay = none → s.env.retis.answer .fault s [] = .fault → exec (.reti ign) s = .fault (.reti s.pc)) ∧
      ∀ d, s.delay = some d → exec (.reti ign) s =
        .fault (.delaySlotControl (0b1111110#7 ++ ign) s.pc)

/-! ### The step -/

/-- When the program address at the pc is present and the word fetched there decodes to `i`, no interrupt
is delivered and the run has not ended, the step is `exec i`, on the state less the environment's
answer about interrupts where it was asked. A loaded word is fetched as it is; a word nothing has
loaded is a free value, and its draw is counted (the model's choice, log 8)
(spec/42_branches.md R141 (a), (b), (e); spec/60_exceptions.md R212; spec/20_memory.md R60). -/
def Obligations.StepRunsTheDecodedInstruction : Prop :=
  ∀ s : State, s.stopped = none → s.noInterrupt → s.env.hasProgram s.pc = true →
    (∀ i, decode s.fetchedWord = .ok i → step s = exec i s.fetchState) ∧
    (s.pmem.holds s.pc = true → s.fetchState.draws = s.draws ∧
      ∀ free, s.pmem.loadWord s.params.imageByteOrder s.pc free = s.fetchedWord) ∧
    (s.pmem.get? (2 * s.pc.toNat) = none → s.pmem.get? (2 * s.pc.toNat + 1) = none →
      s.fetchedWord = Config.freeWord s.draws ∧ s.fetchState.draws = s.draws + 1)

/-- An instruction word placed with `withFetchWord` is what the next step runs: with the fetched word an
assigned one, the step is `exec` of its instruction (spec/42_branches.md R141; the placing is log
8). -/
def Obligations.PlacedWordIsRunNext : Prop :=
  ∀ (s : State) (n w : Nat) (i : Instr), decodeTableWord n w = some i →
    step (s.withFetchWord n w) = exec i (s.withFetchWord n w)

/-- An unassigned word, loaded or drawn, is handed to the environment with the state on entry, the
pending branch included (less the environment's answer about interrupts where it was asked, and with
the draw of a word nothing has loaded counted, log 8): by default the machine faults, and an
environment may resume (spec/30_encoding.md R91, spec/60_exceptions.md R207; decision D18; the form of
the environment is log 2). -/
def Obligations.UnassignedWordsAreIllegal : Prop :=
  ∀ s : State, s.stopped = none → s.noInterrupt → s.env.hasProgram s.pc = true →
    let w := s.fetchedWord
    ((0x5800 ≤ w.toNat ∧ w.toNat ≤ 0x5FFF) ∨ (0xE000 ≤ w.toNat ∧ w.toNat ≤ 0xEFFF)) →
    s.env.illegals.Lawful .fault s.fetchState [w] ∧
    (s.env.illegals.answer .fault s.fetchState [w] = .fault →
      step s = .fault (.illegalInstruction w s.pc)) ∧
    (∀ acts, s.env.illegals.answer .fault s.fetchState [w] = .resume acts → step s =
      .next ({ s.fetchState with env := { s.fetchState.env with illegals := s.env.illegals.rest },
                                 events := s.events ++ [Event.illegal w] }.applyActs [w] acts))

/-- Where the environment answers that an interrupt is to be delivered, it is delivered instead of an
instruction exactly when no branch is pending: the hidden bit is set, and the environment makes the
state to continue from; a pending branch keeps the environment from being asked
(spec/60_exceptions.md R212, spec/42_branches.md R141 (a); decision D14; the order is log 18, the form
of the environment log 2). -/
def Obligations.InterruptsAreDeliveredBetweenInstructions : Prop :=
  ∀ s : State, s.stopped = none →
    s.env.interrupts.Lawful none s [] ∧
    (∀ k, s.delay = none → s.env.interrupts.answer none s [] = some k → step s =
      .next ({ s with intrSinceLoad := true, env := { s.env with interrupts := s.env.interrupts.rest },
                      events := s.events ++ [Event.interrupt k.source] }.applyActs [] k.deliver)) ∧
    ∀ d, s.delay = some d → ∀ t, step s = .next t →
      t.env.interrupts = s.env.interrupts ∧ ∀ k e, t.events ≠ s.events ++ Event.interrupt k :: e

/-- A fetch at an absent program address is refused, before anything else the step would do with the
word (spec/60_exceptions.md R200, R202). -/
def Obligations.AbsentFetchIsRefused : Prop :=
  ∀ s : State, s.stopped = none → s.noInterrupt → s.env.hasProgram s.pc = false →
    step s = .refused (.absentProgram s.pc)

/-- Once the run has ended it stays as it ended, through any number of steps: the model's way of keeping
the final state (spec/60_exceptions.md R208; the stutter is log 9). -/
def Obligations.EndedRunsStayEnded : Prop :=
  ∀ (n : Nat) (s : State), s.stopped ≠ none → Host.Core.run Sys2Proof.core n s = .next s

/-! ### Whole-machine rules -/

/-- What reset leaves, under any parameters and in any environment: the pc at `RESET_PC`, no pending
branch, no memory word that anything has written; `State.reset` is that under the default parameters
in the default environment, with `RESET_PC` 0 (spec/70_reset_and_hazards.md R230; decision D16; the
values of what is unspecified are log 4 and are not stated here). -/
def Obligations.ResetState : Prop :=
  (∀ (p : Params) (e : Env), (State.resetWith p e).pc = p.resetPc ∧ (State.resetWith p e).delay = none ∧
    (State.resetWith p e).stopped = none ∧
    (∀ a, (State.resetWith p e).dmem.holds a = false ∧ (State.resetWith p e).pmem.holds a = false) ∧
    (State.resetWith p e).params = p ∧ (State.resetWith p e).env = e) ∧
  State.reset.pc = 0 ∧ State.reset.params.r0HardwiredZero = false ∧ State.reset.params.pcReadBias = 1 ∧
  State.reset.params.jumpDelaySlots = 0 ∧ State.reset.params.haddcWeight = .two15 ∧
  State.reset.params.lduiKeepsLowByte = false ∧ State.reset.params.subCarryIsBorrow = true ∧
  State.reset.params.stCondFlags = .draw ∧ State.reset.params.ldpClearsIntr = false ∧
  State.reset.env.quiet ∧ State.reset.env.allRam

/-- The memory invariant holds after reset, under any parameters and in any environment, and after the
host has loaded any program and data words (spec/70_reset_and_hazards.md R232; spec/20_memory.md
R51, R58; the form of memory is log 6). -/
def Obligations.MemoryInvariantAtReset : Prop :=
  ∀ (p : Params) (e : Env) (prog data : List (Word × Word)),
    (State.resetWith p e).MemoryInv ∧
      (((State.resetWith p e).loadProgram prog).loadData data).MemoryInv

/-- Every step keeps the memory invariant: both memories stay in canonical form inside the space of 2^16
words and hold whole words only (spec/20_memory.md R51, R58; the form of memory is log 6). -/
def Obligations.StepKeepsMemoryInvariant : Prop :=
  ∀ s t : State, s.MemoryInv → step s = .next t → t.MemoryInv

/-- Equal memories are equal data: two canonical memories that read alike at every byte are the same
list (the form of memory is log 6; spec/20_memory.md R51). -/
def Obligations.CanonicalMemoriesAreEqualData : Prop :=
  ∀ m m' : Memory, m.wf = true → m'.wf = true → (∀ k, m.get? k = m'.get? k) → m = m'

/-- No step changes a parameter or a memory map (spec/00_scope.md R6; log 1). -/
def Obligations.StepKeepsParametersAndMaps : Prop :=
  ∀ s t : State, step s = .next t →
    t.params = s.params ∧ t.env.dataMap = s.env.dataMap ∧ t.env.progAbsent = s.env.progAbsent

/-- Program memory changes only if the environment changes it: where none of the answers it may yet give
changes program memory, no step changes a byte of it, nor brings such an answer in
(spec/20_memory.md R66, marked derived by the spec; the answers are log 2). -/
def Obligations.ProgramMemoryIsConstant : Prop :=
  ∀ s t : State, s.env.keepsProgram → step s = .next t →
    (∀ k, t.pmem.get? k = s.pmem.get? k) ∧ t.env.keepsProgram

/-- A hardwired zero register, where the machine has one, reads as zero in every state, and the other
registers hold what was last written (spec/10_state.md R23; decision D2; log 19). -/
def Obligations.RegistersHoldWhatWasWritten : Prop :=
  ∀ (s : State) (r q : Reg) (v : Word),
    (s.params.r0HardwiredZero = true → s.getReg 0 = 0 ∧ (s.setReg 0 v) = s) ∧
    ((s.params.r0HardwiredZero = false ∨ r ≠ 0) → (s.setReg r v).getReg r = v) ∧
    (q ≠ r → (s.setReg r v).getReg q = s.getReg q)

/-- Flags are written by the two ALU groups and by `st_cond` only: every other instruction, where the
environment makes no change of its own, leaves all four (spec/10_state.md R32; decision D7). -/
def Obligations.OnlyTheListedInstructionsWriteFlags : Prop :=
  ∀ (i : Instr) (s t : State), writesFlags i = false → s.env.quiet → exec i s = .next t →
    t.flags = s.flags

/-- No instruction but the eight branches, `addc`, `subc` and `haddc` reads a flag: run on states that
differ in their flags only, every other instruction ends in the same way and in states that differ in
their flags at most. Whether a control register, or another call of the environment, reads the flags
is the environment's matter, so for the five instructions that ask it the premise is that it looks at
no flag; the two runs are then compared in the same environment, with the same answers to come (log 2)
(spec/10_state.md R36). -/
def Obligations.OnlyTheListedInstructionsReadFlags : Prop :=
  ∀ (i : Instr) (s : State) (f g : Flags), readsFlags i = false →
    (asksEnv i = true → s.env.flagBlind) →
    Result.withFlags g (exec i { s with flags := f }) = Result.withFlags g (exec i s)

/-- In an environment of plain storage that answers as the default instance does, every instruction but `reti`
completes outside the slot of a taken branch, and those that may stand in a slot complete there
(spec/60_exceptions.md R203, decision D13; spec/42_branches.md R141 (d)). That `ld` and `ldp` complete
on a word nothing has written is the model's choice (log 7), and so is that `syscall` and `break` end
the run in a next state (log 9). -/
def Obligations.DefaultEnvironmentCompletes : Prop :=
  ∀ (i : Instr) (s : State), s.env.quiet → s.env.allRam →
    (s.delay = none ∧ (∀ ign, i ≠ .reti ign)) ∨ isControl i = false → ∃ t, exec i s = .next t

/-- Every way an instruction or a step can fail to answer a state is one of the spec's outcomes, and each
of them occurs exactly where the spec has it: a control instruction in a slot; `reti`, `syscall` or
`break` that the environment makes fault; an access to an absent address; a control register the
environment refuses; and for the step besides, an absent fetch address and an unassigned word that the
environment does not resume from (spec/60_exceptions.md R200, R202; that a word nothing has written is
no such outcome is the model's choice, log 7, log 8; the form of the environment is log 2). -/
def Obligations.FaultsAndRefusalsAreTheSpecs : Prop :=
  ∀ s : State,
    (∀ i r, exec i s = .fault r ↔
      (isControl i = true ∧ s.delay ≠ none ∧ r = .delaySlotControl (encode i) s.pc) ∨
      (s.delay = none ∧
        ((∃ ign, i = .reti ign ∧ r = .reti s.pc ∧
            s.env.retis.answer .fault s [] = .fault) ∨
          (∃ code ign, i = .syscall code ign ∧ r = .syscall code (s.pc + 1) ∧
            s.env.syscalls.answer .stop { s with pc := s.pc + 1 } [BitVec.ofNat 16 code.toNat] =
              .answer .fault) ∨
          (∃ ign, i = .brk ign ∧ r = .brk (s.pc + 1) ∧
            s.env.breaks.answer .stop { s with pc := s.pc + 1 } [] = .answer .fault)))) ∧
    (∀ i r, exec i s = .refused r ↔
      (∃ rd address off, i = .ld rd address off ∧ r = .absentData (s.effAddr address off) ∧
        s.env.region (s.effAddr address off) = .absent) ∨
      (∃ address off rs, i = .st address off rs ∧ r = .absentData (s.effAddr address off) ∧
        s.env.region (s.effAddr address off) = .absent) ∨
      (∃ address rs ign, i = .stCond address rs ign ∧ s.intrSinceLoad = false ∧
        r = .absentData (s.getReg address) ∧ s.env.region (s.getReg address) = .absent) ∨
      (∃ rd address ign, i = .ldp rd address ign ∧ r = .absentProgram (s.getReg address) ∧
        s.env.hasProgram (s.getReg address) = false) ∨
      (∃ rd cr ign, i = .ldcr rd cr ign ∧ r = .crRead cr ∧
        s.env.crReads.answer .cell { s with delay := s.nextDelay } [BitVec.ofNat 16 cr.toNat] = .refuse) ∨
      (∃ cr rs ign, i = .stcr cr rs ign ∧ r = .crWrite cr ∧
        s.env.crWrites.answer .cell { s with delay := s.nextDelay }
          [BitVec.ofNat 16 cr.toNat, s.getReg rs] = .refuse)) ∧
    (∀ r, step s = .fault r ↔
      s.stopped = none ∧ s.noInterrupt ∧ s.env.hasProgram s.pc = true ∧
        ((∃ i, decode s.fetchedWord = .ok i ∧ exec i s.fetchState = .fault r) ∨
          ((∃ e, decode s.fetchedWord = .error e) ∧ r = .illegalInstruction s.fetchedWord s.pc ∧
            s.env.illegals.answer .fault s.fetchState [s.fetchedWord] = .fault))) ∧
    (∀ r, step s = .refused r ↔
      s.stopped = none ∧ s.noInterrupt ∧
        ((s.env.hasProgram s.pc = false ∧ r = .absentProgram s.pc) ∨
          (s.env.hasProgram s.pc = true ∧
            ∃ i, decode s.fetchedWord = .ok i ∧ exec i s.fetchState = .refused r)))

/-- The byte order of a word in an image cannot be observed: from states that hold the same words, in
images of either order, a step ends alike and in states that hold the same words
(spec/20_memory.md R53, R55, marked derived by the spec). -/
def Obligations.ByteOrderIsNotObservable : Prop :=
  ∀ s t : State, SameWords s t → Result.SameWords (step s) (step t)
end

