-- ==== Sys2Proof/Laws/State.lean ====
section
/-! SUPPORT. One lemma per field for each update of the state, and register reads through updates, so
that no later proof unfolds an update. -/

namespace Sys2Proof.Machine

/-! ### State.leaveSlot -/

@[simp] theorem State.leaveSlot_x (s : State) : s.leaveSlot.x = s.x := rfl
@[simp] theorem State.leaveSlot_pc (s : State) : s.leaveSlot.pc = s.pc := rfl
@[simp] theorem State.leaveSlot_flags (s : State) : s.leaveSlot.flags = s.flags := rfl
@[simp] theorem State.leaveSlot_cr (s : State) : s.leaveSlot.cr = s.cr := rfl
@[simp] theorem State.leaveSlot_dmem (s : State) : s.leaveSlot.dmem = s.dmem := rfl
@[simp] theorem State.leaveSlot_pmem (s : State) : s.leaveSlot.pmem = s.pmem := rfl
@[simp] theorem State.leaveSlot_intrSinceLoad (s : State) : s.leaveSlot.intrSinceLoad = s.intrSinceLoad := rfl
@[simp] theorem State.leaveSlot_delay (s : State) : s.leaveSlot.delay = s.nextDelay := rfl
@[simp] theorem State.leaveSlot_params (s : State) : s.leaveSlot.params = s.params := rfl
@[simp] theorem State.leaveSlot_env (s : State) : s.leaveSlot.env = s.env := rfl
@[simp] theorem State.leaveSlot_events (s : State) : s.leaveSlot.events = s.events := rfl
@[simp] theorem State.leaveSlot_stopped (s : State) : s.leaveSlot.stopped = s.stopped := rfl
@[simp] theorem State.leaveSlot_draws (s : State) : s.leaveSlot.draws = s.draws := rfl

/-! ### State.finish -/

@[simp] theorem State.finish_x (s b : State) : (s.finish b).x = s.x := rfl
@[simp] theorem State.finish_pc (s b : State) : (s.finish b).pc = b.nextPc := rfl
@[simp] theorem State.finish_flags (s b : State) : (s.finish b).flags = s.flags := rfl
@[simp] theorem State.finish_cr (s b : State) : (s.finish b).cr = s.cr := rfl
@[simp] theorem State.finish_dmem (s b : State) : (s.finish b).dmem = s.dmem := rfl
@[simp] theorem State.finish_pmem (s b : State) : (s.finish b).pmem = s.pmem := rfl
@[simp] theorem State.finish_intrSinceLoad (s b : State) : (s.finish b).intrSinceLoad = s.intrSinceLoad := rfl
@[simp] theorem State.finish_delay (s b : State) : (s.finish b).delay = s.delay := rfl
@[simp] theorem State.finish_params (s b : State) : (s.finish b).params = s.params := rfl
@[simp] theorem State.finish_env (s b : State) : (s.finish b).env = s.env := rfl
@[simp] theorem State.finish_events (s b : State) : (s.finish b).events = s.events := rfl
@[simp] theorem State.finish_stopped (s b : State) : (s.finish b).stopped = s.stopped := rfl
@[simp] theorem State.finish_draws (s b : State) : (s.finish b).draws = s.draws := rfl

/-! ### State.drawn -/

@[simp] theorem State.drawn_x (s : State) (n : Nat) : (s.drawn n).x = s.x := rfl
@[simp] theorem State.drawn_pc (s : State) (n : Nat) : (s.drawn n).pc = s.pc := rfl
@[simp] theorem State.drawn_flags (s : State) (n : Nat) : (s.drawn n).flags = s.flags := rfl
@[simp] theorem State.drawn_cr (s : State) (n : Nat) : (s.drawn n).cr = s.cr := rfl
@[simp] theorem State.drawn_dmem (s : State) (n : Nat) : (s.drawn n).dmem = s.dmem := rfl
@[simp] theorem State.drawn_pmem (s : State) (n : Nat) : (s.drawn n).pmem = s.pmem := rfl
@[simp] theorem State.drawn_intrSinceLoad (s : State) (n : Nat) : (s.drawn n).intrSinceLoad = s.intrSinceLoad := rfl
@[simp] theorem State.drawn_delay (s : State) (n : Nat) : (s.drawn n).delay = s.delay := rfl
@[simp] theorem State.drawn_params (s : State) (n : Nat) : (s.drawn n).params = s.params := rfl
@[simp] theorem State.drawn_env (s : State) (n : Nat) : (s.drawn n).env = s.env := rfl
@[simp] theorem State.drawn_events (s : State) (n : Nat) : (s.drawn n).events = s.events := rfl
@[simp] theorem State.drawn_stopped (s : State) (n : Nat) : (s.drawn n).stopped = s.stopped := rfl
@[simp] theorem State.drawn_draws (s : State) (n : Nat) : (s.drawn n).draws = s.draws + n := rfl

/-! ### State.record -/

@[simp] theorem State.record_x (s : State) (e : Event) : (s.record e).x = s.x := rfl
@[simp] theorem State.record_pc (s : State) (e : Event) : (s.record e).pc = s.pc := rfl
@[simp] theorem State.record_flags (s : State) (e : Event) : (s.record e).flags = s.flags := rfl
@[simp] theorem State.record_cr (s : State) (e : Event) : (s.record e).cr = s.cr := rfl
@[simp] theorem State.record_dmem (s : State) (e : Event) : (s.record e).dmem = s.dmem := rfl
@[simp] theorem State.record_pmem (s : State) (e : Event) : (s.record e).pmem = s.pmem := rfl
@[simp] theorem State.record_intrSinceLoad (s : State) (e : Event) : (s.record e).intrSinceLoad = s.intrSinceLoad := rfl
@[simp] theorem State.record_delay (s : State) (e : Event) : (s.record e).delay = s.delay := rfl
@[simp] theorem State.record_params (s : State) (e : Event) : (s.record e).params = s.params := rfl
@[simp] theorem State.record_env (s : State) (e : Event) : (s.record e).env = s.env := rfl
@[simp] theorem State.record_events (s : State) (e : Event) : (s.record e).events = s.events ++ [e] := rfl
@[simp] theorem State.record_stopped (s : State) (e : Event) : (s.record e).stopped = s.stopped := rfl
@[simp] theorem State.record_draws (s : State) (e : Event) : (s.record e).draws = s.draws := rfl

/-! ### State.setCr -/

@[simp] theorem State.setCr_x (s : State) (n : CrNum) (v : Word) : (s.setCr n v).x = s.x := rfl
@[simp] theorem State.setCr_pc (s : State) (n : CrNum) (v : Word) : (s.setCr n v).pc = s.pc := rfl
@[simp] theorem State.setCr_flags (s : State) (n : CrNum) (v : Word) : (s.setCr n v).flags = s.flags := rfl
@[simp] theorem State.setCr_cr (s : State) (n : CrNum) (v : Word) : (s.setCr n v).cr = setAt s.cr n v := rfl
@[simp] theorem State.setCr_dmem (s : State) (n : CrNum) (v : Word) : (s.setCr n v).dmem = s.dmem := rfl
@[simp] theorem State.setCr_pmem (s : State) (n : CrNum) (v : Word) : (s.setCr n v).pmem = s.pmem := rfl
@[simp] theorem State.setCr_intrSinceLoad (s : State) (n : CrNum) (v : Word) : (s.setCr n v).intrSinceLoad = s.intrSinceLoad := rfl
@[simp] theorem State.setCr_delay (s : State) (n : CrNum) (v : Word) : (s.setCr n v).delay = s.delay := rfl
@[simp] theorem State.setCr_params (s : State) (n : CrNum) (v : Word) : (s.setCr n v).params = s.params := rfl
@[simp] theorem State.setCr_env (s : State) (n : CrNum) (v : Word) : (s.setCr n v).env = s.env := rfl
@[simp] theorem State.setCr_events (s : State) (n : CrNum) (v : Word) : (s.setCr n v).events = s.events := rfl
@[simp] theorem State.setCr_stopped (s : State) (n : CrNum) (v : Word) : (s.setCr n v).stopped = s.stopped := rfl
@[simp] theorem State.setCr_draws (s : State) (n : CrNum) (v : Word) : (s.setCr n v).draws = s.draws := rfl

/-! ### State.setFlags -/

@[simp] theorem State.setFlags_x (s : State) (f : Flags) : (s.setFlags f).x = s.x := rfl
@[simp] theorem State.setFlags_pc (s : State) (f : Flags) : (s.setFlags f).pc = s.pc := rfl
@[simp] theorem State.setFlags_flags (s : State) (f : Flags) : (s.setFlags f).flags = f := rfl
@[simp] theorem State.setFlags_cr (s : State) (f : Flags) : (s.setFlags f).cr = s.cr := rfl
@[simp] theorem State.setFlags_dmem (s : State) (f : Flags) : (s.setFlags f).dmem = s.dmem := rfl
@[simp] theorem State.setFlags_pmem (s : State) (f : Flags) : (s.setFlags f).pmem = s.pmem := rfl
@[simp] theorem State.setFlags_intrSinceLoad (s : State) (f : Flags) : (s.setFlags f).intrSinceLoad = s.intrSinceLoad := rfl
@[simp] theorem State.setFlags_delay (s : State) (f : Flags) : (s.setFlags f).delay = s.delay := rfl
@[simp] theorem State.setFlags_params (s : State) (f : Flags) : (s.setFlags f).params = s.params := rfl
@[simp] theorem State.setFlags_env (s : State) (f : Flags) : (s.setFlags f).env = s.env := rfl
@[simp] theorem State.setFlags_events (s : State) (f : Flags) : (s.setFlags f).events = s.events := rfl
@[simp] theorem State.setFlags_stopped (s : State) (f : Flags) : (s.setFlags f).stopped = s.stopped := rfl
@[simp] theorem State.setFlags_draws (s : State) (f : Flags) : (s.setFlags f).draws = s.draws := rfl

/-! ### State.setHaddFlags -/

@[simp] theorem State.setHaddFlags_x (s : State) (a b : Word) (cin : Bool) : (s.setHaddFlags a b cin).x = s.x := rfl
@[simp] theorem State.setHaddFlags_pc (s : State) (a b : Word) (cin : Bool) : (s.setHaddFlags a b cin).pc = s.pc := rfl
@[simp] theorem State.setHaddFlags_flags (s : State) (a b : Word) (cin : Bool) : (s.setHaddFlags a b cin).flags =
    ⟨haddResult s.params a b cin == 0, decide (haddSum s.params a b cin % 2 = 1), (haddResult s.params a b cin).msb,
      Config.freeBit s.draws⟩ := rfl
@[simp] theorem State.setHaddFlags_cr (s : State) (a b : Word) (cin : Bool) : (s.setHaddFlags a b cin).cr = s.cr := rfl
@[simp] theorem State.setHaddFlags_dmem (s : State) (a b : Word) (cin : Bool) : (s.setHaddFlags a b cin).dmem = s.dmem := rfl
@[simp] theorem State.setHaddFlags_pmem (s : State) (a b : Word) (cin : Bool) : (s.setHaddFlags a b cin).pmem = s.pmem := rfl
@[simp] theorem State.setHaddFlags_intrSinceLoad (s : State) (a b : Word) (cin : Bool) : (s.setHaddFlags a b cin).intrSinceLoad = s.intrSinceLoad := rfl
@[simp] theorem State.setHaddFlags_delay (s : State) (a b : Word) (cin : Bool) : (s.setHaddFlags a b cin).delay = s.delay := rfl
@[simp] theorem State.setHaddFlags_params (s : State) (a b : Word) (cin : Bool) : (s.setHaddFlags a b cin).params = s.params := rfl
@[simp] theorem State.setHaddFlags_env (s : State) (a b : Word) (cin : Bool) : (s.setHaddFlags a b cin).env = s.env := rfl
@[simp] theorem State.setHaddFlags_events (s : State) (a b : Word) (cin : Bool) : (s.setHaddFlags a b cin).events = s.events := rfl
@[simp] theorem State.setHaddFlags_stopped (s : State) (a b : Word) (cin : Bool) : (s.setHaddFlags a b cin).stopped = s.stopped := rfl
@[simp] theorem State.setHaddFlags_draws (s : State) (a b : Word) (cin : Bool) : (s.setHaddFlags a b cin).draws = s.draws + 1 := rfl

/-! ### State.setLogicFlags -/

@[simp] theorem State.setLogicFlags_x (s : State) (res : Word) : (s.setLogicFlags res).x = s.x := rfl
@[simp] theorem State.setLogicFlags_pc (s : State) (res : Word) : (s.setLogicFlags res).pc = s.pc := rfl
@[simp] theorem State.setLogicFlags_flags (s : State) (res : Word) : (s.setLogicFlags res).flags =
    ⟨res == 0, Config.freeBit s.draws, res.msb, Config.freeBit (s.draws + 1)⟩ := rfl
@[simp] theorem State.setLogicFlags_cr (s : State) (res : Word) : (s.setLogicFlags res).cr = s.cr := rfl
@[simp] theorem State.setLogicFlags_dmem (s : State) (res : Word) : (s.setLogicFlags res).dmem = s.dmem := rfl
@[simp] theorem State.setLogicFlags_pmem (s : State) (res : Word) : (s.setLogicFlags res).pmem = s.pmem := rfl
@[simp] theorem State.setLogicFlags_intrSinceLoad (s : State) (res : Word) : (s.setLogicFlags res).intrSinceLoad = s.intrSinceLoad := rfl
@[simp] theorem State.setLogicFlags_delay (s : State) (res : Word) : (s.setLogicFlags res).delay = s.delay := rfl
@[simp] theorem State.setLogicFlags_params (s : State) (res : Word) : (s.setLogicFlags res).params = s.params := rfl
@[simp] theorem State.setLogicFlags_env (s : State) (res : Word) : (s.setLogicFlags res).env = s.env := rfl
@[simp] theorem State.setLogicFlags_events (s : State) (res : Word) : (s.setLogicFlags res).events = s.events := rfl
@[simp] theorem State.setLogicFlags_stopped (s : State) (res : Word) : (s.setLogicFlags res).stopped = s.stopped := rfl
@[simp] theorem State.setLogicFlags_draws (s : State) (res : Word) : (s.setLogicFlags res).draws = s.draws + 2 := rfl

/-! ### State.freeFlags -/

@[simp] theorem State.freeFlags_x (s : State) : s.freeFlags.x = s.x := rfl
@[simp] theorem State.freeFlags_pc (s : State) : s.freeFlags.pc = s.pc := rfl
@[simp] theorem State.freeFlags_flags (s : State) : s.freeFlags.flags = ⟨Config.freeBit s.draws, Config.freeBit (s.draws + 1), Config.freeBit (s.draws + 2),
        Config.freeBit (s.draws + 3)⟩ := rfl
@[simp] theorem State.freeFlags_cr (s : State) : s.freeFlags.cr = s.cr := rfl
@[simp] theorem State.freeFlags_dmem (s : State) : s.freeFlags.dmem = s.dmem := rfl
@[simp] theorem State.freeFlags_pmem (s : State) : s.freeFlags.pmem = s.pmem := rfl
@[simp] theorem State.freeFlags_intrSinceLoad (s : State) : s.freeFlags.intrSinceLoad = s.intrSinceLoad := rfl
@[simp] theorem State.freeFlags_delay (s : State) : s.freeFlags.delay = s.delay := rfl
@[simp] theorem State.freeFlags_params (s : State) : s.freeFlags.params = s.params := rfl
@[simp] theorem State.freeFlags_env (s : State) : s.freeFlags.env = s.env := rfl
@[simp] theorem State.freeFlags_events (s : State) : s.freeFlags.events = s.events := rfl
@[simp] theorem State.freeFlags_stopped (s : State) : s.freeFlags.stopped = s.stopped := rfl
@[simp] theorem State.freeFlags_draws (s : State) : s.freeFlags.draws = s.draws + 4 := rfl

/-! ### State.storeData -/

@[simp] theorem State.storeData_x (s : State) (a v : Word) : (s.storeData a v).x = s.x := rfl
@[simp] theorem State.storeData_pc (s : State) (a v : Word) : (s.storeData a v).pc = s.pc := rfl
@[simp] theorem State.storeData_flags (s : State) (a v : Word) : (s.storeData a v).flags = s.flags := rfl
@[simp] theorem State.storeData_cr (s : State) (a v : Word) : (s.storeData a v).cr = s.cr := rfl
@[simp] theorem State.storeData_dmem (s : State) (a v : Word) : (s.storeData a v).dmem = s.dmem.storeWord s.params.imageByteOrder a v := rfl
@[simp] theorem State.storeData_pmem (s : State) (a v : Word) : (s.storeData a v).pmem = s.pmem := rfl
@[simp] theorem State.storeData_intrSinceLoad (s : State) (a v : Word) : (s.storeData a v).intrSinceLoad = s.intrSinceLoad := rfl
@[simp] theorem State.storeData_delay (s : State) (a v : Word) : (s.storeData a v).delay = s.delay := rfl
@[simp] theorem State.storeData_params (s : State) (a v : Word) : (s.storeData a v).params = s.params := rfl
@[simp] theorem State.storeData_env (s : State) (a v : Word) : (s.storeData a v).env = s.env := rfl
@[simp] theorem State.storeData_events (s : State) (a v : Word) : (s.storeData a v).events = s.events := rfl
@[simp] theorem State.storeData_stopped (s : State) (a v : Word) : (s.storeData a v).stopped = s.stopped := rfl
@[simp] theorem State.storeData_draws (s : State) (a v : Word) : (s.storeData a v).draws = s.draws := rfl

/-! ### State.storeProg -/

@[simp] theorem State.storeProg_x (s : State) (a v : Word) : (s.storeProg a v).x = s.x := rfl
@[simp] theorem State.storeProg_pc (s : State) (a v : Word) : (s.storeProg a v).pc = s.pc := rfl
@[simp] theorem State.storeProg_flags (s : State) (a v : Word) : (s.storeProg a v).flags = s.flags := rfl
@[simp] theorem State.storeProg_cr (s : State) (a v : Word) : (s.storeProg a v).cr = s.cr := rfl
@[simp] theorem State.storeProg_dmem (s : State) (a v : Word) : (s.storeProg a v).dmem = s.dmem := rfl
@[simp] theorem State.storeProg_pmem (s : State) (a v : Word) : (s.storeProg a v).pmem = s.pmem.storeWord s.params.imageByteOrder a v := rfl
@[simp] theorem State.storeProg_intrSinceLoad (s : State) (a v : Word) : (s.storeProg a v).intrSinceLoad = s.intrSinceLoad := rfl
@[simp] theorem State.storeProg_delay (s : State) (a v : Word) : (s.storeProg a v).delay = s.delay := rfl
@[simp] theorem State.storeProg_params (s : State) (a v : Word) : (s.storeProg a v).params = s.params := rfl
@[simp] theorem State.storeProg_env (s : State) (a v : Word) : (s.storeProg a v).env = s.env := rfl
@[simp] theorem State.storeProg_events (s : State) (a v : Word) : (s.storeProg a v).events = s.events := rfl
@[simp] theorem State.storeProg_stopped (s : State) (a v : Word) : (s.storeProg a v).stopped = s.stopped := rfl
@[simp] theorem State.storeProg_draws (s : State) (a v : Word) : (s.storeProg a v).draws = s.draws := rfl

/-! ### State.pastInstr -/

@[simp] theorem State.pastInstr_x (s : State) : s.pastInstr.x = s.x := rfl
@[simp] theorem State.pastInstr_pc (s : State) : s.pastInstr.pc = s.pc + 1 := rfl
@[simp] theorem State.pastInstr_flags (s : State) : s.pastInstr.flags = s.flags := rfl
@[simp] theorem State.pastInstr_cr (s : State) : s.pastInstr.cr = s.cr := rfl
@[simp] theorem State.pastInstr_dmem (s : State) : s.pastInstr.dmem = s.dmem := rfl
@[simp] theorem State.pastInstr_pmem (s : State) : s.pastInstr.pmem = s.pmem := rfl
@[simp] theorem State.pastInstr_intrSinceLoad (s : State) : s.pastInstr.intrSinceLoad = s.intrSinceLoad := rfl
@[simp] theorem State.pastInstr_delay (s : State) : s.pastInstr.delay = s.delay := rfl
@[simp] theorem State.pastInstr_params (s : State) : s.pastInstr.params = s.params := rfl
@[simp] theorem State.pastInstr_env (s : State) : s.pastInstr.env = s.env := rfl
@[simp] theorem State.pastInstr_events (s : State) : s.pastInstr.events = s.events := rfl
@[simp] theorem State.pastInstr_stopped (s : State) : s.pastInstr.stopped = s.stopped := rfl
@[simp] theorem State.pastInstr_draws (s : State) : s.pastInstr.draws = s.draws := rfl

/-! ### State.setReg -/

/-- A register write as one record update. -/
theorem State.setReg_eq (s : State) (r : Reg) (v : Word) :
    s.setReg r v = { s with x := if s.isZeroReg r then s.x else setAt s.x r v } := by
  unfold State.setReg
  split <;> rfl

theorem State.setReg_x (s : State) (r : Reg) (v : Word) :
    (s.setReg r v).x = if s.isZeroReg r then s.x else setAt s.x r v := by
  unfold State.setReg; split <;> rfl
@[simp] theorem State.setReg_pc (s : State) (r : Reg) (v : Word) : (s.setReg r v).pc = s.pc := by
  unfold State.setReg; split <;> rfl
@[simp] theorem State.setReg_flags (s : State) (r : Reg) (v : Word) : (s.setReg r v).flags = s.flags := by
  unfold State.setReg; split <;> rfl
@[simp] theorem State.setReg_cr (s : State) (r : Reg) (v : Word) : (s.setReg r v).cr = s.cr := by
  unfold State.setReg; split <;> rfl
@[simp] theorem State.setReg_dmem (s : State) (r : Reg) (v : Word) : (s.setReg r v).dmem = s.dmem := by
  unfold State.setReg; split <;> rfl
@[simp] theorem State.setReg_pmem (s : State) (r : Reg) (v : Word) : (s.setReg r v).pmem = s.pmem := by
  unfold State.setReg; split <;> rfl
@[simp] theorem State.setReg_intrSinceLoad (s : State) (r : Reg) (v : Word) : (s.setReg r v).intrSinceLoad = s.intrSinceLoad := by
  unfold State.setReg; split <;> rfl
@[simp] theorem State.setReg_delay (s : State) (r : Reg) (v : Word) : (s.setReg r v).delay = s.delay := by
  unfold State.setReg; split <;> rfl
@[simp] theorem State.setReg_params (s : State) (r : Reg) (v : Word) : (s.setReg r v).params = s.params := by
  unfold State.setReg; split <;> rfl
@[simp] theorem State.setReg_env (s : State) (r : Reg) (v : Word) : (s.setReg r v).env = s.env := by
  unfold State.setReg; split <;> rfl
@[simp] theorem State.setReg_events (s : State) (r : Reg) (v : Word) : (s.setReg r v).events = s.events := by
  unfold State.setReg; split <;> rfl
@[simp] theorem State.setReg_stopped (s : State) (r : Reg) (v : Word) : (s.setReg r v).stopped = s.stopped := by
  unfold State.setReg; split <;> rfl
@[simp] theorem State.setReg_draws (s : State) (r : Reg) (v : Word) : (s.setReg r v).draws = s.draws := by
  unfold State.setReg; split <;> rfl

/-! ### Eight words -/

theorem getAt_setAt (xs : Vector Word 8) (i j : BitVec 3) (v : Word) :
    getAt (setAt xs i v) j = if j = i then v else getAt xs j := by
  unfold getAt setAt
  rw [Vector.getElem_set]
  by_cases h : j = i
  · simp [h]
  · have : i.toNat ≠ j.toNat := fun e => h (BitVec.eq_of_toNat_eq e.symm)
    simp [h, this]

/-! ### Register reads -/

/-- What a register reads depends on the register file and the parameters only. -/
theorem State.getReg_congr {s t : State} (hx : t.x = s.x) (hp : t.params = s.params) (r : Reg) :
    t.getReg r = s.getReg r := by
  simp [State.getReg, State.isZeroReg, hx, hp]

/-- Whether a register is hardwired depends on the parameters only. -/
theorem State.isZeroReg_congr {s t : State} (hp : t.params = s.params) (r : Reg) :
    t.isZeroReg r = s.isZeroReg r := by
  simp [State.isZeroReg, hp]

@[simp] theorem State.leaveSlot_getReg (s : State) (r : Reg) : s.leaveSlot.getReg r = s.getReg r := rfl
@[simp] theorem State.leaveSlot_isZeroReg (s : State) (r : Reg) : s.leaveSlot.isZeroReg r = s.isZeroReg r := rfl
@[simp] theorem State.leaveSlot_getCr (s : State) (m : CrNum) : s.leaveSlot.getCr m = s.getCr m := rfl
@[simp] theorem State.finish_getReg (s b : State) (r : Reg) : (s.finish b).getReg r = s.getReg r := rfl
@[simp] theorem State.finish_isZeroReg (s b : State) (r : Reg) : (s.finish b).isZeroReg r = s.isZeroReg r := rfl
@[simp] theorem State.finish_getCr (s b : State) (m : CrNum) : (s.finish b).getCr m = s.getCr m := rfl
@[simp] theorem State.drawn_getReg (s : State) (n : Nat) (r : Reg) : (s.drawn n).getReg r = s.getReg r := rfl
@[simp] theorem State.drawn_isZeroReg (s : State) (n : Nat) (r : Reg) : (s.drawn n).isZeroReg r = s.isZeroReg r := rfl
@[simp] theorem State.drawn_getCr (s : State) (n : Nat) (m : CrNum) : (s.drawn n).getCr m = s.getCr m := rfl
@[simp] theorem State.record_getReg (s : State) (e : Event) (r : Reg) : (s.record e).getReg r = s.getReg r := rfl
@[simp] theorem State.record_isZeroReg (s : State) (e : Event) (r : Reg) : (s.record e).isZeroReg r = s.isZeroReg r := rfl
@[simp] theorem State.record_getCr (s : State) (e : Event) (m : CrNum) : (s.record e).getCr m = s.getCr m := rfl
@[simp] theorem State.setCr_getReg (s : State) (n : CrNum) (v : Word) (r : Reg) : (s.setCr n v).getReg r = s.getReg r := rfl
@[simp] theorem State.setCr_isZeroReg (s : State) (n : CrNum) (v : Word) (r : Reg) : (s.setCr n v).isZeroReg r = s.isZeroReg r := rfl
@[simp] theorem State.setFlags_getReg (s : State) (f : Flags) (r : Reg) : (s.setFlags f).getReg r = s.getReg r := rfl
@[simp] theorem State.setFlags_isZeroReg (s : State) (f : Flags) (r : Reg) : (s.setFlags f).isZeroReg r = s.isZeroReg r := rfl
@[simp] theorem State.setFlags_getCr (s : State) (f : Flags) (m : CrNum) : (s.setFlags f).getCr m = s.getCr m := rfl
@[simp] theorem State.setHaddFlags_getReg (s : State) (a b : Word) (cin : Bool) (r : Reg) : (s.setHaddFlags a b cin).getReg r = s.getReg r := rfl
@[simp] theorem State.setHaddFlags_isZeroReg (s : State) (a b : Word) (cin : Bool) (r : Reg) : (s.setHaddFlags a b cin).isZeroReg r = s.isZeroReg r := rfl
@[simp] theorem State.setHaddFlags_getCr (s : State) (a b : Word) (cin : Bool) (m : CrNum) : (s.setHaddFlags a b cin).getCr m = s.getCr m := rfl
@[simp] theorem State.setLogicFlags_getReg (s : State) (res : Word) (r : Reg) : (s.setLogicFlags res).getReg r = s.getReg r := rfl
@[simp] theorem State.setLogicFlags_isZeroReg (s : State) (res : Word) (r : Reg) : (s.setLogicFlags res).isZeroReg r = s.isZeroReg r := rfl
@[simp] theorem State.setLogicFlags_getCr (s : State) (res : Word) (m : CrNum) : (s.setLogicFlags res).getCr m = s.getCr m := rfl
@[simp] theorem State.freeFlags_getReg (s : State) (r : Reg) : s.freeFlags.getReg r = s.getReg r := rfl
@[simp] theorem State.freeFlags_isZeroReg (s : State) (r : Reg) : s.freeFlags.isZeroReg r = s.isZeroReg r := rfl
@[simp] theorem State.freeFlags_getCr (s : State) (m : CrNum) : s.freeFlags.getCr m = s.getCr m := rfl
@[simp] theorem State.storeData_getReg (s : State) (a v : Word) (r : Reg) : (s.storeData a v).getReg r = s.getReg r := rfl
@[simp] theorem State.storeData_isZeroReg (s : State) (a v : Word) (r : Reg) : (s.storeData a v).isZeroReg r = s.isZeroReg r := rfl
@[simp] theorem State.storeData_getCr (s : State) (a v : Word) (m : CrNum) : (s.storeData a v).getCr m = s.getCr m := rfl
@[simp] theorem State.storeProg_getReg (s : State) (a v : Word) (r : Reg) : (s.storeProg a v).getReg r = s.getReg r := rfl
@[simp] theorem State.storeProg_isZeroReg (s : State) (a v : Word) (r : Reg) : (s.storeProg a v).isZeroReg r = s.isZeroReg r := rfl
@[simp] theorem State.storeProg_getCr (s : State) (a v : Word) (m : CrNum) : (s.storeProg a v).getCr m = s.getCr m := rfl
@[simp] theorem State.pastInstr_getReg (s : State) (r : Reg) : s.pastInstr.getReg r = s.getReg r := rfl
@[simp] theorem State.pastInstr_isZeroReg (s : State) (r : Reg) : s.pastInstr.isZeroReg r = s.isZeroReg r := rfl
@[simp] theorem State.pastInstr_getCr (s : State) (m : CrNum) : s.pastInstr.getCr m = s.getCr m := rfl

@[simp] theorem State.setReg_isZeroReg (s : State) (r q : Reg) (v : Word) :
    (s.setReg r v).isZeroReg q = s.isZeroReg q :=
  State.isZeroReg_congr (by simp) q

@[simp] theorem State.setReg_getCr (s : State) (r : Reg) (v : Word) (m : CrNum) :
    (s.setReg r v).getCr m = s.getCr m := by
  simp [State.getCr]

/-- A register read after a register write (spec/10_state.md R23). -/
theorem State.getReg_setReg (s : State) (r q : Reg) (v : Word) :
    (s.setReg r v).getReg q = if q = r then (if s.isZeroReg r then 0 else v) else s.getReg q := by
  unfold State.getReg
  rw [State.setReg_isZeroReg]
  by_cases hq : q = r
  · subst hq
    cases hz : s.isZeroReg q <;> simp [State.setReg_x, hz, getAt_setAt]
  · cases hz : s.isZeroReg r <;> simp [State.setReg_x, hz, getAt_setAt, hq]

/-- A control-register cell read after a write of one. -/
theorem State.getCr_setCr (s : State) (n m : CrNum) (v : Word) :
    (s.setCr n v).getCr m = if m = n then v else s.getCr m := by
  simp [State.getCr, getAt_setAt]

/-- A hardwired zero register reads as zero. -/
theorem State.getReg_of_isZeroReg {s : State} {r : Reg} (h : s.isZeroReg r = true) : s.getReg r = 0 := by
  simp [State.getReg, h]

/-! ### Where an instruction goes on -/

@[simp] theorem State.nextPc_of_none {s : State} (h : s.delay = none) : s.nextPc = s.pc + 1 := by
  simp [State.nextPc, h]

@[simp] theorem State.nextPc_of_last {s : State} {t : Word} (h : s.delay = some ⟨t, 0⟩) : s.nextPc = t := by
  simp [State.nextPc, h]

@[simp] theorem State.nextPc_of_more {s : State} {t : Word} {n : Nat} (h : s.delay = some ⟨t, n + 1⟩) :
    s.nextPc = s.pc + 1 := by
  simp [State.nextPc, h]

@[simp] theorem State.nextDelay_of_none {s : State} (h : s.delay = none) : s.nextDelay = none := by
  simp [State.nextDelay, h]

@[simp] theorem State.nextDelay_of_last {s : State} {t : Word} (h : s.delay = some ⟨t, 0⟩) :
    s.nextDelay = none := by
  simp [State.nextDelay, h]

@[simp] theorem State.nextDelay_of_more {s : State} {t : Word} {n : Nat} (h : s.delay = some ⟨t, n + 1⟩) :
    s.nextDelay = some ⟨t, n⟩ := by
  simp [State.nextDelay, h]

/-- Outside a slot a guarded instruction runs. -/
theorem State.outsideSlot_of_none {s : State} (h : s.delay = none) (w : Word) (k : Result) :
    s.outsideSlot w k = k := by
  simp [State.outsideSlot, h]

/-- In the slot of a taken branch a guarded instruction faults (spec/42_branches.md R141 (d)). -/
theorem State.outsideSlot_of_some {s : State} {d : Pending} (h : s.delay = some d) (w : Word) (k : Result) :
    s.outsideSlot w k = .fault (.delaySlotControl w s.pc) := by
  simp [State.outsideSlot, h]

/-- A guarded instruction that answers a next state was outside every slot. -/
theorem State.outsideSlot_next {s t : State} {w : Word} {k : Result} (h : s.outsideSlot w k = .next t) :
    s.delay = none ∧ k = .next t := by
  unfold State.outsideSlot at h
  split at h
  · cases h
  · exact ⟨by assumption, h⟩

/-- An access that is followed by a next state was answered. -/
theorem proceed_next {α : Type} {r : Except Refusal α} {k : α → Result} {t : State}
    (h : proceed r k = .next t) : ∃ a, r = .ok a ∧ k a = .next t := by
  unfold proceed at h
  split at h
  · exact ⟨_, rfl, h⟩
  · cases h

@[simp] theorem proceed_ok {α : Type} (a : α) (k : α → Result) : proceed (.ok a) k = k a := rfl

@[simp] theorem proceed_error {α : Type} (e : Refusal) (k : α → Result) : proceed (.error e) k = .refused e := rfl

end Sys2Proof.Machine
end

