-- ==== Sys2Proof/Laws/Memory.lean ====
section
/-! SUPPORT. The laws of memory: reads after writes, and that every memory operation keeps the canonical
form and whole words. -/

namespace Sys2Proof.Machine

/-! ### Bytes -/

/-- A byte read after a byte write. -/
theorem Memory.get?_set (m : Memory) (k q : Nat) (v : Byte) :
    (m.set k v).get? q = if q = k then some v else m.get? q := by
  induction m with
  | nil =>
    by_cases h : k = q
    · simp [Memory.set, Memory.get?, h]
    · simp [Memory.set, Memory.get?, h, Ne.symm h]
  | cons c cs ih =>
    unfold Memory.set
    split
    · by_cases h : k = q
      · simp [Memory.get?, h]
      · simp [Memory.get?, h, Ne.symm h]
    · split
      · by_cases h : k = q
        · simp [Memory.get?, h]
        · have hc : c.1 ≠ q := by omega
          simp [Memory.get?, h, Ne.symm h, hc]
      · by_cases hc : c.1 = q
        · have : q ≠ k := by omega
          simp [Memory.get?, hc, this]
        · simp [Memory.get?, hc, ih]

/-- A byte write keeps a rising list rising. -/
theorem Memory.risingFrom_set {m : Memory} {j k : Nat} {v : Byte} (h : Memory.risingFrom j m = true)
    (hj : j ≤ k) (hk : k < 131072) : Memory.risingFrom j (m.set k v) = true := by
  induction m generalizing j with
  | nil => simp [Memory.set, Memory.risingFrom, hj, hk]
  | cons c cs ih =>
    simp only [Memory.risingFrom, Bool.and_eq_true, decide_eq_true_eq] at h
    obtain ⟨⟨hjc, hc⟩, hcs⟩ := h
    unfold Memory.set
    split
    · simp [Memory.risingFrom, hj, hk, hc, hcs]; omega
    · split
      · subst k; simp [Memory.risingFrom, hj, hk, hcs]
      · simp [Memory.risingFrom, hjc, hc, ih hcs (by omega)]

/-- A byte write inside the space keeps the canonical form. -/
theorem Memory.set_wf {m : Memory} {k : Nat} {v : Byte} (h : m.wf = true) (hk : k < 131072) :
    (m.set k v).wf = true :=
  Memory.risingFrom_set h (Nat.zero_le k) hk

/-- Nothing is listed below the point a list rises from. -/
theorem Memory.get?_eq_none_of_lt {m : Memory} {j q : Nat} (h : Memory.risingFrom j m = true) (hq : q < j) :
    m.get? q = none := by
  induction m generalizing j with
  | nil => rfl
  | cons c cs ih =>
    simp only [Memory.risingFrom, Bool.and_eq_true, decide_eq_true_eq] at h
    have : c.1 ≠ q := by omega
    simp [Memory.get?, this, ih h.2 (by omega)]

/-! ### Words -/

/-- The two byte addresses of a word, whichever order the image has. -/
theorem highKey_lowKey (o : ByteOrder) (a : Word) :
    (highKey o a = 2 * a.toNat ∧ lowKey o a = 2 * a.toNat + 1) ∨
      (highKey o a = 2 * a.toNat + 1 ∧ lowKey o a = 2 * a.toNat) := by
  cases o <;> simp [highKey, lowKey]

theorem highKey_ne_lowKey (o : ByteOrder) (a : Word) : highKey o a ≠ lowKey o a := by
  have := highKey_lowKey o a; omega

/-- A byte read after a word write. -/
theorem Memory.get?_storeWord (o : ByteOrder) (m : Memory) (a v : Word) (q : Nat) :
    (m.storeWord o a v).get? q =
      if q = lowKey o a then some (v.extractLsb' 0 8)
      else if q = highKey o a then some (v.extractLsb' 8 8) else m.get? q := by
  simp [Memory.storeWord, Memory.get?_set]

/-- A byte outside the stored word reads as before. -/
theorem Memory.get?_storeWord_of_ne {o : ByteOrder} {m : Memory} {a v : Word} {q : Nat}
    (h0 : q ≠ 2 * a.toNat) (h1 : q ≠ 2 * a.toNat + 1) : (m.storeWord o a v).get? q = m.get? q := by
  have := highKey_lowKey o a
  rw [Memory.get?_storeWord, if_neg (by omega), if_neg (by omega)]

theorem word_of_bytes (v : Word) : v.extractLsb' 8 8 ++ v.extractLsb' 0 8 = v := by
  ext i hi
  simp only [BitVec.getElem_append, BitVec.getElem_extractLsb']
  split
  · simp [BitVec.getLsbD_eq_getElem hi]
  · rw [show 8 + (i - 8) = i by omega]; simp [BitVec.getLsbD_eq_getElem hi]

/-- A word read after it was written, whatever free value the read is offered. -/
theorem Memory.loadWord_storeWord_same (o : ByteOrder) (m : Memory) (a v free : Word) :
    (m.storeWord o a v).loadWord o a free = v := by
  have h := highKey_ne_lowKey o a
  simp [Memory.loadWord, Memory.get?_storeWord, h, word_of_bytes]

/-- A word read after another word was written. -/
theorem Memory.loadWord_storeWord_other {o : ByteOrder} {m : Memory} {a b v free : Word} (h : b ≠ a) :
    (m.storeWord o a v).loadWord o b free = m.loadWord o b free := by
  have hn : b.toNat ≠ a.toNat := fun e => h (BitVec.eq_of_toNat_eq e)
  have := highKey_lowKey o b
  simp only [Memory.loadWord]
  rw [Memory.get?_storeWord_of_ne (by omega) (by omega), Memory.get?_storeWord_of_ne (by omega) (by omega)]

/-- A written word is held. -/
@[simp] theorem Memory.holds_storeWord_same (o : ByteOrder) (m : Memory) (a v : Word) :
    (m.storeWord o a v).holds a = true := by
  cases o <;> simp [Memory.holds, Memory.get?_storeWord, highKey, lowKey]

/-- A held word does not depend on the free value a read is offered. -/
theorem Memory.loadWord_of_holds {o : ByteOrder} {m : Memory} {a : Word} (h : m.holds a = true)
    (f g : Word) : m.loadWord o a f = m.loadWord o a g := by
  simp only [Memory.holds, Bool.and_eq_true, Option.isSome_iff_exists] at h
  obtain ⟨⟨x, hx⟩, ⟨y, hy⟩⟩ := h
  cases o <;> simp [Memory.loadWord, highKey, lowKey, hx, hy]

/-- A word write keeps the canonical form. -/
theorem Memory.storeWord_wf {o : ByteOrder} {m : Memory} (h : m.wf = true) (a v : Word) :
    (m.storeWord o a v).wf = true := by
  have := highKey_lowKey o a
  have := a.isLt
  exact Memory.set_wf (Memory.set_wf h (by omega)) (by omega)

/-- A word write keeps words whole. -/
theorem Memory.storeWord_whole {o : ByteOrder} {m : Memory} (h : m.whole) (a v : Word) :
    (m.storeWord o a v).whole := by
  intro b
  by_cases hb : b = a
  · subst hb
    cases o <;> simp [Memory.get?_storeWord, highKey, lowKey]
  · have hn : b.toNat ≠ a.toNat := fun e => hb (BitVec.eq_of_toNat_eq e)
    rw [Memory.get?_storeWord_of_ne (by omega) (by omega), Memory.get?_storeWord_of_ne (by omega) (by omega)]
    exact h b

@[simp] theorem Memory.wf_nil : Memory.wf [] = true := rfl

@[simp] theorem Memory.whole_nil : Memory.whole [] := fun _ => rfl

/-! ### Reads and writes of the state -/

/-- A read of a held word answers it and changes nothing. -/
theorem State.readMem_of_holds {s : State} {m : Memory} {a : Word} (h : m.holds a = true) (f : Word) :
    s.readMem m a = (m.loadWord s.params.imageByteOrder a f, s) := by
  simp only [State.readMem, h, if_true]
  rw [Memory.loadWord_of_holds h _ f]

/-- What a memory read can do to the state: nothing, or one draw. -/
theorem State.readMem_snd (s : State) (m : Memory) (a : Word) :
    (s.readMem m a).2 = s ∨ (s.readMem m a).2 = s.drawn 1 := by
  unfold State.readMem
  split
  · exact .inl rfl
  · exact .inr rfl

/-- Everything a data read can do (spec/20_memory.md R59). -/
theorem State.readData_cases (s : State) (a : Word) :
    (s.env.region a = .ram ∧ s.readData a = .ok (s.readMem s.dmem a)) ∨
      (s.env.region a = .device ∧
        s.readData a = .ok (Config.freeWord s.draws,
          (s.drawn 1).record (.deviceRead a (Config.freeWord s.draws)))) ∨
      (s.env.region a = .absent ∧ s.readData a = .error (.absentData a)) := by
  unfold State.readData
  cases h : s.env.region a <;> simp

/-- Everything a data write can do (spec/20_memory.md R59). -/
theorem State.writeDataIf_cases (s : State) (doIt : Bool) (a v : Word) :
    (doIt = false ∧ s.writeDataIf doIt a v = .ok s) ∨
      (doIt = true ∧ s.env.region a = .ram ∧ s.writeDataIf doIt a v = .ok (s.storeData a v)) ∨
      (doIt = true ∧ s.env.region a = .device ∧
        s.writeDataIf doIt a v = .ok (s.record (.deviceWrite a v))) ∨
      (doIt = true ∧ s.env.region a = .absent ∧ s.writeDataIf doIt a v = .error (.absentData a)) := by
  unfold State.writeDataIf
  cases h : s.env.region a <;> cases doIt <;> simp

end Sys2Proof.Machine
end

