-- ==== Sys2Proof/Laws/Env.lean ====
section
/-! SUPPORT. What the environment's answers are and what they depend on, said once: the answer by the form
of the answers, where it comes from, that words and changes look at nothing but what the spec calls
state, and that an environment that looks at no flag answers alike whatever the flags are. -/

namespace Sys2Proof.Machine

/-! ### The flags in a word -/

@[simp] theorem Flags.ofWord_toWord (f : Flags) : Flags.ofWord f.toWord = f := by
  cases f with
  | mk z c n v => cases z <;> cases c <;> cases n <;> cases v <;> decide

/-! ### Answers -/

@[simp] theorem Answers.default_answer {α : Type} (d : α) (s : State) (args : List Word) :
    (Answers.default : Answers α).answer d s args = d := rfl

@[simp] theorem Answers.default_rest {α : Type} : (Answers.default : Answers α).rest = .default := rfl

@[simp] theorem Answers.default_all {α : Type} : (Answers.default : Answers α).all = [] := rfl

@[simp] theorem Answers.default_tests {α : Type} : (Answers.default : Answers α).plan.tests = [] := rfl

@[simp] theorem Answers.always_answer {α : Type} (a d : α) (s : State) (args : List Word) :
    (Answers.always a).answer d s args = a := rfl

@[simp] theorem Answers.always_rest {α : Type} (a : α) : (Answers.always a).rest = .always a := rfl

@[simp] theorem Answers.coming_answer {α : Type} (a d : α) (as : List α) (p : Plan α) (s : State)
    (args : List Word) : (Answers.mk (a :: as) p).answer d s args = a := rfl

@[simp] theorem Answers.coming_rest {α : Type} (a : α) (as : List α) (p : Plan α) :
    (Answers.mk (a :: as) p).rest = ⟨as, p⟩ := rfl

@[simp] theorem Answers.plan_answer {α : Type} (d : α) (p : Plan α) (s : State) (args : List Word) :
    (Answers.mk [] p).answer d s args = p.choose d s args := rfl

@[simp] theorem Answers.plan_rest {α : Type} (p : Plan α) : (Answers.mk [] p).rest = ⟨[], p⟩ := rfl

/-- Whatever the form of the answers, they are what the form says. -/
theorem Answers.lawful {α : Type} (q : Answers α) (d : α) (s : State) (args : List Word) :
    q.Lawful d s args := by
  refine ⟨?_, ?_, ?_, ?_⟩
  · rintro rfl; exact ⟨rfl, rfl⟩
  · intro a as h
    obtain ⟨c, p⟩ := q
    cases h; exact ⟨rfl, rfl⟩
  · rintro a rfl; exact ⟨rfl, rfl⟩
  · rintro x y p p' rfl
    refine ⟨rfl, ?_⟩
    simp only [Answers.plan_answer, Plan.choose]
    split <;> rfl

/-- A plan answers as the default instance or with one of its answers. -/
theorem Plan.choose_mem {α : Type} (d : α) (s : State) (args : List Word) (p : Plan α) :
    p.choose d s args = d ∨ p.choose d s args ∈ p.answers := by
  induction p with
  | default => exact .inl rfl
  | give a => exact .inr (List.mem_singleton.2 rfl)
  | ifEq x y p q ihp ihq =>
    simp only [Plan.choose, Plan.answers, List.mem_append]
    split
    · exact ihp.imp_right .inl
    · exact ihq.imp_right .inr

/-- The environment answers as the default instance or with one of the answers it may give. -/
theorem Answers.answer_mem {α : Type} (q : Answers α) (d : α) (s : State) (args : List Word) :
    q.answer d s args = d ∨ q.answer d s args ∈ q.all := by
  obtain ⟨c, p⟩ := q
  cases c with
  | nil => exact (Plan.choose_mem d s args p).imp_right fun h => List.mem_append_right _ h
  | cons a as => exact .inr List.mem_cons_self

/-- The answers that may still be given are among those that could be. -/
theorem Answers.mem_all_of_rest {α : Type} {q : Answers α} {a : α} (h : a ∈ q.rest.all) : a ∈ q.all :=
  List.mem_append.2 ((List.mem_append.1 h).imp_left List.mem_of_mem_tail)

/-- What an answer makes is among what the answers may make. -/
theorem Answers.mem_of_answer {α β : Type} {f : α → List β} {d : α} (hd : f d = []) {q : Answers α}
    {s : State} {args : List Word} {x : β} (h : x ∈ f (q.answer d s args)) : x ∈ q.all.flatMap f := by
  rcases q.answer_mem d s args with e | e
  · rw [e, hd] at h; cases h
  · exact List.mem_flatMap.2 ⟨_, e, h⟩

/-- What the answers left may make is among what the answers may make. -/
theorem Answers.mem_of_rest {α β : Type} {f : α → List β} {q : Answers α} {x : β}
    (h : x ∈ q.rest.all.flatMap f) : x ∈ q.all.flatMap f := by
  obtain ⟨a, ha, hx⟩ := List.mem_flatMap.1 h
  exact List.mem_flatMap.2 ⟨a, mem_all_of_rest ha, hx⟩

/-- A change by its member of the environment. -/
theorem Env.mem_changes {e : Env} {x : EnvAct} : x ∈ e.changes ↔
    x ∈ e.crReads.all.flatMap CrReadReply.changes ∨ x ∈ e.crWrites.all.flatMap CrWriteReply.changes ∨
      x ∈ e.syscalls.all.flatMap Reply.changes ∨ x ∈ e.breaks.all.flatMap Reply.changes ∨
      x ∈ e.retis.all.flatMap Answer.changes ∨ x ∈ e.illegals.all.flatMap Answer.changes ∨
      x ∈ e.interrupts.all.flatMap interruptChanges := by
  simp only [Env.changes, List.mem_append]

/-- A quiet environment makes no change of its own. -/
theorem Env.changes_of_quiet {e : Env} (h : e.quiet) : e.changes = [] := by
  obtain ⟨h1, h2, h3, h4, h5, h6, h7⟩ := h
  simp [Env.changes, h1, h2, h3, h4, h5, h6, h7]

theorem Env.keepsProgram_of_quiet {e : Env} (h : e.quiet) : e.keepsProgram := by
  intro a v m
  rw [Env.changes_of_quiet h] at m
  cases m

/-- A quiet environment looks at nothing. -/
theorem Env.flagBlind_of_quiet {e : Env} (h : e.quiet) : e.flagBlind := by
  intro v m
  unfold Env.words at m
  rw [Env.changes_of_quiet h] at m
  obtain ⟨h1, h2, h3, h4, h5, h6, h7⟩ := h
  simp [h1, h2, h3, h4, h5, h6, h7] at m

/-! ### What the environment's words depend on -/

/-- Two states that the environment cannot tell apart by a word of its own. -/
structure LooksLike (s t : State) : Prop where
  pc : t.pc = s.pc
  reg : ∀ r, t.getReg r = s.getReg r
  cr : ∀ n, t.getCr n = s.getCr n
  intr : t.intrSinceLoad = s.intrSinceLoad
  delay : t.delay = s.delay
  data : ∀ a free, t.dmem.loadWord t.params.imageByteOrder a free =
    s.dmem.loadWord s.params.imageByteOrder a free
  prog : ∀ a free, t.pmem.loadWord t.params.imageByteOrder a free =
    s.pmem.loadWord s.params.imageByteOrder a free

/-- A word of the environment's is the same in two states that look alike, in their flags too if it
reads those. -/
theorem EnvVal.eval_congr {s t : State} (h : LooksLike s t) (args : List Word) (v : EnvVal)
    (hf : v.readsFlags = true → t.flags = s.flags) : v.eval t args = v.eval s args := by
  induction v with
  | const w => rfl
  | arg i => rfl
  | pc => exact h.pc
  | reg r => exact h.reg r
  | cr n => exact h.cr n
  | flags => simp only [EnvVal.eval, hf rfl]
  | intr => simp only [EnvVal.eval, h.intr]
  | slots => simp only [EnvVal.eval, State.slots, h.delay]
  | branchTarget => simp only [EnvVal.eval, State.branchTarget, h.delay]
  | data a u iha ihu =>
    simp only [EnvVal.readsFlags, Bool.or_eq_true] at hf
    rw [EnvVal.eval, iha fun k => hf (.inl k), ihu fun k => hf (.inr k), h.data, EnvVal.eval]
  | prog a u iha ihu =>
    simp only [EnvVal.readsFlags, Bool.or_eq_true] at hf
    rw [EnvVal.eval, iha fun k => hf (.inl k), ihu fun k => hf (.inr k), h.prog, EnvVal.eval]
  | op o x y ihx ihy =>
    simp only [EnvVal.readsFlags, Bool.or_eq_true] at hf
    rw [EnvVal.eval, ihx fun k => hf (.inl k), ihy fun k => hf (.inr k), EnvVal.eval]
  | ifEq x y p q ihx ihy ihp ihq =>
    simp only [EnvVal.readsFlags, Bool.or_eq_true] at hf
    rw [EnvVal.eval, ihx fun k => hf (.inl (.inl k)), ihy fun k => hf (.inl (.inr k)),
      ihp fun k => hf (.inr (.inl k)), ihq fun k => hf (.inr (.inr k)), EnvVal.eval]

/-- An answer is the same in two states that look alike to every word it tests. -/
theorem Plan.choose_congr {α : Type} {s t : State} {args : List Word} (d : α) (p : Plan α)
    (h : ∀ v ∈ p.tests, v.eval t args = v.eval s args) : p.choose d t args = p.choose d s args := by
  induction p with
  | default => rfl
  | give a => rfl
  | ifEq x y p q ihp ihq =>
    simp only [Plan.tests, List.mem_cons, List.mem_append] at h
    rw [Plan.choose, h x (.inl rfl), h y (.inr (.inl rfl)), ihp fun v m => h v (.inr (.inr (.inl m))),
      ihq fun v m => h v (.inr (.inr (.inr m))), Plan.choose]

theorem Answers.answer_congr {α : Type} {s t : State} {args : List Word} (d : α) (q : Answers α)
    (h : ∀ v ∈ q.plan.tests, v.eval t args = v.eval s args) : q.answer d t args = q.answer d s args := by
  obtain ⟨c, p⟩ := q
  cases c with
  | nil => exact Plan.choose_congr d p h
  | cons a as => rfl

/-- Flags are all that `LooksLike` leaves out: states that differ in them look alike. -/
theorem looksLike_flags (s : State) (f : Flags) : LooksLike s { s with flags := f } :=
  ⟨rfl, fun _ => rfl, fun _ => rfl, rfl, rfl, fun _ _ => rfl, fun _ _ => rfl⟩

/-- States that hold the same words in images of either byte order look alike. -/
theorem SameWords.looksLike {s t : State} (h : SameWords s t) : LooksLike s t := by
  obtain ⟨⟨o, d, p, rfl⟩, hd, hp⟩ := h
  exact ⟨rfl, fun _ => rfl, fun _ => rfl, rfl, rfl, hd, hp⟩

theorem SameWords.flags {s t : State} (h : SameWords s t) : t.flags = s.flags := by
  obtain ⟨⟨o, d, p, rfl⟩, -, -⟩ := h
  rfl

/-! ### What the environment's changes depend on -/

/-- A change is the same when the words it computes are. -/
theorem State.act_congr {s s' : State} {args : List Word} {a : EnvAct}
    (h : ∀ v ∈ a.words, v.eval s' args = v.eval s args) (t : State) : s'.act args t a = s.act args t a := by
  cases a <;> simp only [EnvAct.words, List.mem_cons, List.not_mem_nil, or_false, forall_eq_or_imp,
    forall_eq] at h <;> simp only [State.act, h]

/-- The changes of one answer are the same when the words they compute are. -/
theorem foldl_act_congr {s s' : State} {args : List Word} {as : List EnvAct}
    (h : ∀ a ∈ as, ∀ v ∈ a.words, v.eval s' args = v.eval s args) (t : State) :
    as.foldl (s'.act args) t = as.foldl (s.act args) t := by
  induction as generalizing t with
  | nil => rfl
  | cons a as ih =>
    rw [List.foldl_cons, List.foldl_cons, State.act_congr (h a List.mem_cons_self),
      ih fun b m => h b (List.mem_cons_of_mem _ m)]

/-- `t` is `s` but for its flags. -/
def SameButFlags (s t : State) : Prop := ∃ f, t = { s with flags := f }

theorem SameButFlags.act {t u : State} (h : SameButFlags t u) (s : State) (args : List Word) (a : EnvAct) :
    SameButFlags (s.act args t a) (s.act args u a) := by
  obtain ⟨f, rfl⟩ := h
  cases a with
  | setReg r v =>
    refine ⟨f, ?_⟩
    rw [State.act, State.setReg_eq, State.act, State.setReg_eq]
    rfl
  | setFlags v => exact ⟨_, rfl⟩
  | setPc v => exact ⟨f, rfl⟩
  | setCr n v => exact ⟨f, rfl⟩
  | setData a v => exact ⟨f, rfl⟩
  | setProg a v => exact ⟨f, rfl⟩
  | setIntr v => exact ⟨f, rfl⟩
  | setDelay v n => exact ⟨f, rfl⟩
  | clearDelay => exact ⟨f, rfl⟩

/-- Changes that look at no flag, made to states that differ in their flags only, leave states that
differ in their flags only. -/
theorem SameButFlags.applyActs {s t : State} (h : SameButFlags s t) {args : List Word} {as : List EnvAct}
    (hb : ∀ a ∈ as, ∀ v ∈ a.words, v.readsFlags = false) :
    SameButFlags (s.applyActs args as) (t.applyActs args as) := by
  have same : ∀ a ∈ as, ∀ v ∈ a.words, v.eval t args = v.eval s args := fun a m v hv => by
    obtain ⟨f, rfl⟩ := h
    exact EnvVal.eval_congr (looksLike_flags s f) args v (by rw [hb a m v hv]; exact nofun)
  unfold State.applyActs
  rw [foldl_act_congr same]
  clear hb same
  suffices ∀ t u, SameButFlags t u → SameButFlags (as.foldl (s.act args) t) (as.foldl (s.act args) u) from
    this s t h
  induction as with
  | nil => exact fun _ _ h => h
  | cons a as ih => exact fun t u h => ih _ _ (h.act s args a)

/-- The same word stored in images of either byte order leaves the same words. -/
theorem loadWord_storeWord_congr {o o' : ByteOrder} {m m' : Memory}
    (h : ∀ a free, m'.loadWord o' a free = m.loadWord o a free) (b v a free : Word) :
    (m'.storeWord o' b v).loadWord o' a free = (m.storeWord o b v).loadWord o a free := by
  by_cases e : a = b
  · rw [e, Memory.loadWord_storeWord_same, Memory.loadWord_storeWord_same]
  · rw [Memory.loadWord_storeWord_other e, Memory.loadWord_storeWord_other e, h]

theorem SameWords.act {t u : State} (h : SameWords t u) (s : State) (args : List Word) (a : EnvAct) :
    SameWords (s.act args t a) (s.act args u a) := by
  obtain ⟨⟨o, d, p, rfl⟩, hd, hp⟩ := h
  cases a with
  | setReg r v =>
    refine ⟨⟨o, d, p, ?_⟩, ?_, ?_⟩
    · rw [State.act, State.setReg_eq, State.act, State.setReg_eq]
      rfl
    · simpa [State.act] using hd
    · simpa [State.act] using hp
  | setData a v => exact ⟨⟨o, _, _, rfl⟩, loadWord_storeWord_congr hd _ _, hp⟩
  | setProg a v => exact ⟨⟨o, _, _, rfl⟩, hd, loadWord_storeWord_congr hp _ _⟩
  | setPc v => exact ⟨⟨o, d, p, rfl⟩, hd, hp⟩
  | setFlags v => exact ⟨⟨o, d, p, rfl⟩, hd, hp⟩
  | setCr n v => exact ⟨⟨o, d, p, rfl⟩, hd, hp⟩
  | setIntr v => exact ⟨⟨o, d, p, rfl⟩, hd, hp⟩
  | setDelay v n => exact ⟨⟨o, d, p, rfl⟩, hd, hp⟩
  | clearDelay => exact ⟨⟨o, d, p, rfl⟩, hd, hp⟩

/-- The environment's changes to states that hold the same words leave states that hold the same words. -/
theorem SameWords.applyActs {s t : State} (h : SameWords s t) (args : List Word) (as : List EnvAct) :
    SameWords (s.applyActs args as) (t.applyActs args as) := by
  have same : ∀ a ∈ as, ∀ v ∈ a.words, v.eval t args = v.eval s args := fun a _ v _ =>
    EnvVal.eval_congr h.looksLike args v fun _ => h.flags
  unfold State.applyActs
  rw [foldl_act_congr same]
  clear same
  suffices ∀ t u, SameWords t u → SameWords (as.foldl (s.act args) t) (as.foldl (s.act args) u) from
    this s t h
  induction as with
  | nil => exact fun _ _ h => h
  | cons a as ih => exact fun t u h => ih _ _ (h.act s args a)

end Sys2Proof.Machine
end

