-- ==== Sys2Proof/Laws/Slices.lean ====
section
/-! SUPPORT. Fields of a word put together from fields: for each place a format joins two fields
(spec/30_encoding.md R72 to R81), a slice above the joint and a slice below it. -/

namespace Sys2Proof

/-- Joined fields as a number. -/
theorem append_toNat {v w : Nat} (x : BitVec v) (y : BitVec w) :
    (x ++ y).toNat = x.toNat * 2 ^ w + y.toNat := by
  rw [BitVec.toNat_append, ← Nat.shiftLeft_add_eq_or_of_lt y.isLt, Nat.shiftLeft_eq]

/-- A slice as a number. -/
theorem slice_toNat {n : Nat} (x : BitVec n) (start len : Nat) :
    (x.extractLsb' start len).toNat = x.toNat / 2 ^ start % 2 ^ len := by
  rw [BitVec.extractLsb'_toNat, Nat.shiftRight_eq_div_pow]

/-- A word is its fields of format I (spec/30_encoding.md R72). -/
theorem join_immediate (w : Word) :
    w.extractLsb' 14 2 ++ w.extractLsb' 11 3 ++ w.extractLsb' 3 8 ++ w.extractLsb' 0 3 = w := by
  apply BitVec.eq_of_toNat_eq
  have := w.isLt
  rw [append_toNat, append_toNat, append_toNat, slice_toNat, slice_toNat, slice_toNat, slice_toNat]
  omega

/-- A word is its fields of format R (spec/30_encoding.md R73). -/
theorem join_registers (w : Word) :
    w.extractLsb' 13 3 ++ w.extractLsb' 9 4 ++ w.extractLsb' 6 3 ++ w.extractLsb' 3 3 ++ w.extractLsb' 0 3 = w := by
  apply BitVec.eq_of_toNat_eq
  have := w.isLt
  rw [append_toNat, append_toNat, append_toNat, append_toNat, slice_toNat, slice_toNat, slice_toNat, slice_toNat, slice_toNat]
  omega

/-- A word is its fields of format B (spec/30_encoding.md R75). -/
theorem join_branch (w : Word) :
    w.extractLsb' 13 3 ++ w.extractLsb' 10 3 ++ w.extractLsb' 3 7 ++ w.extractLsb' 0 3 = w := by
  apply BitVec.eq_of_toNat_eq
  have := w.isLt
  rw [append_toNat, append_toNat, append_toNat, slice_toNat, slice_toNat, slice_toNat, slice_toNat]
  omega

/-- A word is its fields of format M (spec/30_encoding.md R76). -/
theorem join_loadStore (w : Word) :
    w.extractLsb' 14 2 ++ w.extractLsb' 13 1 ++ w.extractLsb' 10 3 ++ w.extractLsb' 3 7 ++ w.extractLsb' 0 3 = w := by
  apply BitVec.eq_of_toNat_eq
  have := w.isLt
  rw [append_toNat, append_toNat, append_toNat, append_toNat, slice_toNat, slice_toNat, slice_toNat, slice_toNat, slice_toNat]
  omega

/-- A word is its fields of format C (spec/30_encoding.md R77). -/
theorem join_controlRegister (w : Word) :
    w.extractLsb' 13 3 ++ w.extractLsb' 12 1 ++ w.extractLsb' 9 3 ++ w.extractLsb' 3 6 ++ w.extractLsb' 0 3 = w := by
  apply BitVec.eq_of_toNat_eq
  have := w.isLt
  rw [append_toNat, append_toNat, append_toNat, append_toNat, slice_toNat, slice_toNat, slice_toNat, slice_toNat, slice_toNat]
  omega

/-- A word is its fields of format S0 (spec/30_encoding.md R78). -/
theorem join_syscall (w : Word) :
    w.extractLsb' 12 4 ++ w.extractLsb' 9 3 ++ w.extractLsb' 3 6 ++ w.extractLsb' 0 3 = w := by
  apply BitVec.eq_of_toNat_eq
  have := w.isLt
  rw [append_toNat, append_toNat, append_toNat, slice_toNat, slice_toNat, slice_toNat, slice_toNat]
  omega

/-- A word is its fields of format S1 (spec/30_encoding.md R79). -/
theorem join_address (w : Word) :
    w.extractLsb' 12 4 ++ w.extractLsb' 9 3 ++ w.extractLsb' 6 3 ++ w.extractLsb' 3 3 ++ w.extractLsb' 0 3 = w := by
  apply BitVec.eq_of_toNat_eq
  have := w.isLt
  rw [append_toNat, append_toNat, append_toNat, append_toNat, slice_toNat, slice_toNat, slice_toNat, slice_toNat, slice_toNat]
  omega

/-- A word is its fields of format S2 (spec/30_encoding.md R80). -/
theorem join_jump (w : Word) :
    w.extractLsb' 12 4 ++ w.extractLsb' 10 2 ++ w.extractLsb' 3 7 ++ w.extractLsb' 0 3 = w := by
  apply BitVec.eq_of_toNat_eq
  have := w.isLt
  rw [append_toNat, append_toNat, append_toNat, slice_toNat, slice_toNat, slice_toNat, slice_toNat]
  omega

/-- A word is its fields of format S3 (spec/30_encoding.md R81). -/
theorem join_noOperand (w : Word) :
    w.extractLsb' 12 4 ++ w.extractLsb' 9 3 ++ w.extractLsb' 0 9 = w := by
  apply BitVec.eq_of_toNat_eq
  have := w.isLt
  rw [append_toNat, append_toNat, slice_toNat, slice_toNat, slice_toNat]
  omega

/-- A slice above the joint of 13 and 3 bits. -/
@[simp] theorem slice_13_3_above (x : BitVec 13) (y : BitVec 3) (start len : Nat) (h : 3 ≤ start) :
    BitVec.extractLsb' (n := 16) start len (x ++ y) = x.extractLsb' (start - 3) len :=
  BitVec.extractLsb'_append_eq_of_le h

/-- A slice below the joint of 13 and 3 bits. -/
@[simp] theorem slice_13_3_below (x : BitVec 13) (y : BitVec 3) (start len : Nat) (h : start + len ≤ 3) :
    BitVec.extractLsb' (n := 16) start len (x ++ y) = y.extractLsb' start len :=
  BitVec.extractLsb'_append_eq_of_add_le h

/-- A slice above the joint of 10 and 3 bits. -/
@[simp] theorem slice_10_3_above (x : BitVec 10) (y : BitVec 3) (start len : Nat) (h : 3 ≤ start) :
    BitVec.extractLsb' (n := 13) start len (x ++ y) = x.extractLsb' (start - 3) len :=
  BitVec.extractLsb'_append_eq_of_le h

/-- A slice below the joint of 10 and 3 bits. -/
@[simp] theorem slice_10_3_below (x : BitVec 10) (y : BitVec 3) (start len : Nat) (h : start + len ≤ 3) :
    BitVec.extractLsb' (n := 13) start len (x ++ y) = y.extractLsb' start len :=
  BitVec.extractLsb'_append_eq_of_add_le h

/-- A slice above the joint of 7 and 3 bits. -/
@[simp] theorem slice_7_3_above (x : BitVec 7) (y : BitVec 3) (start len : Nat) (h : 3 ≤ start) :
    BitVec.extractLsb' (n := 10) start len (x ++ y) = x.extractLsb' (start - 3) len :=
  BitVec.extractLsb'_append_eq_of_le h

/-- A slice below the joint of 7 and 3 bits. -/
@[simp] theorem slice_7_3_below (x : BitVec 7) (y : BitVec 3) (start len : Nat) (h : start + len ≤ 3) :
    BitVec.extractLsb' (n := 10) start len (x ++ y) = y.extractLsb' start len :=
  BitVec.extractLsb'_append_eq_of_add_le h

/-- A slice above the joint of 4 and 3 bits. -/
@[simp] theorem slice_4_3_above (x : BitVec 4) (y : BitVec 3) (start len : Nat) (h : 3 ≤ start) :
    BitVec.extractLsb' (n := 7) start len (x ++ y) = x.extractLsb' (start - 3) len :=
  BitVec.extractLsb'_append_eq_of_le h

/-- A slice below the joint of 4 and 3 bits. -/
@[simp] theorem slice_4_3_below (x : BitVec 4) (y : BitVec 3) (start len : Nat) (h : start + len ≤ 3) :
    BitVec.extractLsb' (n := 7) start len (x ++ y) = y.extractLsb' start len :=
  BitVec.extractLsb'_append_eq_of_add_le h

/-- A slice above the joint of 3 and 3 bits. -/
@[simp] theorem slice_3_3_above (x : BitVec 3) (y : BitVec 3) (start len : Nat) (h : 3 ≤ start) :
    BitVec.extractLsb' (n := 6) start len (x ++ y) = x.extractLsb' (start - 3) len :=
  BitVec.extractLsb'_append_eq_of_le h

/-- A slice below the joint of 3 and 3 bits. -/
@[simp] theorem slice_3_3_below (x : BitVec 3) (y : BitVec 3) (start len : Nat) (h : start + len ≤ 3) :
    BitVec.extractLsb' (n := 6) start len (x ++ y) = y.extractLsb' start len :=
  BitVec.extractLsb'_append_eq_of_add_le h

/-- A slice above the joint of 6 and 7 bits. -/
@[simp] theorem slice_6_7_above (x : BitVec 6) (y : BitVec 7) (start len : Nat) (h : 7 ≤ start) :
    BitVec.extractLsb' (n := 13) start len (x ++ y) = x.extractLsb' (start - 7) len :=
  BitVec.extractLsb'_append_eq_of_le h

/-- A slice below the joint of 6 and 7 bits. -/
@[simp] theorem slice_6_7_below (x : BitVec 6) (y : BitVec 7) (start len : Nat) (h : start + len ≤ 7) :
    BitVec.extractLsb' (n := 13) start len (x ++ y) = y.extractLsb' start len :=
  BitVec.extractLsb'_append_eq_of_add_le h

/-- A slice above the joint of 5 and 8 bits. -/
@[simp] theorem slice_5_8_above (x : BitVec 5) (y : BitVec 8) (start len : Nat) (h : 8 ≤ start) :
    BitVec.extractLsb' (n := 13) start len (x ++ y) = x.extractLsb' (start - 8) len :=
  BitVec.extractLsb'_append_eq_of_le h

/-- A slice below the joint of 5 and 8 bits. -/
@[simp] theorem slice_5_8_below (x : BitVec 5) (y : BitVec 8) (start len : Nat) (h : start + len ≤ 8) :
    BitVec.extractLsb' (n := 13) start len (x ++ y) = y.extractLsb' start len :=
  BitVec.extractLsb'_append_eq_of_add_le h

/-- A slice above the joint of 7 and 6 bits. -/
@[simp] theorem slice_7_6_above (x : BitVec 7) (y : BitVec 6) (start len : Nat) (h : 6 ≤ start) :
    BitVec.extractLsb' (n := 13) start len (x ++ y) = x.extractLsb' (start - 6) len :=
  BitVec.extractLsb'_append_eq_of_le h

/-- A slice below the joint of 7 and 6 bits. -/
@[simp] theorem slice_7_6_below (x : BitVec 7) (y : BitVec 6) (start len : Nat) (h : start + len ≤ 6) :
    BitVec.extractLsb' (n := 13) start len (x ++ y) = y.extractLsb' start len :=
  BitVec.extractLsb'_append_eq_of_add_le h

/-- A slice above the joint of 7 and 9 bits. -/
@[simp] theorem slice_7_9_above (x : BitVec 7) (y : BitVec 9) (start len : Nat) (h : 9 ≤ start) :
    BitVec.extractLsb' (n := 16) start len (x ++ y) = x.extractLsb' (start - 9) len :=
  BitVec.extractLsb'_append_eq_of_le h

/-- A slice below the joint of 7 and 9 bits. -/
@[simp] theorem slice_7_9_below (x : BitVec 7) (y : BitVec 9) (start len : Nat) (h : start + len ≤ 9) :
    BitVec.extractLsb' (n := 16) start len (x ++ y) = y.extractLsb' start len :=
  BitVec.extractLsb'_append_eq_of_add_le h

end Sys2Proof
end

