-- ==== Sys2Proof/Laws/PerInstr.lean ====
section
/-! SUPPORT. Statements about every instruction as syntax, one lemma per constructor. `RoundTrip`: the
decoder reads an instruction's own word back, ignored bits included. -/

namespace Sys2Proof.Laws.RoundTrip

/-- The word of the instruction decodes to it. -/
def Statement (i : Instr) : Prop := decode (encode i) = .ok i

theorem addi (r : Reg) (imm : BitVec 8) : Statement (.addi r imm) := by
  simp [Statement, decode, decodeImmediateAlu, encode]

theorem andi (r : Reg) (imm : BitVec 8) : Statement (.andi r imm) := by
  simp [Statement, decode, decodeImmediateAlu, encode]

theorem ori (r : Reg) (imm : BitVec 8) : Statement (.ori r imm) := by
  simp [Statement, decode, decodeImmediateAlu, encode]

theorem xori (r : Reg) (imm : BitVec 8) : Statement (.xori r imm) := by
  simp [Statement, decode, decodeImmediateAlu, encode]

theorem cmpi (r : Reg) (imm : BitVec 8) : Statement (.cmpi r imm) := by
  simp [Statement, decode, decodeImmediateAlu, encode]

theorem ldi (r : Reg) (imm : BitVec 8) : Statement (.ldi r imm) := by
  simp [Statement, decode, decodeImmediateAlu, encode]

theorem ldui (r : Reg) (imm : BitVec 8) : Statement (.ldui r imm) := by
  simp [Statement, decode, decodeImmediateAlu, encode]

theorem addipc (r : Reg) (imm : BitVec 8) : Statement (.addipc r imm) := by
  simp [Statement, decode, decodeImmediateAlu, encode]

theorem add (rd rs1 rs2 : Reg) : Statement (.add rd rs1 rs2) := by
  simp [Statement, decode, decodeRegisterAlu, encode]

theorem addc (rd rs1 rs2 : Reg) : Statement (.addc rd rs1 rs2) := by
  simp [Statement, decode, decodeRegisterAlu, encode]

theorem sub (rd rs1 rs2 : Reg) : Statement (.sub rd rs1 rs2) := by
  simp [Statement, decode, decodeRegisterAlu, encode]

theorem subc (rd rs1 rs2 : Reg) : Statement (.subc rd rs1 rs2) := by
  simp [Statement, decode, decodeRegisterAlu, encode]

theorem and (rd rs1 rs2 : Reg) : Statement (.and rd rs1 rs2) := by
  simp [Statement, decode, decodeRegisterAlu, encode]

theorem or (rd rs1 rs2 : Reg) : Statement (.or rd rs1 rs2) := by
  simp [Statement, decode, decodeRegisterAlu, encode]

theorem xor (rd rs1 rs2 : Reg) : Statement (.xor rd rs1 rs2) := by
  simp [Statement, decode, decodeRegisterAlu, encode]

theorem cmp (rd rs1 rs2 : Reg) : Statement (.cmp rd rs1 rs2) := by
  simp [Statement, decode, decodeRegisterAlu, encode]

theorem hadd (rd rs1 rs2 : Reg) : Statement (.hadd rd rs1 rs2) := by
  simp [Statement, decode, decodeRegisterAlu, encode]

theorem haddc (rd rs1 rs2 : Reg) : Statement (.haddc rd rs1 rs2) := by
  simp [Statement, decode, decodeRegisterAlu, encode]

theorem upsample (rd rs1 rs2 : Reg) : Statement (.upsample rd rs1 rs2) := by
  simp [Statement, decode, decodeRegisterAlu, encode]

theorem byteswap (rd rs1 rs2 : Reg) : Statement (.byteswap rd rs1 rs2) := by
  simp [Statement, decode, decodeRegisterAlu, encode]

theorem bz (off : BitVec 7) (ign : BitVec 3) : Statement (.bz off ign) := by
  simp [Statement, decode, decodeBranch, encode]

theorem bnz (off : BitVec 7) (ign : BitVec 3) : Statement (.bnz off ign) := by
  simp [Statement, decode, decodeBranch, encode]

theorem bc (off : BitVec 7) (ign : BitVec 3) : Statement (.bc off ign) := by
  simp [Statement, decode, decodeBranch, encode]

theorem bnc (off : BitVec 7) (ign : BitVec 3) : Statement (.bnc off ign) := by
  simp [Statement, decode, decodeBranch, encode]

theorem bn (off : BitVec 7) (ign : BitVec 3) : Statement (.bn off ign) := by
  simp [Statement, decode, decodeBranch, encode]

theorem bnn (off : BitVec 7) (ign : BitVec 3) : Statement (.bnn off ign) := by
  simp [Statement, decode, decodeBranch, encode]

theorem bo (off : BitVec 7) (ign : BitVec 3) : Statement (.bo off ign) := by
  simp [Statement, decode, decodeBranch, encode]

theorem bno (off : BitVec 7) (ign : BitVec 3) : Statement (.bno off ign) := by
  simp [Statement, decode, decodeBranch, encode]

theorem ld (rd address : Reg) (off : BitVec 7) : Statement (.ld rd address off) := by
  simp [Statement, decode, decodeLoadStore, encode]

theorem st (address : Reg) (off : BitVec 7) (rs : Reg) : Statement (.st address off rs) := by
  simp [Statement, decode, decodeLoadStore, encode]

theorem ldcr (rd : Reg) (cr : CrNum) (ign : BitVec 6) : Statement (.ldcr rd cr ign) := by
  simp [Statement, decode, decodeControlRegister, encode]

theorem stcr (cr : CrNum) (rs : Reg) (ign : BitVec 6) : Statement (.stcr cr rs ign) := by
  simp [Statement, decode, decodeControlRegister, encode]

theorem syscall (code : BitVec 6) (ign : BitVec 3) : Statement (.syscall code ign) := by
  simp [Statement, decode, decodeSystem, encode]

theorem ja (address link : Reg) (ign : BitVec 3) : Statement (.ja address link ign) := by
  simp [Statement, decode, decodeSystem, encode]

theorem ldp (rd address : Reg) (ign : BitVec 3) : Statement (.ldp rd address ign) := by
  simp [Statement, decode, decodeSystem, encode]

theorem stCond (address rs : Reg) (ign : BitVec 3) : Statement (.stCond address rs ign) := by
  simp [Statement, decode, decodeSystem, encode]

theorem reti (ign : BitVec 9) : Statement (.reti ign) := by
  simp [Statement, decode, decodeSystem, encode]

theorem brk (ign : BitVec 9) : Statement (.brk ign) := by
  simp [Statement, decode, decodeSystem, encode]

/-- The selector of `j` has two values, the top bit of its offset being one of its bits
(spec/30_encoding.md R80). -/
theorem j_selector : ∀ off : BitVec 7,
    BitVec.extractLsb' (n := 13) 6 3 (0b111101#6 ++ off) = 0b010#3 ∨
      BitVec.extractLsb' (n := 13) 6 3 (0b111101#6 ++ off) = 0b011#3 := by
  decide +kernel

theorem j (off : BitVec 7) (link : Reg) : Statement (.j off link) := by
  rcases j_selector off with h | h <;> simp [Statement, decode, decodeSystem, encode, h]

end Sys2Proof.Laws.RoundTrip
end

