-- ==== Sys2Proof/Laws/Step.lean ====
section
/-! SUPPORT. What a step can do to the memories, the parameters and the memory maps, said once: every
next state is reached by changes that leave all of these alone, by stores of data words and, when the
environment acts, by stores of program words. Invariants about them follow by induction on that. -/

namespace Sys2Proof.Machine

/-- `t` agrees with `s` on the memories, the parameters and the memory maps, and the environment can
make no change from there on that it could not make before. -/
structure SameStore (s t : State) : Prop where
  dmem : t.dmem = s.dmem
  pmem : t.pmem = s.pmem
  params : t.params = s.params
  dataMap : t.env.dataMap = s.env.dataMap
  progAbsent : t.env.progAbsent = s.env.progAbsent
  changes : ∀ a ∈ t.env.changes, a ∈ s.env.changes

theorem SameStore.refl (s : State) : SameStore s s := ⟨rfl, rfl, rfl, rfl, rfl, fun _ h => h⟩

/-- A state with the same memories, parameters and environment. -/
theorem SameStore.of_env {s t : State} (hd : t.dmem = s.dmem) (hp : t.pmem = s.pmem)
    (hq : t.params = s.params) (he : t.env = s.env) : SameStore s t :=
  ⟨hd, hp, hq, by rw [he], by rw [he], by rw [he]; exact fun _ h => h⟩

/-- What can happen to memory between `s` and `t`; program words change only if `env` is true. -/
inductive Moves (env : Bool) : State → State → Prop where
  | same {s t : State} (h : SameStore s t) : Moves env s t
  | data (s : State) (a v : Word) : Moves env s (s.storeData a v)
  | prog (h : env = true) (s : State) (a v : Word) : Moves env s (s.storeProg a v)
  | trans {s t u : State} (h : Moves env s t) (k : Moves env t u) : Moves env s u

/-- A property of the memories, the parameters and the memory maps that stores of words keep. -/
structure Stable (env : Bool) (P : State → Prop) : Prop where
  same : ∀ {s t : State}, SameStore s t → P s → P t
  data : ∀ (s : State) (a v : Word), P s → P (s.storeData a v)
  prog : env = true → ∀ (s : State) (a v : Word), P s → P (s.storeProg a v)

/-- A stable property holds after whatever can happen. -/
theorem Stable.of_moves {env : Bool} {P : State → Prop} (hP : Stable env P) {s t : State}
    (h : Moves env s t) (hs : P s) : P t := by
  induction h with
  | same h => exact hP.same h hs
  | data s a v => exact hP.data s a v hs
  | prog h s a v => exact hP.prog h s a v hs
  | trans _ _ ih1 ih2 => exact ih2 (ih1 hs)

/-- A change by the environment. -/
theorem moves_act {env : Bool} (s t : State) (args : List Word) (a : EnvAct)
    (h : env = true ∨ ∀ b v, a ≠ .setProg b v) : Moves env t (s.act args t a) := by
  cases a with
  | setReg r v => exact .same (.of_env (by simp [State.act]) (by simp [State.act]) (by simp [State.act]) (by simp [State.act]))
  | setData a v => exact .data t _ _
  | setProg a v => exact .prog (h.resolve_right fun k => k a v rfl) t _ _
  | setCr n v => exact .same (.of_env rfl rfl rfl rfl)
  | setPc v => exact .same (.of_env rfl rfl rfl rfl)
  | setFlags v => exact .same (.of_env rfl rfl rfl rfl)
  | setIntr v => exact .same (.of_env rfl rfl rfl rfl)
  | setDelay v n => exact .same (.of_env rfl rfl rfl rfl)
  | clearDelay => exact .same (.of_env rfl rfl rfl rfl)

/-- The changes by the environment in one answer. -/
theorem moves_applyActs {env : Bool} (s : State) (args : List Word) (as : List EnvAct)
    (h : env = true ∨ ∀ b v, EnvAct.setProg b v ∉ as) : Moves env s (s.applyActs args as) := by
  suffices ∀ t, Moves env t (as.foldl (s.act args) t) from this s
  induction as with
  | nil => exact fun t => .same (.refl t)
  | cons a as ih =>
    refine fun t => .trans (moves_act s t args a (h.imp_right fun k b v e => ?_))
      (ih (h.imp_right fun k b v m => k b v (List.mem_cons_of_mem _ m)) _)
    exact k b v (e ▸ List.mem_cons_self)

/-- Handing over to the environment and being resumed. -/
theorem moves_handOver {env : Bool} {s t : State} {e : Event} {f : Fault} {args : List Word} {a : Answer}
    (ha : env = true ∨ ∀ b v, EnvAct.setProg b v ∉ a.changes) (h : s.handOver e f args a = .next t) :
    Moves env s t := by
  cases a with
  | fault => cases h
  | resume acts =>
    cases h
    exact .trans (.same (t := s.record e) (.of_env rfl rfl rfl rfl)) (moves_applyActs (s.record e) args acts ha)

theorem moves_handOverOrStop {env : Bool} {s t : State} {e : Event} {f : Fault} {p : Stop}
    {args : List Word} {r : Reply} (ha : env = true ∨ ∀ b v, EnvAct.setProg b v ∉ r.changes)
    (h : s.handOverOrStop e f p args r = .next t) : Moves env s t := by
  cases r with
  | stop => cases h; exact .same (.of_env rfl rfl rfl rfl)
  | answer a => exact moves_handOver ha h

/-- Delivering an interrupt. -/
theorem moves_deliver {env : Bool} {s : State} {k : Interrupt}
    (h : env = true ∨ ∀ b v, EnvAct.setProg b v ∉ k.deliver) : Moves env s (s.deliver k) :=
  .trans (.same (t := { s with intrSinceLoad := true }.record (.interrupt k.source)) (.of_env rfl rfl rfl rfl))
    (moves_applyActs _ [] k.deliver h)

/-- A memory read leaves the memories alone. -/
theorem sameStore_readMem (s : State) (m : Memory) (a : Word) : SameStore s (s.readMem m a).2 := by
  rcases State.readMem_snd s m a with h | h <;> rw [h] <;> exact .of_env rfl rfl rfl rfl

theorem sameStore_readData {s : State} {a : Word} {p : Word × State} (h : s.readData a = .ok p) :
    SameStore s p.2 := by
  rcases State.readData_cases s a with ⟨_, e⟩ | ⟨_, e⟩ | ⟨_, e⟩ <;> rw [e] at h <;> cases h
  · exact sameStore_readMem s s.dmem a
  · exact .of_env rfl rfl rfl rfl

theorem sameStore_readProg {s : State} {a : Word} {p : Word × State} (h : s.readProg a = .ok p) :
    SameStore s p.2 := by
  unfold State.readProg at h
  split at h
  · cases h; exact sameStore_readMem s s.pmem a
  · cases h

theorem moves_writeDataIf {s t : State} {env b : Bool} {a v : Word} (h : s.writeDataIf b a v = .ok t) :
    Moves env s t := by
  rcases State.writeDataIf_cases s b a v with ⟨_, e⟩ | ⟨_, _, e⟩ | ⟨_, _, e⟩ | ⟨_, _, e⟩ <;>
    rw [e] at h <;> cases h
  · exact .same (.refl s)
  · exact .data s a v
  · exact .same (.of_env rfl rfl rfl rfl)

theorem moves_readCr {s : State} {n : CrNum} {p : Word × State} {env : Bool}
    (he : env = true ∨ s.env.keepsProgram) (h : s.readCr n = .ok p) : Moves env s p.2 := by
  have taken : SameStore s { s with env := { s.env with crReads := s.env.crReads.rest } } :=
    ⟨rfl, rfl, rfl, rfl, rfl, fun _ hx => Env.mem_changes.2 ((Env.mem_changes.1 hx).imp_left Answers.mem_of_rest)⟩
  have keeps : env = true ∨ ∀ b v, EnvAct.setProg b v ∉ (s.crReadAnswer n).changes :=
    he.imp_right fun k b v m => k b v (Env.mem_changes.2 (.inl (Answers.mem_of_answer rfl m)))
  unfold State.readCr at h
  dsimp only at h
  split at h <;> rename_i hr <;> cases h
  · exact .same taken
  · rw [hr] at keeps
    exact .trans (.same taken) (moves_applyActs _ _ _ keeps)

theorem moves_writeCr {s t : State} {n : CrNum} {v : Word} {env : Bool}
    (he : env = true ∨ s.env.keepsProgram) (h : s.writeCr n v = .ok t) : Moves env s t := by
  have taken : SameStore s { s with env := { s.env with crWrites := s.env.crWrites.rest } } :=
    ⟨rfl, rfl, rfl, rfl, rfl, fun _ hx => Env.mem_changes.2
      ((Env.mem_changes.1 hx).imp_right (Or.imp_left Answers.mem_of_rest))⟩
  have keeps : env = true ∨ ∀ b w, EnvAct.setProg b w ∉ (s.crWriteAnswer n v).changes :=
    he.imp_right fun k b w m => k b w (Env.mem_changes.2 (.inr (.inl (Answers.mem_of_answer rfl m))))
  unfold State.writeCr at h
  dsimp only at h
  split at h <;> rename_i hr <;> cases h
  · exact .trans (.same taken) (.same (.of_env rfl rfl rfl rfl))
  · rw [hr] at keeps
    exact .trans (.same taken) (moves_applyActs _ _ _ keeps)

theorem moves_raiseSyscall {s t : State} {c : BitVec 6} {env : Bool}
    (he : env = true ∨ s.env.keepsProgram) (h : s.raiseSyscall c = .next t) : Moves env s t := by
  refine .trans (.same (t := { s with env := { s.env with syscalls := s.env.syscalls.rest } })
    ⟨rfl, rfl, rfl, rfl, rfl, fun _ hx => Env.mem_changes.2
      ((Env.mem_changes.1 hx).imp_right (Or.imp_right (Or.imp_left Answers.mem_of_rest)))⟩)
    (moves_handOverOrStop (he.imp_right fun k b v m => k b v (Env.mem_changes.2 ?_)) h)
  exact .inr (.inr (.inl (Answers.mem_of_answer rfl m)))

theorem moves_raiseBreak {s t : State} {env : Bool} (he : env = true ∨ s.env.keepsProgram)
    (h : s.raiseBreak = .next t) : Moves env s t := by
  refine .trans (.same (t := { s with env := { s.env with breaks := s.env.breaks.rest } })
    ⟨rfl, rfl, rfl, rfl, rfl, fun _ hx => Env.mem_changes.2
      ((Env.mem_changes.1 hx).imp_right (Or.imp_right (Or.imp_right (Or.imp_left Answers.mem_of_rest))))⟩)
    (moves_handOverOrStop (he.imp_right fun k b v m => k b v (Env.mem_changes.2 ?_)) h)
  exact .inr (.inr (.inr (.inl (Answers.mem_of_answer rfl m))))

theorem moves_raiseReti {s t : State} {env : Bool} (he : env = true ∨ s.env.keepsProgram)
    (h : s.raiseReti = .next t) : Moves env s t := by
  refine .trans (.same (t := { s with env := { s.env with retis := s.env.retis.rest } })
    ⟨rfl, rfl, rfl, rfl, rfl, fun _ hx => Env.mem_changes.2 ((Env.mem_changes.1 hx).imp_right
      (Or.imp_right (Or.imp_right (Or.imp_right (Or.imp_left Answers.mem_of_rest)))))⟩)
    (moves_handOver (he.imp_right fun k b v m => k b v (Env.mem_changes.2 ?_)) h)
  exact .inr (.inr (.inr (.inr (.inl (Answers.mem_of_answer rfl m)))))

theorem moves_raiseIllegal {s t : State} {w : Word} {env : Bool} (he : env = true ∨ s.env.keepsProgram)
    (h : s.raiseIllegal w = .next t) : Moves env s t := by
  refine .trans (.same (t := { s with env := { s.env with illegals := s.env.illegals.rest } })
    ⟨rfl, rfl, rfl, rfl, rfl, fun _ hx => Env.mem_changes.2 ((Env.mem_changes.1 hx).imp_right
      (Or.imp_right (Or.imp_right (Or.imp_right (Or.imp_right (Or.imp_left Answers.mem_of_rest))))))⟩)
    (moves_handOver (he.imp_right fun k b v m => k b v (Env.mem_changes.2 ?_)) h)
  exact .inr (.inr (.inr (.inr (.inr (.inl (Answers.mem_of_answer rfl m))))))

/-! ### The shapes of the meanings -/

theorem sameStore_setReg (s : State) (r : Reg) (v : Word) : SameStore s (s.setReg r v) :=
  .of_env (by simp) (by simp) (by simp) (by simp)

theorem sameStore_leaveSlot (s : State) : SameStore s s.leaveSlot := .of_env rfl rfl rfl rfl

theorem sameStore_pastInstr (s : State) : SameStore s s.pastInstr := .of_env rfl rfl rfl rfl

theorem SameStore.trans {s t u : State} (h : SameStore s t) (k : SameStore t u) : SameStore s u :=
  ⟨k.dmem.trans h.dmem, k.pmem.trans h.pmem, k.params.trans h.params, k.dataMap.trans h.dataMap,
    k.progAbsent.trans h.progAbsent, fun a m => h.changes a (k.changes a m)⟩

theorem moves_addInto {s t : State} {rd : Reg} {a b : Word} {c env : Bool}
    (h : s.addInto rd a b c = .next t) : Moves env s t := by
  cases h
  exact .same (.trans (sameStore_leaveSlot s) (.trans (sameStore_setReg s.leaveSlot rd _) (.of_env rfl rfl rfl rfl)))

theorem moves_subInto {s t : State} {rd : Reg} {a b : Word} {c env : Bool}
    (h : s.subInto rd a b c = .next t) : Moves env s t := by
  cases h
  exact .same (.trans (sameStore_leaveSlot s) (.trans (sameStore_setReg s.leaveSlot rd _) (.of_env rfl rfl rfl rfl)))

theorem moves_compare {s t : State} {a b : Word} {env : Bool}
    (h : s.compare a b = .next t) : Moves env s t := by
  cases h; exact .same (.of_env rfl rfl rfl rfl)

theorem moves_logicInto {s t : State} {rd : Reg} {v : Word} {env : Bool}
    (h : s.logicInto rd v = .next t) : Moves env s t := by
  cases h
  exact .same (.trans (sameStore_leaveSlot s) (.trans (sameStore_setReg s.leaveSlot rd _) (.of_env rfl rfl rfl rfl)))

theorem moves_haddInto {s t : State} {rd : Reg} {a b : Word} {c env : Bool}
    (h : s.haddInto rd a b c = .next t) : Moves env s t := by
  cases h
  exact .same (.trans (sameStore_leaveSlot s) (.trans (sameStore_setReg s.leaveSlot rd _) (.of_env rfl rfl rfl rfl)))

theorem moves_moveInto {s t : State} {rd : Reg} {v : Word} {env : Bool}
    (h : s.moveInto rd v = .next t) : Moves env s t := by
  cases h
  exact .same (.trans (sameStore_leaveSlot s) (.trans (sameStore_setReg s.leaveSlot rd _) (.of_env rfl rfl rfl rfl)))

theorem moves_branch {s t : State} {w : Word} {c env : Bool} {off : BitVec 7}
    (h : s.branch w c off = .next t) : Moves env s t := by
  obtain ⟨_, h⟩ := State.outsideSlot_next h
  cases h; exact .same (.of_env rfl rfl rfl rfl)

theorem moves_jump {s t : State} {w target : Word} {link : Reg} {env : Bool}
    (h : s.jump w target link = .next t) : Moves env s t := by
  obtain ⟨_, h⟩ := State.outsideSlot_next h
  cases h
  split <;> exact .same (.trans (sameStore_setReg s link _) (.of_env rfl rfl rfl rfl))

/-- What an instruction can do to memory. -/
theorem exec_moves {i : Instr} {s t : State} {env : Bool} (he : env = true ∨ s.env.keepsProgram)
    (h : exec i s = .next t) : Moves env s t := by
  cases i with
  | addi => exact moves_addInto h
  | andi => exact moves_logicInto h
  | ori => exact moves_logicInto h
  | xori => exact moves_logicInto h
  | cmpi => exact moves_compare h
  | ldi => exact moves_moveInto h
  | ldui => exact moves_moveInto h
  | addipc => exact moves_moveInto (State.outsideSlot_next h).2
  | add => exact moves_addInto h
  | addc => exact moves_addInto h
  | sub => exact moves_subInto h
  | subc => exact moves_subInto h
  | and => exact moves_logicInto h
  | or => exact moves_logicInto h
  | xor => exact moves_logicInto h
  | cmp => exact moves_compare h
  | hadd => exact moves_haddInto h
  | haddc => exact moves_haddInto h
  | upsample => exact moves_moveInto h
  | byteswap => exact moves_moveInto h
  | bz => exact moves_branch h
  | bnz => exact moves_branch h
  | bc => exact moves_branch h
  | bnc => exact moves_branch h
  | bn => exact moves_branch h
  | bnn => exact moves_branch h
  | bo => exact moves_branch h
  | bno => exact moves_branch h
  | ld rd address off =>
    obtain ⟨p, hp, h⟩ := proceed_next h
    cases h
    exact .same (.trans (sameStore_leaveSlot s)
      (.trans (sameStore_readData hp) (.trans (sameStore_setReg p.2 rd p.1) (.of_env rfl rfl rfl rfl))))
  | st address off rs =>
    obtain ⟨u, hu, h⟩ := proceed_next h
    cases h
    exact .trans (.trans (.same (sameStore_leaveSlot s)) (moves_writeDataIf hu))
      (.same (.of_env rfl rfl rfl rfl))
  | ldcr rd cr ign =>
    obtain ⟨p, hp, h⟩ := proceed_next h
    cases h
    exact .trans (.trans (.same (sameStore_leaveSlot s)) (moves_readCr he hp))
      (.same (.trans (sameStore_setReg p.2 rd p.1) (.of_env rfl rfl rfl rfl)))
  | stcr cr rs ign =>
    obtain ⟨u, hu, h⟩ := proceed_next h
    cases h
    exact .trans (.trans (.same (sameStore_leaveSlot s)) (moves_writeCr he hu))
      (.same (.of_env rfl rfl rfl rfl))
  | syscall code ign =>
    exact .trans (.same (sameStore_pastInstr s))
      (moves_raiseSyscall (s := s.pastInstr) he (State.outsideSlot_next h).2)
  | ja => exact moves_jump h
  | j => exact moves_jump h
  | ldp rd address ign =>
    obtain ⟨p, hp, h⟩ := proceed_next h
    cases h
    exact .same (.trans (sameStore_leaveSlot s)
      (.trans (sameStore_readProg hp) (.trans (sameStore_setReg p.2 rd p.1) (.of_env rfl rfl rfl rfl))))
  | stCond address rs ign =>
    obtain ⟨u, hu, h⟩ := proceed_next h
    cases h
    refine .trans (.trans (.same (sameStore_leaveSlot s)) (moves_writeDataIf hu)) (.same ?_)
    unfold State.stCondFlags
    split <;> exact (.of_env rfl rfl rfl rfl)
  | reti ign => exact moves_raiseReti he (State.outsideSlot_next h).2
  | brk ign =>
    exact .trans (.same (sameStore_pastInstr s))
      (moves_raiseBreak (s := s.pastInstr) he (State.outsideSlot_next h).2)

/-- Asking about an interrupt uses up one coming answer at most. -/
theorem sameStore_askInterrupt (s : State) : SameStore s s.askInterrupt.2 := by
  unfold State.askInterrupt
  split
  · exact .refl s
  · exact ⟨rfl, rfl, rfl, rfl, rfl, fun _ hx => Env.mem_changes.2 ((Env.mem_changes.1 hx).imp_right
      (Or.imp_right (Or.imp_right (Or.imp_right (Or.imp_right (Or.imp_right Answers.mem_of_rest))))))⟩

/-- The changes of a delivered interrupt were among those the environment could make. -/
theorem mem_changes_of_delivered {s : State} {k : Interrupt} (h : s.askInterrupt.1 = some k) {x : EnvAct}
    (hx : x ∈ k.deliver) : x ∈ s.env.changes := by
  unfold State.askInterrupt at h
  split at h
  · cases h
  · refine Env.mem_changes.2 (.inr (.inr (.inr (.inr (.inr (.inr (Answers.mem_of_answer
      (d := none) (s := s) (args := []) rfl ?_)))))))
    rw [show s.env.interrupts.answer none s [] = some k from h]
    exact hx

/-- Where no interrupt is delivered, asking leaves the state, less the answer used up. -/
theorem askInterrupt_of_noInterrupt {s : State} (h : s.noInterrupt) :
    s.askInterrupt = (none, { s with
      env := if s.delay = none then { s.env with interrupts := s.env.interrupts.rest } else s.env }) := by
  unfold State.askInterrupt
  split <;> rename_i hd
  · rw [if_neg (by simp [hd])]
  · rw [if_pos hd, h.resolve_left fun k => k hd]

/-- What a fetch of a present word answers: the word, and the state with its draw counted. -/
theorem State.fetch_of_hasProgram {s : State} (h : s.env.hasProgram s.pc = true) :
    s.fetch = .ok (s.fetchedWord, { s with draws := if s.pmem.holds s.pc = true then s.draws else s.draws + 1 }) := by
  unfold State.fetch State.readProg State.readMem State.fetchedWord
  rw [if_pos h]
  split <;> rfl

/-- What a step can do to memory (spec/20_memory.md R66 for `env` false). -/
theorem step_moves {s t : State} {env : Bool} (he : env = true ∨ s.env.keepsProgram)
    (h : step s = .next t) : Moves env s t := by
  have asked := sameStore_askInterrupt s
  unfold step State.stepWith at h
  split at h
  · cases h; exact .same (.refl s)
  · split at h <;> rename_i u hu <;> rw [hu] at asked
    · cases h
      refine .trans (.same asked) (moves_deliver ?_)
      exact he.imp_right fun k b v m => k b v (mem_changes_of_delivered (by rw [hu]) m)
    · obtain ⟨p, hp, h⟩ := proceed_next h
      have fetched := asked.trans (sameStore_readProg hp)
      have hk := he.imp_right fun (k : s.env.keepsProgram) b v m => k b v (fetched.changes _ m)
      refine .trans (.same fetched) ?_
      unfold State.runWord at h
      split at h
      · exact exec_moves hk h
      · exact moves_raiseIllegal hk h

/-- A stable property that holds before a step holds after it. -/
theorem Stable.step_keeps {P : State → Prop} (hP : Stable true P) {s t : State} (hs : P s)
    (h : step s = .next t) : P t :=
  hP.of_moves (step_moves (.inl rfl) h) hs

/-- The memory invariant is stable. -/
theorem stable_memoryInv : Stable true State.MemoryInv where
  same h hs := by
    unfold State.MemoryInv at *
    rw [h.dmem, h.pmem]
    exact hs
  data s a v hs := ⟨Memory.storeWord_wf hs.1 a v, hs.2.1, Memory.storeWord_whole hs.2.2.1 a v, hs.2.2.2⟩
  prog _ s a v hs := ⟨hs.1, Memory.storeWord_wf hs.2.1 a v, hs.2.2.1, Memory.storeWord_whole hs.2.2.2 a v⟩

end Sys2Proof.Machine
end

