-- ==== Sys2Proof/Laws/Shapes.lean ====
section
/-! SUPPORT. What each shape of instruction does, said once: the register it writes, its flags and its
frame; and the exact integers behind the results and the flags. -/

namespace Sys2Proof.Machine

/-! ### Registers and frames -/

/-- A state whose register file is that of a register write. -/
theorem writesReg_of_setReg {s u t : State} {rd : Reg} {v : Word} (hx : u.x = s.x)
    (hp : u.params = s.params) (tx : t.x = (u.setReg rd v).x) (tp : t.params = s.params) :
    WritesReg rd v s t := by
  have hg : ∀ r, t.getReg r = (u.setReg rd v).getReg r := fun r =>
    State.getReg_congr tx (by rw [tp, State.setReg_params, hp]) r
  refine ⟨?_, fun r hr => ?_⟩
  · rw [hg, State.getReg_setReg, if_pos rfl, State.isZeroReg_congr hp]
  · rw [hg, State.getReg_setReg, if_neg hr, State.getReg_congr hx hp]

/-- The end of an instruction in the terms of the frames. -/
theorem completed_of {s t : State} (hp : t.pc = s.nextPc) (hd : t.delay = s.nextDelay) : Completed s t := by
  unfold Completed
  unfold State.nextPc at hp
  unfold State.nextDelay at hd
  split <;> simp_all

theorem addInto_spec (s : State) (rd : Reg) (a b : Word) (cin : Bool) :
    ∃ t, s.addInto rd a b cin = .next t ∧ WritesReg rd (addResult a b cin) s t ∧
      t.flags = addFlags a b cin ∧ AluFrame s t ∧ t.draws = s.draws :=
  ⟨_, rfl, writesReg_of_setReg (u := s.leaveSlot) rfl rfl rfl (by simp), by simp,
    ⟨completed_of (by simp) (by simp), by simp [SameMemory, SameCr, SameOutside]⟩, by simp⟩

theorem subInto_spec (s : State) (rd : Reg) (a b : Word) (bin : Bool) :
    ∃ t, s.subInto rd a b bin = .next t ∧ WritesReg rd (subResult a b bin) s t ∧
      t.flags = subFlags s.params a b bin ∧ AluFrame s t ∧ t.draws = s.draws :=
  ⟨_, rfl, writesReg_of_setReg (u := s.leaveSlot) rfl rfl rfl (by simp), by simp,
    ⟨completed_of (by simp) (by simp), by simp [SameMemory, SameCr, SameOutside]⟩, by simp⟩

theorem compare_spec (s : State) (a b : Word) :
    ∃ t, s.compare a b = .next t ∧ SameRegs s t ∧ t.flags = subFlags s.params a b false ∧
      AluFrame s t ∧ t.draws = s.draws :=
  ⟨_, rfl, fun _ => rfl, rfl, ⟨completed_of (by simp) (by simp), by simp [SameMemory, SameCr, SameOutside]⟩, rfl⟩

theorem logicInto_spec (s : State) (rd : Reg) (res : Word) :
    ∃ t, s.logicInto rd res = .next t ∧ WritesReg rd res s t ∧
      t.flags = ⟨res == 0, Config.freeBit s.draws, res.msb, Config.freeBit (s.draws + 1)⟩ ∧
      AluFrame s t ∧ t.draws = s.draws + 2 :=
  ⟨_, rfl, writesReg_of_setReg (u := s.leaveSlot) rfl rfl rfl (by simp), by simp,
    ⟨completed_of (by simp) (by simp), by simp [SameMemory, SameCr, SameOutside]⟩, by simp⟩

theorem haddInto_spec (s : State) (rd : Reg) (a b : Word) (cin : Bool) :
    ∃ t, s.haddInto rd a b cin = .next t ∧ WritesReg rd (haddResult s.params a b cin) s t ∧
      t.flags = ⟨haddResult s.params a b cin == 0, decide (haddSum s.params a b cin % 2 = 1),
        (haddResult s.params a b cin).msb, Config.freeBit s.draws⟩ ∧
      AluFrame s t ∧ t.draws = s.draws + 1 :=
  ⟨_, rfl, writesReg_of_setReg (u := s.leaveSlot) rfl rfl rfl (by simp), by simp,
    ⟨completed_of (by simp) (by simp), by simp [SameMemory, SameCr, SameOutside]⟩, by simp⟩

theorem moveInto_spec (s : State) (rd : Reg) (res : Word) :
    ∃ t, s.moveInto rd res = .next t ∧ MovesInto rd res s t :=
  ⟨_, rfl, writesReg_of_setReg (u := s.leaveSlot) rfl rfl rfl (by simp), by simp [FreshFlags],
    ⟨completed_of (by simp) (by simp), by simp [SameMemory, SameCr, SameOutside]⟩⟩

/-! ### Integers behind the results -/

theorem trunc16_natCast (n : Nat) : trunc16 n = BitVec.ofNat 16 n := by
  apply BitVec.eq_of_toInt_eq
  simp [trunc16]

theorem addResult_eq (a b : Word) (cin : Bool) :
    addResult a b cin = BitVec.ofNat 16 (a.toNat + b.toNat + cin.toNat) := by
  rw [← trunc16_natCast]; simp [addResult]

theorem subResult_eq (a b : Word) (bin : Bool) :
    subResult a b bin = a - b - BitVec.ofNat 16 bin.toNat := by
  apply BitVec.eq_of_toNat_eq
  cases bin <;> simp [subResult, trunc16, BitVec.toNat_sub, BitVec.toNat_ofInt] <;> omega

theorem haddResult_eq (p : Params) (a b : Word) (cin : Bool) :
    haddResult p a b cin = BitVec.ofNat 16 (haddSum p a b cin / 2) := trunc16_natCast _

/-- The flag `N` of a result, as a bound. -/
theorem msb_iff (w : Word) : w.msb = true ↔ 32768 ≤ w.toNat := by
  rw [BitVec.msb_eq_decide]; simp

/-- `Z` and `N` as a record of flags gives them. -/
theorem znOf_of_flags {t : State} {res : Word} (hz : t.flags.z = (res == 0)) (hn : t.flags.n = res.msb) :
    ZNOf res t := by
  refine ⟨?_, ?_⟩
  · rw [hz]; simp
  · rw [hn]; exact msb_iff res

/-- The sign-extended immediate as an integer (spec/30_encoding.md R82). -/
theorem immWord_eq (imm : BitVec 8) : immWord imm = BitVec.ofInt 16 imm.toInt := by
  simp [immWord, BitVec.signExtend]

/-- The sign-extended offset as an integer (spec/30_encoding.md R83). -/
theorem offWord_eq (off : BitVec 7) : offWord off = BitVec.ofInt 16 off.toInt := by
  simp [offWord, BitVec.signExtend]

/-- The sum of a word and a signed field, as one truncated integer. -/
theorem add_ofInt (a : Word) (n : Int) : a + BitVec.ofInt 16 n = BitVec.ofInt 16 (a.toNat + n) := by
  rw [BitVec.ofInt_add]; simp

/-- The effective address as one truncated integer (spec/43_load_store.md R155). -/
theorem effAddr_eq (s : State) (address : Reg) (off : BitVec 7) :
    s.effAddr address off = BitVec.ofInt 16 ((s.getReg address).toNat + off.toInt) := by
  rw [State.effAddr, offWord_eq, add_ofInt]

/-- The branch target as one truncated integer (spec/42_branches.md R140). -/
theorem relTarget_eq (s : State) (off : BitVec 7) :
    s.relTarget off = BitVec.ofInt 16 (s.pc.toNat + s.params.pcReadBias.toNat + off.toInt) := by
  rw [State.relTarget, State.pcRead, offWord_eq, BitVec.ofInt_add, BitVec.ofInt_add]; simp

/-- `Pc` as one truncated integer (spec/10_state.md R26). -/
theorem pcRead_eq (s : State) :
    s.pcRead = BitVec.ofNat 16 (s.pc.toNat + s.params.pcReadBias.toNat) := by
  rw [State.pcRead, BitVec.ofNat_add]; simp

/-- The flags of an addition in the terms of the rules (spec/10_state.md R33). -/
theorem addFlagsOf_of_flags {t : State} {a b : Word} {cin : Bool} (h : t.flags = addFlags a b cin) :
    AddFlagsOf a b cin.toNat t := by
  refine ⟨?_, ?_, ?_⟩
  · rw [← addResult_eq]; exact znOf_of_flags (by rw [h]; rfl) (by rw [h]; rfl)
  · rw [h]; simp [addFlags]
  · rw [h]; exact decide_eq_true_iff

/-- The flags of a subtraction in the terms of the rules (spec/10_state.md R33, R34). -/
theorem subFlagsOf_of_flags {s t : State} {a b : Word} {bin : Bool}
    (h : t.flags = subFlags s.params a b bin) : SubFlagsOf a b bin.toNat s t := by
  refine ⟨?_, ?_, ?_⟩
  · exact znOf_of_flags (res := subResult a b bin) (by rw [h]; rfl) (by rw [h]; rfl)
  · rw [h]
    have e : ((a.toNat : Int) - b.toNat - bin.toNat < 0) ↔ (a.toNat < b.toNat + bin.toNat) := by omega
    simp only [subFlags, e]
    cases s.params.subCarryIsBorrow <;> simp
  · rw [h]; exact decide_eq_true_iff

end Sys2Proof.Machine
end

