-- ==== Sys2Proof/Tests/Slice0.lean ====
section
/-! SUPPORT. The model's own tests. Expected results are the spec's (spec/95_test_vectors.md): its encoding
patterns S3, its words of 2.1 and its vectors of 2.2 to 2.16; where a test varies a vector, its comment
says the rule it was worked out from by hand. After them, for every statement with hypotheses, theorems
that show states and operands that meet them (`witness_`). -/

open Sys2Proof Sys2Proof.Machine

namespace Sys2Proof.Tests

/-! ### Well-formed terms: one ill-formed term for each check (spec/30_encoding.md R86) -/

theorem test_wellFormed_branch : WellFormed (.bz 0x7F 0) ∧ ¬WellFormed (.bz 0x7F 7) := by decide
theorem test_wellFormed_branches : ¬WellFormed (.bnz 0 1) ∧ ¬WellFormed (.bc 0 2) ∧ ¬WellFormed (.bnc 0 4) ∧
    ¬WellFormed (.bn 0 1) ∧ ¬WellFormed (.bnn 0 2) ∧ ¬WellFormed (.bo 0 4) ∧ ¬WellFormed (.bno 0 7) := by decide
theorem test_wellFormed_ldcr : WellFormed (.ldcr 0 0 0) ∧ ¬WellFormed (.ldcr 0 0 63) := by decide
theorem test_wellFormed_stcr : WellFormed (.stcr 0 0 0) ∧ ¬WellFormed (.stcr 0 0 32) := by decide
theorem test_wellFormed_syscall : WellFormed (.syscall 63 0) ∧ ¬WellFormed (.syscall 0 7) := by decide
theorem test_wellFormed_ja : WellFormed (.ja 0 0 0) ∧ ¬WellFormed (.ja 0 0 7) := by decide
theorem test_wellFormed_ldp : WellFormed (.ldp 2 1 0) ∧ ¬WellFormed (.ldp 2 1 1) := by decide
theorem test_wellFormed_stCond : WellFormed (.stCond 4 5 0) ∧ ¬WellFormed (.stCond 4 5 4) := by decide
theorem test_wellFormed_reti : WellFormed (.reti 0) ∧ ¬WellFormed (.reti 0x1FF) := by decide
theorem test_wellFormed_brk : WellFormed (.brk 0) ∧ ¬WellFormed (.brk 0x100) := by decide

/-! ### Decoding: every constructor by a word written out from its pattern (S3), fields in the pattern's
order, all different -/

/-- The word decodes to the instruction. -/
def decodesTo (w : Word) (i : Instr) : Bool :=
  match decode w with
  | .ok k => k == i
  | .error _ => false

theorem test_decode_addi : decodesTo 0b00000_10100110_011 (.addi 3 0xA6) = true := by decide
theorem test_decode_andi : decodesTo 0b00001_10100110_011 (.andi 3 0xA6) = true := by decide
theorem test_decode_ori : decodesTo 0b00010_10100110_011 (.ori 3 0xA6) = true := by decide
theorem test_decode_xori : decodesTo 0b00011_10100110_011 (.xori 3 0xA6) = true := by decide
theorem test_decode_cmpi : decodesTo 0b00100_10100110_011 (.cmpi 3 0xA6) = true := by decide
theorem test_decode_ldi : decodesTo 0b00101_10100110_011 (.ldi 3 0xA6) = true := by decide
theorem test_decode_ldui : decodesTo 0b00110_10100110_011 (.ldui 3 0xA6) = true := by decide
theorem test_decode_addipc : decodesTo 0b00111_10100110_011 (.addipc 3 0xA6) = true := by decide
theorem test_decode_add : decodesTo 0b0100000_110_101_001 (.add 1 5 6) = true := by decide
theorem test_decode_addc : decodesTo 0b0100001_110_101_001 (.addc 1 5 6) = true := by decide
theorem test_decode_sub : decodesTo 0b0100010_110_101_001 (.sub 1 5 6) = true := by decide
theorem test_decode_subc : decodesTo 0b0100011_110_101_001 (.subc 1 5 6) = true := by decide
theorem test_decode_and : decodesTo 0b0100100_110_101_001 (.and 1 5 6) = true := by decide
theorem test_decode_or : decodesTo 0b0100101_110_101_001 (.or 1 5 6) = true := by decide
theorem test_decode_xor : decodesTo 0b0100110_110_101_001 (.xor 1 5 6) = true := by decide
theorem test_decode_cmp : decodesTo 0b0100111_110_101_001 (.cmp 1 5 6) = true := by decide
theorem test_decode_hadd : decodesTo 0b0101000_110_101_001 (.hadd 1 5 6) = true := by decide
theorem test_decode_haddc : decodesTo 0b0101001_110_101_001 (.haddc 1 5 6) = true := by decide
theorem test_decode_upsample : decodesTo 0b0101010_101_110_001 (.upsample 1 5 6) = true := by decide
theorem test_decode_byteswap : decodesTo 0b0101011_110_101_001 (.byteswap 1 5 6) = true := by decide
theorem test_decode_bz : decodesTo 0b011000_1010011_110 (.bz 0x53 6) = true := by decide
theorem test_decode_bnz : decodesTo 0b011001_1010011_110 (.bnz 0x53 6) = true := by decide
theorem test_decode_bc : decodesTo 0b011010_1010011_110 (.bc 0x53 6) = true := by decide
theorem test_decode_bnc : decodesTo 0b011011_1010011_110 (.bnc 0x53 6) = true := by decide
theorem test_decode_bn : decodesTo 0b011100_1010011_110 (.bn 0x53 6) = true := by decide
theorem test_decode_bnn : decodesTo 0b011101_1010011_110 (.bnn 0x53 6) = true := by decide
theorem test_decode_bo : decodesTo 0b011110_1010011_110 (.bo 0x53 6) = true := by decide
theorem test_decode_bno : decodesTo 0b011111_1010011_110 (.bno 0x53 6) = true := by decide
theorem test_decode_ld : decodesTo 0b100_101_1010011_110 (.ld 6 5 0x53) = true := by decide
theorem test_decode_st : decodesTo 0b101_101_1010011_110 (.st 5 0x53 6) = true := by decide
theorem test_decode_ldcr : decodesTo 0b1100_101_100110_011 (.ldcr 3 5 0x26) = true := by decide
theorem test_decode_stcr : decodesTo 0b1101_101_100110_011 (.stcr 5 3 0x26) = true := by decide
theorem test_decode_syscall : decodesTo 0b1111000_100110_011 (.syscall 0x26 3) = true := by decide
theorem test_decode_ja : decodesTo 0b1111001_101_110_011 (.ja 5 3 6) = true := by decide
theorem test_decode_j : decodesTo 0b111101_1011111_111 (.j 0x5F 7) = true := by decide
theorem test_decode_ldp : decodesTo 0b1111100_101_110_011 (.ldp 3 5 6) = true := by decide
theorem test_decode_stCond : decodesTo 0b1111101_101_110_011 (.stCond 5 3 6) = true := by decide
theorem test_decode_reti : decodesTo 0b1111110_100110011 (.reti 0x133) = true := by decide
theorem test_decode_brk : decodesTo 0b1111111_100110011 (.brk 0x133) = true := by decide

/-- The corners of the two unassigned ranges and their neighbours (spec/30_encoding.md R90). -/
theorem test_decode_unassigned :
    ([0x5800, 0x5FFF, 0xE000, 0xEFFF].all fun w => (decodeTableWord 16 w).isNone) = true ∧
    ([0x57FF, 0x6000, 0xDFFF, 0xF000].all fun w => (decodeTableWord 16 w).isSome) = true := by decide

/-- Fewer bytes than a word are rejected by name, in either byte order. -/
theorem test_decode_truncated :
    decodeBytes .big [0x07] = .error .truncated ∧ decodeBytes .little [] = .error .truncated := ⟨rfl, rfl⟩

/-- Words of 2.1 written by the encoder. -/
theorem test_encode :
    encode (.addi 1 0xFF) = 0x07F9 ∧ encode (.cmp 0 2 3) = 0x4ED0 ∧ encode (.upsample 1 2 3) = 0x5499 ∧
    encode (.bnc 0x40 0) = 0x6E00 ∧ encode (.ld 1 2 0x7C) = 0x8BE1 ∧ encode (.st 2 3 1) = 0xA819 ∧
    encode (.stcr 5 1 0) = 0xDA01 ∧ encode (.syscall 42 0) = 0xF150 ∧ encode (.ja 3 7 0) = 0xF2C7 ∧
    encode (.j 0x76 7) = 0xF7B7 ∧ encode (.ldp 2 1 0) = 0xF842 ∧ encode (.stCond 4 5 0) = 0xFB05 := by decide

/-! ### One step on a small state -/

/-- Registers 1 and 2 hold `a` and `b`, the carry is `c`, the pc is 0x0010, no interrupt was delivered since
the last load. -/
def small (a b : Word) (c : Bool) : State :=
  { State.reset with
    x := #v[0x00F0, a, b, 0x0300, 0x0400, 0x0042, 0x0600, 0x0700]
    pc := 0x0010
    flags := ⟨false, c, false, false⟩
    cr := #v[0, 1, 2, 3, 4, 5, 6, 7]
    intrSinceLoad := false }

/-- The result is a next state in which `p` holds. -/
def after (r : Result) (p : State → Bool) : Bool :=
  match r with
  | .next t => p t
  | .fault _ => false
  | .refused _ => false

/-- Flags from the digits of a vector. -/
def zcnv (z c n v : Bool) : Flags := ⟨z, c, n, v⟩

theorem test_addi_wraps : after (exec (.addi 1 0xFF) (small 0x0001 0 false)) (fun t =>
    t.getReg 1 == 0x0000 && t.flags == zcnv true true false false) = true := by decide
theorem test_addi_overflows : after (exec (.addi 1 0xFF) (small 0x8000 0 false)) (fun t =>
    t.getReg 1 == 0x7FFF && t.flags == zcnv false true false true) = true := by decide
theorem test_andi_extends : after (exec (.andi 1 0xF0) (small 0x1234 0 false)) (fun t =>
    t.getReg 1 == 0x1230 && !t.flags.z && !t.flags.n) = true := by decide
theorem test_ori_extends : after (exec (.ori 1 0xF0) (small 0x1234 0 false)) (fun t =>
    t.getReg 1 == 0xFFF4 && !t.flags.z && t.flags.n) = true := by decide
theorem test_xori_extends : after (exec (.xori 1 0xF0) (small 0x1234 0 false)) (fun t =>
    t.getReg 1 == 0xEDC4 && !t.flags.z && t.flags.n) = true := by decide
theorem test_cmpi_borrows : after (exec (.cmpi 1 10) (small 0x0003 0 false)) (fun t =>
    t.getReg 1 == 0x0003 && t.flags == zcnv false true true false) = true := by decide
theorem test_cmpi_overflows : after (exec (.cmpi 1 0xFF) (small 0x7FFF 0 false)) (fun t =>
    t.flags == zcnv false true true true) = true := by decide
theorem test_ldi_extends : after (exec (.ldi 1 0x80) (small 0 0 false)) (fun t =>
    t.getReg 1 == 0xFF80 && t.pc == 0x0011) = true := by decide
theorem test_ldui_clears : after (exec (.ldui 1 0x12) (small 0x00AB 0 false)) (fun t =>
    t.getReg 1 == 0x1200) = true := by decide
theorem test_ldui_keeps : after
    (exec (.ldui 1 0x12) { small 0x00AB 0 false with params.lduiKeepsLowByte := true }) (fun t =>
    t.getReg 1 == 0x12AB) = true := by decide
theorem test_addipc_back : after (exec (.addipc 0 0xFE) (small 0 0 false)) (fun t =>
    t.getReg 0 == 0x000F) = true := by decide
theorem test_addipc_wraps : after (exec (.addipc 0 0) { small 0 0 false with pc := 0xFFFF }) (fun t =>
    t.getReg 0 == 0x0000 && t.pc == 0x0000) = true := by decide
theorem test_add_overflows : after (exec (.add 3 1 2) (small 0x8000 0x8000 true)) (fun t =>
    t.getReg 3 == 0x0000 && t.flags == zcnv true true false true) = true := by decide
theorem test_addc_carries : after (exec (.addc 3 1 2) (small 0x7FFF 0x0000 true)) (fun t =>
    t.getReg 3 == 0x8000 && t.flags == zcnv false false true true) = true := by decide
theorem test_addc_both : after (exec (.addc 3 1 2) (small 0xFFFF 0xFFFF true)) (fun t =>
    t.getReg 3 == 0xFFFF && t.flags == zcnv false true true false) = true := by decide
theorem test_sub_borrows : after (exec (.sub 3 1 2) (small 0x7FFF 0xFFFF true)) (fun t =>
    t.getReg 3 == 0x8000 && t.flags == zcnv false true true true) = true := by decide
theorem test_sub_complement : after
    (exec (.sub 3 1 2) { small 0x0003 0x0005 false with params.subCarryIsBorrow := false }) (fun t =>
    t.getReg 3 == 0xFFFE && t.flags == zcnv false false true false) = true := by decide
theorem test_subc_borrows : after (exec (.subc 3 1 2) (small 0x0005 0x0005 true)) (fun t =>
    t.getReg 3 == 0xFFFF && t.flags == zcnv false true true false) = true := by decide
theorem test_subc_overflows : after (exec (.subc 3 1 2) (small 0x8000 0x7FFF true)) (fun t =>
    t.getReg 3 == 0x0000 && t.flags == zcnv true false false true) = true := by decide
theorem test_and : after (exec (.and 3 1 2) (small 0x00F0 0x0F00 false)) (fun t =>
    t.getReg 3 == 0x0000 && t.flags.z && !t.flags.n) = true := by decide
theorem test_or : after (exec (.or 3 1 2) (small 0x8000 0x0001 false)) (fun t =>
    t.getReg 3 == 0x8001 && !t.flags.z && t.flags.n) = true := by decide
theorem test_xor : after (exec (.xor 1 1 2) (small 0xF0F0 0xFF00 false)) (fun t =>
    t.getReg 1 == 0x0FF0 && !t.flags.z && !t.flags.n) = true := by decide
theorem test_cmp : after (exec (.cmp 3 1 2) (small 0x0000 0x0001 false)) (fun t =>
    t.getReg 3 == 0x0300 && t.flags == zcnv false true true false) = true := by decide
theorem test_hadd_full : after (exec (.hadd 3 1 2) (small 0x8000 0x8000 true)) (fun t =>
    t.getReg 3 == 0x8000 && !t.flags.z && !t.flags.c && t.flags.n) = true := by decide
theorem test_hadd_shifts : after (exec (.hadd 3 1 2) (small 0x4005 0x0000 true)) (fun t =>
    t.getReg 3 == 0x2002 && !t.flags.z && t.flags.c && !t.flags.n) = true := by decide
/-- The source's own example S2, with its result under the default weight. -/
theorem test_haddc_two15 : after (exec (.haddc 3 1 2) (small 0x8000 0x8000 true)) (fun t =>
    t.getReg 3 == 0xC000 && !t.flags.z && !t.flags.c && t.flags.n) = true := by decide
theorem test_haddc_two16 : after
    (exec (.haddc 3 1 2) { small 0x0003 0x0000 true with params.haddcWeight := .two16 }) (fun t =>
    t.getReg 3 == 0x8001 && !t.flags.z && t.flags.c && t.flags.n) = true := by decide
theorem test_upsample : after (exec (.upsample 3 1 2) (small 0xAABB 0xCCDD false)) (fun t =>
    t.getReg 3 == 0xBBDD) = true := by decide
/-- The source's own example S1. -/
theorem test_byteswap : after (exec (.byteswap 3 1 2) (small 0xAABB 0xCCDD false)) (fun t =>
    t.getReg 3 == 0xBBCC) = true := by decide

/-- The state with all four flags equal to `f`, for the branches. -/
def flagged (f : Bool) : State := { small 0 0 false with flags := ⟨f, f, f, f⟩ }

/-- From pc 0x0010 with offset -3 the target is 0x000E, and the slot at 0x0011 comes first. -/
def branched (i : Instr) (f : Bool) (d : Option Pending) : Bool :=
  after (exec i (flagged f)) fun t => t.pc == 0x0011 && t.delay == d

theorem test_bz : branched (.bz 0x7D 0) true (some ⟨0x000E, 0⟩) = true ∧ branched (.bz 0x7D 0) false none = true := by decide
theorem test_bnz : branched (.bnz 0x7D 0) false (some ⟨0x000E, 0⟩) = true ∧ branched (.bnz 0x7D 0) true none = true := by decide
theorem test_bc : branched (.bc 0x7D 0) true (some ⟨0x000E, 0⟩) = true ∧ branched (.bc 0x7D 0) false none = true := by decide
theorem test_bnc : branched (.bnc 0x7D 0) false (some ⟨0x000E, 0⟩) = true ∧ branched (.bnc 0x7D 0) true none = true := by decide
theorem test_bn : branched (.bn 0x7D 0) true (some ⟨0x000E, 0⟩) = true ∧ branched (.bn 0x7D 0) false none = true := by decide
theorem test_bnn : branched (.bnn 0x7D 0) false (some ⟨0x000E, 0⟩) = true ∧ branched (.bnn 0x7D 0) true none = true := by decide
theorem test_bo : branched (.bo 0x7D 0) true (some ⟨0x000E, 0⟩) = true ∧ branched (.bo 0x7D 0) false none = true := by decide
theorem test_bno : branched (.bno 0x7D 0) false (some ⟨0x000E, 0⟩) = true ∧ branched (.bno 0x7D 0) true none = true := by decide

/-- The branch tests its own flag: with only `N` set, `bn` is taken and the other three are not. -/
theorem test_branch_flags :
    ([(Instr.bz 0 0, false), (.bc 0 0, false), (.bn 0 0, true), (.bo 0 0, false)].all fun p =>
      after (exec p.1 { small 0 0 false with flags := ⟨false, false, true, false⟩ }) fun t =>
        t.delay.isSome == p.2) = true := by decide

theorem test_slot_then_target : after (exec (.ldi 1 7) { small 0 0 false with delay := some ⟨0x0040, 0⟩ }) (fun t =>
    t.pc == 0x0040 && t.delay == none && t.getReg 1 == 7) = true := by decide

/-- `small` with the data word 0xBEEF at 0x0100 and 0x2222 at 0x0000. -/
def withData (a : Word) : State := (small a 0x1234 false).loadData [(0x0100, 0xBEEF), (0x0000, 0x2222)]

theorem test_ld_addresses :
    after (exec (.ld 3 1 0x7C) { withData 0x0104 with intrSinceLoad := true }) (fun t =>
      t.getReg 3 == 0xBEEF && !t.intrSinceLoad && t.draws == 0) = true ∧
    after (exec (.ld 1 1 1) (withData 0xFFFF)) (fun t => t.getReg 1 == 0x2222) = true := by decide
theorem test_st_wraps : after (exec (.st 1 0x40 2) (withData 0x0020)) (fun t =>
    t.dmem.get? 0x1FFC0 == some 0x12 && t.dmem.get? 0x1FFC1 == some 0x34 && t.dmem.get? 0x200 == some 0xBE) =
    true := by decide
/-- A word nothing has written is a draw, and the draw is counted (spec/20_memory.md R60). -/
theorem test_ld_draws : after (exec (.ld 3 1 0) (withData 0x0400)) (fun t => t.draws == 1) = true := by decide
theorem test_ldcr : after (exec (.ldcr 1 3 0) (small 0 0 false)) (fun t => t.getReg 1 == 3) = true := by decide
theorem test_stcr : after (exec (.stcr 5 1 0) (small 0x1234 0 false)) (fun t =>
    t.getCr 5 == 0x1234 && t.getCr 4 == 4) = true := by decide
theorem test_syscall : after (exec (.syscall 42 0) (small 0 0 false)) (fun t =>
    t.stopped == some (.syscall 42) && t.pc == 0x0011) = true := by decide
theorem test_ja_same_register : after (exec (.ja 3 3 0) (small 0 0 false)) (fun t =>
    t.getReg 3 == 0x0011 && t.pc == 0x0300 && t.delay == none) = true := by decide
/-- With two delay slots one is left after the first (spec/45_system_and_jumps.md R175). -/
theorem test_ja_slots : after (exec (.ja 3 7 0) { small 0 0 false with params.jumpDelaySlots := 2 }) (fun t =>
    t.getReg 7 == 0x0011 && t.pc == 0x0011 && t.delay == some ⟨0x0300, 1⟩) = true := by decide
theorem test_j_back : after (exec (.j 0x76 7) { small 0 0 false with pc := 0x0020 }) (fun t =>
    t.getReg 7 == 0x0021 && t.pc == 0x0017) = true := by decide
theorem test_ldp : after
    (exec (.ldp 2 1 0) { (small 4 0 false).loadProgram [(4, 0xABCD)] with intrSinceLoad := true }) (fun t =>
    t.getReg 2 == 0xABCD && t.intrSinceLoad) = true := by decide
theorem test_stCond_stores : after (exec (.stCond 3 5 0) (small 0 0 false)) (fun t =>
    t.dmem.get? 0x601 == some 0x42 && !t.intrSinceLoad) = true := by decide
theorem test_stCond_refrains : after
    (exec (.stCond 3 5 0) { small 0 0 false with intrSinceLoad := true }) (fun t =>
    t.dmem == [] && t.intrSinceLoad) = true := by decide
theorem test_reti_faults : exec (.reti 0) (small 0 0 false) = .fault (.reti 0x0010) := rfl
theorem test_reti_resumes : after
    (exec (.reti 0) { small 0 0 false with env.retis := ⟨[.resume [.setPc (.const 0x0123)]], .default⟩ }) (fun t =>
    t.pc == 0x0123 && t.events == [.reti] && t.env.retis == .default) = true := by decide
theorem test_break : after (exec (.brk 0) { small 0 0 false with pc := 0x0006 }) (fun t =>
    t.stopped == some .brk && t.pc == 0x0007) = true := by decide

/-- Program P6: a branch in the slot of a taken branch. -/
theorem test_slot_fault : exec (.bz 1 0) { small 0 0 false with delay := some ⟨0x0005, 0⟩, pc := 0x0003 } =
    .fault (.delaySlotControl 0x6008 0x0003) := rfl
theorem test_unassigned_faults :
    step (State.reset.withFetchWord 16 0xE000) = .fault (.illegalInstruction 0xE000 0) := rfl
theorem test_placed_word_runs : after (step (State.reset.withFetchWord 16 0x283B)) (fun t =>
    t.getReg 3 == 7 && t.pc == 1) = true := by decide

/-- A hardwired zero register reads as zero and drops writes (spec/10_state.md R23). -/
theorem test_zero_register : after
    (exec (.addi 0 5) { small 0 0 false with params.r0HardwiredZero := true }) (fun t =>
    t.getReg 0 == 0 && t.flags == zcnv false false false false) = true := by decide

/-- Storing back and forth leaves a canonical memory (spec/20_memory.md R51). -/
theorem test_memory_canonical :
    (State.reset.loadData [(3, 1), (1, 2), (3, 4)]).dmem = [(2, 0), (3, 2), (6, 0), (7, 4)] ∧
    State.reset.dmem.wf = true := by decide

/-- An interrupt handler's environment (spec/60_exceptions.md R212): while cell 1 is 0, an interrupt is
delivered, which saves the pc and the flags in cells 6 and 7, sets cell 1 and goes to 0x0100; `reti`
restores both and blocks the conditional store again. Every answer is a function of the state. -/
def handlerEnv : Env :=
  { Env.default with
    interrupts := ⟨[], .ifEq (.cr 1) (.const 0)
      (.give (some ⟨3, [.setCr 6 .pc, .setCr 7 .flags, .setCr 1 (.const 1), .setPc (.const 0x0100)]⟩))
      .default⟩
    retis := .always (.resume [.setPc (.cr 6), .setFlags (.cr 7), .setIntr (.const 1)]) }

theorem test_handler_enters : after (step { small 0 0 true with env := handlerEnv, cr := #v[0, 0, 0, 0, 0, 0, 0, 0] }) (fun t =>
    t.pc == 0x0100 && t.getCr 6 == 0x0010 && t.getCr 7 == 4 && t.intrSinceLoad && t.interruptAnswer == none) = true := by
  decide
theorem test_handler_returns : after
    (exec (.reti 0) { small 0 0 false with env := handlerEnv, cr := #v[0, 1, 0, 0, 0, 0, 0x0010, 4] }) (fun t =>
    t.pc == 0x0010 && t.flags == zcnv false true false false && t.intrSinceLoad && t.env == handlerEnv) = true := by
  decide

/-- A service that resumes every `syscall`, adding 1 to register 1 for code 42 (spec/60_exceptions.md
R204): it is the same environment after each call. -/
def serviceEnv : Env :=
  { Env.default with
    syscalls := ⟨[], .ifEq (.arg 0) (.const 42)
      (.give (.answer (.resume [.setReg 1 (.op .add (.reg 1) (.const 1))]))) (.give (.answer (.resume [])))⟩ }

theorem test_service : after (exec (.syscall 42 0) { small 8 0 false with env := serviceEnv }) (fun t =>
    t.getReg 1 == 9 && t.pc == 0x0011 && t.stopped == none && t.env == serviceEnv) = true := by decide

/-- The changes of one answer are all computed from the state handed over: two registers are exchanged. -/
theorem test_changes_at_once : after (exec (.brk 0) { small 8 5 false with
    env.breaks := .always (.answer (.resume [.setReg 1 (.reg 2), .setReg 2 (.reg 1)])) }) (fun t =>
    t.getReg 1 == 5 && t.getReg 2 == 8) = true := by decide

/-- An environment that refuses writes of control register 3 only, as a privilege check might
(spec/60_exceptions.md R215), and reads register 4 as the data word register 2 points to. -/
def checkedEnv : Env :=
  { Env.default with
    crWrites := ⟨[], .ifEq (.arg 0) (.const 3) (.give .refuse) .default⟩
    crReads := ⟨[], .ifEq (.arg 0) (.const 4) (.give (.value (.data (.reg 2) (.const 7)) [])) .default⟩ }

theorem test_checked_writes :
    exec (.stcr 3 1 0) (({ small 8 0 false with env := checkedEnv })) = .refused (.crWrite 3) ∧
    after (exec (.stcr 2 1 0) { small 8 0 false with env := checkedEnv }) (fun t => t.getCr 2 == 8) = true :=
  ⟨rfl, by decide⟩
theorem test_checked_reads :
    after (exec (.ldcr 1 4 0) { small 0 3 false with env := checkedEnv, dmem := [(6, 0x12), (7, 0x34)] }) (fun t =>
      t.getReg 1 == 0x1234) = true ∧
    after (exec (.ldcr 1 4 0) { small 0 5 false with env := checkedEnv }) (fun t =>
      t.getReg 1 == 7 && t.draws == 0) = true ∧
    after (exec (.ldcr 1 3 0) { small 0 5 false with env := checkedEnv }) (fun t => t.getReg 1 == 3) = true := by
  decide

/-! ### Witnesses: states and operands that meet the hypotheses of each statement, one for each clause -/

/-- `small` in the slot of a taken branch. -/
def inSlot : State := { small 1 2 true with delay := some ⟨0xFFFF, 0⟩ }

/-- `small` with a machine of the other parameter values. -/
def otherParams : State :=
  { small 1 0 true with
    params :=
      { Params.default with
        r0HardwiredZero := true, jumpDelaySlots := 3, haddcWeight := .two16, lduiKeepsLowByte := true,
        subCarryIsBorrow := false, stCondFlags := .preserve, ldpClearsIntr := true,
        imageByteOrder := .little } }

/-- `small` with word 0xFFFF of both memories absent and data word 0x8000 a device. -/
def mapped (a : Word) : State :=
  { small a 0x1234 false with
    env := { Env.default with dataMap := [(0xFFFF, .absent), (0x8000, .device)], progAbsent := [0xFFFF] } }

/-- `small` with the given environment. -/
def within (e : Env) : State := { small 0 0 false with env := e }

theorem witness_EncodeOfDecodeIsIdentity :
    decode 0x0000 = .ok (.addi 0 0) ∧ decode 0xFFFF = .ok (.brk 0x1FF) := ⟨rfl, rfl⟩

theorem witness_UnassignedWordsAreTheTwoRanges :
    decode 0x5800 = .error (.unassignedRegisterAlu 0x5800) ∧
    decode 0x5FFF = .error (.unassignedRegisterAlu 0x5FFF) ∧
    decode 0xE000 = .error (.unassignedGroup1110 0xE000) ∧
    decode 0xEFFF = .error (.unassignedGroup1110 0xEFFF) ∧
    decode 0x57FF = .ok (.byteswap 7 7 7) ∧ decode 0x6000 = .ok (.bz 0 0) ∧
    decode 0xDFFF = .ok (.stcr 7 7 63) ∧ decode 0xF000 = .ok (.syscall 0 0) := by
  refine ⟨rfl, rfl, rfl, rfl, rfl, rfl, rfl, rfl⟩

theorem witness_OpcodeMapDecidesTheRow :
    0xF7FF#16 &&& (opcodeRow (.j 0 0)).1 = (opcodeRow (.j 0 0)).2 ∧ decode 0xF7FF = .ok (.j 0x7F 7) ∧
    0xF800#16 &&& (opcodeRow (.j 0 0)).1 ≠ (opcodeRow (.j 0 0)).2 ∧ decode 0xF800 = .ok (.ldp 0 0 0) :=
  ⟨by decide, rfl, by decide, rfl⟩

theorem witness_IgnoredBitsTakeNoPart_control :
    decode 0x63FF = .ok (.bz 0x7F 7) ∧ (0x63FF ^^^ 0x63F8) &&& ~~~(ignoredBits (.bz 0x7F 7)) = 0 ∧
    isControl (.bz 0x7F 7) = true ∧ inSlot.delay = some ⟨0xFFFF, 0⟩ ∧ (small 1 2 true).delay = none :=
  ⟨rfl, by decide, rfl, rfl, rfl⟩

theorem witness_IgnoredBitsTakeNoPart_other :
    decode 0xC1F8 = .ok (.ldcr 0 0 63) ∧ (0xC1F8 ^^^ 0xC000) &&& ~~~(ignoredBits (.ldcr 0 0 63)) = 0 ∧
    isControl (.ldcr 0 0 63) = false := ⟨rfl, by decide, rfl⟩

/-- Both cases of a register write, of the low byte of `ldui`, of the borrow and of the carry weight. -/
theorem witness_parameters :
    otherParams.isZeroReg 0 = true ∧ otherParams.isZeroReg 1 = false ∧
    (small 1 2 true).isZeroReg 0 = false ∧
    otherParams.params.lduiKeepsLowByte = true ∧ (small 1 2 true).params.lduiKeepsLowByte = false ∧
    otherParams.params.subCarryIsBorrow = false ∧ (small 1 2 true).params.subCarryIsBorrow = true ∧
    otherParams.params.haddcWeight = .two16 ∧ (small 1 2 true).params.haddcWeight = .two15 ∧
    (small 1 2 true).flags.c = true ∧ (small 1 2 false).flags.c = false := by decide

/-- `AddipcAddsToPc`, `BranchesTestTheirFlags`, `JaJumpsAndLinks`, `JJumpsAndLinks`. -/
theorem witness_slot_clauses :
    (small 1 2 true).delay = none ∧ inSlot.delay = some ⟨0xFFFF, 0⟩ ∧
    (small 1 2 true).params.jumpDelaySlots = 0 := by decide

theorem witness_JumpsWithDelaySlots :
    otherParams.delay = none ∧ otherParams.params.jumpDelaySlots = 2 + 1 ∧
    otherParams.getReg 3 = 0x0300 ∧ otherParams.env.crReads = .default ∧ otherParams.env.crWrites = .default ∧
    (∀ k ∈ [Instr.ldi 1 7, .add 1 1 1, .stcr 2 1 0], isControl k = false) := by decide

/-- The three slots of that machine: the first two go on at the next word, the last at the target. -/
theorem witness_JumpsWithDelaySlots_run :
    (∃ t, exec (.ja 3 7 0) otherParams = .next t ∧ t.delay = some ⟨0x0300, 2⟩ ∧
      ∃ u, ExecsTo [.ldi 1 7, .add 1 1 1] t u ∧ u.pc = 0x0013 ∧ u.delay = some ⟨0x0300, 0⟩) ∧
    ∃ t, exec (.ja 3 7 0) otherParams = .next t ∧
      ∃ u, ExecsTo [.ldi 1 7, .add 1 1 1, .stcr 2 1 0] t u ∧ u.pc = 0x0300 ∧ u.delay = none :=
  ⟨⟨_, rfl, rfl, _, ⟨_, rfl, _, rfl, rfl⟩, rfl, rfl⟩, ⟨_, rfl, _, ⟨_, rfl, _, rfl, _, rfl, rfl⟩, rfl, rfl⟩⟩

theorem witness_TwoWordArithmetic :
    (1 : Reg) ≠ 2 ∧ (1 : Reg) ≠ 4 ∧ (1 : Reg) ≠ 5 ∧ (small 1 2 true).isZeroReg 1 = false ∧
    (small 1 2 true).isZeroReg 5 = false ∧ (small 1 2 true).params.subCarryIsBorrow = true := by decide

theorem witness_HaddcRotatesRightAtWeightTwo16 :
    otherParams.params.haddcWeight = .two16 ∧ otherParams.getReg 2 = 0 ∧
    otherParams.isZeroReg 1 = false := by decide

theorem witness_SlotThenTarget :
    (small 1 2 true).delay = none ∧ isControl (.addi 1 1) = false ∧
    branched (.bz 0x7D 0) true (some ⟨0x000E, 0⟩) = true ∧ branched (.bz 0x7D 0) false none = true ∧
    after (exec (.addi 1 1) { small 1 2 true with delay := some ⟨0x000E, 0⟩ }) (fun t => t.pc == 0x000E) = true := by
  decide

theorem witness_ControlInstructionsFaultInTheSlot :
    exec (.addipc 1 3) inSlot = .fault (.delaySlotControl 0x3819 0x0010) ∧
    isControl (.addipc 1 3) = true ∧ inSlot.delay ≠ none := ⟨rfl, rfl, by decide⟩

theorem witness_LdLoadsAWord_and_StStoresAWord :
    (mapped 0x7FFF).env.region (0x7FFF + 0) = .ram ∧
    (withData 0x0100).env.region 0x0100 = .ram ∧ (withData 0x0100).dmem.holds 0x0100 = true ∧
    (withData 0x0100).dmem.holds 0x0101 = false ∧
    (mapped 0x7FFF).env.region (BitVec.ofInt 16 ((mapped 0x7FFF).getReg 1).toNat + 1) = .device ∧
    (mapped 0x0000).env.region (BitVec.ofInt 16 (((mapped 0x0000).getReg 1).toNat + (0x7F#7).toInt)) =
      .absent := by decide

theorem witness_LdpReadsProgramMemory :
    (mapped 0xFFFE).env.hasProgram ((mapped 0xFFFE).getReg 1) = true ∧
    (mapped 0xFFFF).env.hasProgram ((mapped 0xFFFF).getReg 1) = false ∧
    ((small 4 0 false).loadProgram [(4, 0xABCD)]).pmem.holds 4 = true ∧
    (small 4 0 false).params.ldpClearsIntr = false ∧ otherParams.params.ldpClearsIntr = true := by decide

theorem witness_StCondStoresUnlessInterrupted :
    { mapped 0 with intrSinceLoad := true }.intrSinceLoad = true ∧ (mapped 0).intrSinceLoad = false ∧
    (mapped 0).env.region ((mapped 0).getReg 1) = .ram ∧
    (mapped 0x8000).env.region ((mapped 0x8000).getReg 1) = .device ∧
    (mapped 0xFFFF).env.region ((mapped 0xFFFF).getReg 1) = .absent ∧
    (mapped 0).params.stCondFlags = .draw ∧ otherParams.params.stCondFlags = .preserve := by decide

theorem witness_LoadAfterStore :
    (withData 0xFFFF).env.region ((withData 0xFFFF).effAddr 1 1) = .ram ∧
    (withData 0xFFFF).env.region ((withData 0xFFFF).effAddr 1 2) = .ram ∧
    (withData 0xFFFF).isZeroReg 3 = false ∧
    (withData 0xFFFF).effAddr 1 1 = (withData 0xFFFF).effAddr 1 1 ∧
    (withData 0xFFFF).effAddr 1 2 ≠ (withData 0xFFFF).effAddr 1 1 := by decide

theorem witness_InterruptBlocksTheConditionalStore :
    after (exec (.ld 3 1 0) (withData 0x0100)) (fun t => t.env.region (t.getReg 5) == .ram) = true ∧
    (Interrupt.mk 1 []).deliver = [] := by decide

theorem witness_LdcrReadsAControlRegister :
    (small 1 2 true).env.crReads.answer .cell (small 1 2 true) [1] = .cell ∧
    (within { Env.default with crReads := ⟨[.cell, .refuse], .default⟩ }).crReadAnswer 1 = .cell ∧
    (within { Env.default with crReads := .always (.value .pc [.setIntr (.const 1)]) }).crReadAnswer 1 =
      .value .pc [.setIntr (.const 1)] ∧
    (within { Env.default with crReads := .always .refuse }).crReadAnswer 1 = .refuse := by decide

theorem witness_StcrWritesAControlRegister :
    (small 1 2 true).env.crWrites.answer .cell (small 1 2 true) [1, 9] = .cell ∧
    (within { Env.default with crWrites := ⟨[.cell, .refuse], .default⟩ }).crWriteAnswer 1 9 = .cell ∧
    (within { Env.default with crWrites := .always (.acts [.setCr 1 (.arg 1)]) }).crWriteAnswer 1 9 =
      .acts [.setCr 1 (.arg 1)] ∧
    (within checkedEnv).crWriteAnswer 3 9 = .refuse := by decide

theorem witness_SyscallGoesToTheEnvironment :
    (small 1 2 true).delay = none ∧ inSlot.delay = some ⟨0xFFFF, 0⟩ ∧
    (small 1 2 true).syscallAnswer 63 = .stop ∧
    (within { Env.default with syscalls := ⟨[.stop], .give (.answer .fault)⟩ }).syscallAnswer 63 = .stop ∧
    (within serviceEnv).syscallAnswer 63 = .answer (.resume []) ∧
    (within { Env.default with syscalls := .always (.answer .fault) }).syscallAnswer 63 = .answer .fault ∧
    (within Env.default).delay = none := by decide

theorem witness_BreakGoesToTheEnvironment :
    (small 1 2 true).delay = none ∧ inSlot.delay = some ⟨0xFFFF, 0⟩ ∧ (small 1 2 true).breakAnswer = .stop ∧
    (within { Env.default with breaks := ⟨[.stop], .give (.answer .fault)⟩ }).breakAnswer = .stop ∧
    (within { Env.default with breaks := .always (.answer (.resume [])) }).breakAnswer = .answer (.resume []) ∧
    (within { Env.default with breaks := ⟨[.answer .fault], .default⟩ }).breakAnswer = .answer .fault := by decide

theorem witness_RetiGoesToTheEnvironment :
    (small 1 2 true).delay = none ∧ inSlot.delay = some ⟨0xFFFF, 0⟩ ∧ (small 1 2 true).retiAnswer = .fault ∧
    (within handlerEnv).retiAnswer = .resume [.setPc (.cr 6), .setFlags (.cr 7), .setIntr (.const 1)] ∧
    (within { Env.default with retis := ⟨[.fault], .give (.resume [])⟩ }).retiAnswer = .fault := by decide

/-- The forms of answers that `Answers.Lawful` tells apart. -/
theorem witness_Answers_Lawful :
    (small 1 2 true).env.retis = .default ∧
    (within { Env.default with retis := ⟨[.fault], .give (.resume [])⟩ }).env.retis.coming = [.fault] ∧
    handlerEnv.retis = .always (.resume [.setPc (.cr 6), .setFlags (.cr 7), .setIntr (.const 1)]) ∧
    serviceEnv.syscalls.plan ≠ .default ∧ serviceEnv.syscalls.coming = [] := by decide

/-- The word 0x283B, `ldi r3, 7`, stands at the pc. -/
def placed (w : Word) : State := (small 1 2 true).loadProgram [(0x0010, w)]

theorem witness_StepRunsTheDecodedInstruction :
    (placed 0x283B).stopped = none ∧ (placed 0x283B).noInterrupt ∧
    (placed 0x283B).env.hasProgram (placed 0x283B).pc = true ∧
    decode (placed 0x283B).fetchedWord = .ok (.ldi 3 7) ∧
    (placed 0x283B).pmem.holds (placed 0x283B).pc = true :=
  ⟨rfl, .inr rfl, by decide, rfl, by decide⟩

theorem witness_StepRunsTheDecodedInstruction_slot :
    { placed 0x283B with delay := some ⟨1, 0⟩ }.noInterrupt ∧
    { placed 0x283B with env.interrupts := ⟨[none, some ⟨1, []⟩], .default⟩ }.noInterrupt :=
  ⟨.inl (by decide), .inr rfl⟩

/-- A state whose pc stands at a word nothing has loaded. -/
theorem witness_StepRunsTheDecodedInstruction_drawn :
    (small 1 2 true).stopped = none ∧ (small 1 2 true).noInterrupt ∧
    (small 1 2 true).env.hasProgram (small 1 2 true).pc = true ∧
    (small 1 2 true).pmem.get? (2 * (small 1 2 true).pc.toNat) = none ∧
    (small 1 2 true).pmem.get? (2 * (small 1 2 true).pc.toNat + 1) = none :=
  ⟨rfl, .inr rfl, by decide, rfl, rfl⟩

theorem witness_PlacedWordIsRunNext : decodeTableWord 16 0xFFFF = some (.brk 0x1FF) := rfl

theorem witness_UnassignedWordsAreIllegal :
    (placed 0x5800).stopped = none ∧ (placed 0x5800).noInterrupt ∧
    (placed 0x5800).env.hasProgram (placed 0x5800).pc = true ∧
    (placed 0x5800).fetchedWord = 0x5800 ∧ (placed 0x5FFF).fetchedWord = 0x5FFF ∧
    (placed 0xE000).fetchedWord = 0xE000 ∧ (placed 0xEFFF).fetchedWord = 0xEFFF ∧
    (placed 0x5800).fetchState.illegalAnswer 0x5800 = .fault ∧
    { placed 0x5FFF with env.illegals := ⟨[.fault], .give (.resume [])⟩ }.fetchState.illegalAnswer 0x5FFF =
      .fault ∧
    { placed 0xE000 with env.illegals := .always (.resume [.setPc (.arg 0)]) }.fetchState.illegalAnswer
      0xE000 = .resume [.setPc (.arg 0)] :=
  ⟨rfl, .inr rfl, by decide, rfl, rfl, rfl, rfl, rfl, rfl, rfl⟩

theorem witness_UnassignedWordsAreIllegal_slot :
    { placed 0x5800 with delay := some ⟨1, 0⟩ }.noInterrupt ∧ (placed 0x5800).delay = none :=
  ⟨.inl (by decide), rfl⟩

theorem witness_InterruptsAreDeliveredBetweenInstructions :
    { placed 0x283B with env.interrupts := .always (some ⟨1, [.setPc .pc]⟩) }.interruptAnswer =
      some ⟨1, [.setPc .pc]⟩ ∧ (placed 0x283B).stopped = none ∧
    { placed 0x283B with env.interrupts := ⟨[some ⟨1, []⟩], .default⟩ }.interruptAnswer = some ⟨1, []⟩ ∧
    { placed 0x283B with env.interrupts := .default }.delay = none ∧
    after (step { placed 0x283B with env.interrupts := .always (some ⟨1, []⟩), delay := some ⟨0x0040, 0⟩ })
      (fun t => t.pc == 0x0040) = true := by decide

theorem witness_AbsentFetchIsRefused :
    { mapped 0 with pc := 0xFFFF }.stopped = none ∧ { mapped 0 with pc := 0xFFFF }.noInterrupt ∧
    { mapped 0 with pc := 0xFFFF }.env.hasProgram 0xFFFF = false := ⟨rfl, .inr rfl, by decide⟩

theorem witness_EndedRunsStayEnded : { small 1 2 true with stopped := some .brk }.stopped ≠ none := by decide

theorem witness_MemoryInv : ((small 1 2 true).withFetchWord 16 0xA819).MemoryInv ∧
    after (step ((small 1 2 true).withFetchWord 16 0xA819)) (fun t => t.dmem.length == 2) = true :=
  ⟨⟨rfl, by decide, fun _ => rfl, show (Memory.storeWord .big [] 0x0010 0xA819).whole from
      Memory.storeWord_whole (fun _ => rfl) _ _⟩, by decide⟩

theorem witness_CanonicalMemoriesAreEqualData :
    Memory.wf [(0, 1), (131071, 2)] = true ∧ ((Memory.set [] 131071 2).set 0 1) = [(0, 1), (131071, 2)] := by
  decide

/-- In the default environment, and in one that makes other changes at every `syscall`. -/
theorem witness_ProgramMemoryIsConstant :
    (small 1 2 true).env.keepsProgram ∧ serviceEnv.keepsProgram ∧ handlerEnv.keepsProgram ∧
    after (step ((within serviceEnv).withFetchWord 16 0xF150)) (fun t => t.pc == 0x0011) = true := by
  refine ⟨fun _ _ h => ?_, fun _ _ h => ?_, fun _ _ h => ?_, by decide⟩
  · have : (small 1 2 true).env.changes = [] := rfl
    rw [this] at h
    cases h
  · have : serviceEnv.changes = [.setReg 1 (.op .add (.reg 1) (.const 1))] := rfl
    rw [this] at h
    simp at h
  · have : handlerEnv.changes = [.setPc (.cr 6), .setFlags (.cr 7), .setIntr (.const 1), .setCr 6 .pc,
        .setCr 7 .flags, .setCr 1 (.const 1), .setPc (.const 0x0100)] := rfl
    rw [this] at h
    simp at h

theorem witness_StepKeepsParametersAndMaps : after (step (inSlot.withFetchWord 16 0x283B)) (fun _ => true) = true := by decide

theorem witness_RegistersHoldWhatWasWritten :
    otherParams.params.r0HardwiredZero = true ∧ (small 1 2 true).params.r0HardwiredZero = false ∧
    (1 : Reg) ≠ 0 ∧ (7 : Reg) ≠ 0 := by decide

theorem witness_OnlyTheListedInstructionsWriteFlags :
    writesFlags (.stcr 1 2 0) = false ∧ State.reset.env.quiet ∧
    after (exec (.stcr 1 2 0) State.reset) (fun _ => true) = true :=
  ⟨rfl, ⟨rfl, rfl, rfl, rfl, rfl, rfl, rfl⟩, by decide⟩

/-- An instruction that asks nothing, and two that ask an environment that looks at no flag. -/
theorem witness_OnlyTheListedInstructionsReadFlags :
    readsFlags (.add 1 2 3) = false ∧ asksEnv (.add 1 2 3) = false ∧
    readsFlags (.stcr 3 1 0) = false ∧ asksEnv (.stcr 3 1 0) = true ∧ checkedEnv.flagBlind ∧
    asksEnv (.syscall 42 0) = true ∧ serviceEnv.flagBlind := by
  refine ⟨rfl, rfl, rfl, rfl, ?_, rfl, ?_⟩ <;> unfold Env.flagBlind <;> decide

theorem witness_DefaultEnvironmentCompletes :
    State.reset.env.quiet ∧ State.reset.env.allRam ∧ State.reset.delay = none ∧
    (∀ ign, Instr.brk 0 ≠ .reti ign) ∧ isControl (.ld 1 2 3) = false ∧ inSlot.env.allRam :=
  ⟨⟨rfl, rfl, rfl, rfl, rfl, rfl, rfl⟩, ⟨rfl, rfl⟩, rfl, (fun _ h => nomatch h), rfl, ⟨rfl, rfl⟩⟩

theorem witness_FaultsAndRefusalsAreTheSpecs_faults :
    exec (.j 0 1) inSlot = .fault (.delaySlotControl 0xF401 0x0010) ∧
    exec (.reti 0) (small 1 2 true) = .fault (.reti 0x0010) ∧
    exec (.reti 0) (within { Env.default with retis := ⟨[.fault], .default⟩ }) = .fault (.reti 0x0010) ∧
    exec (.syscall 3 0) (within { Env.default with syscalls := .always (.answer .fault) }) =
      .fault (.syscall 3 0x0011) ∧
    exec (.brk 0) (within { Env.default with breaks := .always (.answer .fault) }) = .fault (.brk 0x0011) ∧
    step (placed 0xFC00) = .fault (.reti 0x0010) ∧
    step (placed 0x5FFF) = .fault (.illegalInstruction 0x5FFF 0x0010) :=
  ⟨rfl, rfl, rfl, rfl, rfl, rfl, rfl⟩

theorem witness_FaultsAndRefusalsAreTheSpecs_refusals :
    exec (.ld 3 1 0) (mapped 0xFFFF) = .refused (.absentData 0xFFFF) ∧
    exec (.st 1 0 3) (mapped 0xFFFF) = .refused (.absentData 0xFFFF) ∧
    exec (.stCond 1 3 0) (mapped 0xFFFF) = .refused (.absentData 0xFFFF) ∧
    exec (.ldp 3 1 0) (mapped 0xFFFF) = .refused (.absentProgram 0xFFFF) ∧
    exec (.ldcr 3 1 0) (within { Env.default with crReads := .always .refuse }) = .refused (.crRead 1) ∧
    exec (.stcr 1 3 0) (within { Env.default with crWrites := ⟨[.refuse], .default⟩ }) = .refused (.crWrite 1) ∧
    step { mapped 0 with pc := 0xFFFF } = .refused (.absentProgram 0xFFFF) ∧
    step ((mapped 0xFFFF).withFetchWord 16 0x8403) = .refused (.absentData 0xFFFF) :=
  ⟨rfl, rfl, rfl, rfl, rfl, rfl, rfl, rfl⟩

/-- The same data word in images of the two byte orders. -/
theorem witness_ByteOrderIsNotObservable :
    SameWords (State.reset.storeData 3 0x1234)
      ({ State.reset with params.imageByteOrder := .little }.storeData 3 0x1234) := by
  refine ⟨⟨.little, _, _, rfl⟩, fun a free => ?_, fun a free => rfl⟩
  by_cases h : a = 3
  · rw [h]
    exact (Memory.loadWord_storeWord_same .little [] 3 0x1234 free).trans
      (Memory.loadWord_storeWord_same .big [] 3 0x1234 free).symm
  · exact (Memory.loadWord_storeWord_other (o := .little) (m := []) h).trans
      (Memory.loadWord_storeWord_other (o := .big) (m := []) h).symm

end Sys2Proof.Tests
end

section
/-! The parameters (spec/00_scope.md R6) and the two memory maps (spec/60_exceptions.md R203) are no
state of the machine: holding given values of them is a stable property, so every step keeps it. -/

namespace Sys2Proof.Machine

/-- `t` has the parameters and the memory maps of `s`. -/
structure SameParamsAndMaps (s t : State) : Prop where
  params : t.params = s.params
  dataMap : t.env.dataMap = s.env.dataMap
  progAbsent : t.env.progAbsent = s.env.progAbsent

theorem SameParamsAndMaps.refl (s : State) : SameParamsAndMaps s s := ⟨rfl, rfl, rfl⟩

/-- Stores of words, the environment's own among them, write neither parameters nor maps. -/
theorem stable_sameParamsAndMaps (s : State) : Stable true (SameParamsAndMaps s) where
  same h hs := ⟨h.params.trans hs.params, h.dataMap.trans hs.dataMap, h.progAbsent.trans hs.progAbsent⟩
  data _ _ _ hs := ⟨hs.params, hs.dataMap, hs.progAbsent⟩
  prog _ _ _ _ hs := ⟨hs.params, hs.dataMap, hs.progAbsent⟩

/-- Settles O53: having the parameters and maps of the state before the step is stable, and holds of
that state itself. -/
theorem stepKeepsParametersAndMaps : Obligations.StepKeepsParametersAndMaps := by
  intro s t hstep
  obtain ⟨hparams, hdata, hprog⟩ := (stable_sameParamsAndMaps s).step_keeps (.refl s) hstep
  exact ⟨hparams, hdata, hprog⟩

end Sys2Proof.Machine
end

section
/-! The registers and the flags (spec/10_state.md R23, R32, R36): what a hardwired zero register does,
which instructions leave the flags, and which look at none. -/

namespace Sys2Proof.Machine

/-! ### The hardwired zero register -/

theorem State.isZeroReg_iff {s : State} {r : Reg} :
    s.isZeroReg r = true ↔ s.params.r0HardwiredZero = true ∧ r = 0 := by
  simp [State.isZeroReg]

/-- A write to a hardwired zero register is dropped. -/
theorem State.setReg_of_isZeroReg {s : State} {r : Reg} (h : s.isZeroReg r = true) (v : Word) :
    s.setReg r v = s := by
  simp [State.setReg, h]

/-- Settles O55: reads after writes, by whether the register is the hardwired one. -/
theorem registersHoldWhatWasWritten : Obligations.RegistersHoldWhatWasWritten := by
  intro s r q v
  refine ⟨fun hz => ?_, fun hr => ?_, fun hq => ?_⟩
  · have zero : s.isZeroReg 0 = true := State.isZeroReg_iff.2 ⟨hz, rfl⟩
    exact ⟨State.getReg_of_isZeroReg zero, State.setReg_of_isZeroReg zero v⟩
  · have plain : ¬ s.isZeroReg r = true := fun k => by
      obtain ⟨hz, h0⟩ := State.isZeroReg_iff.1 k
      simp [hz, h0] at hr
    rw [State.getReg_setReg, if_pos rfl, if_neg plain]
  · rw [State.getReg_setReg, if_neg hq]

/-! ### What leaves the flags -/

theorem State.readMem_flags (s : State) (m : Memory) (a : Word) : (s.readMem m a).2.flags = s.flags := by
  rcases State.readMem_snd s m a with h | h <;> rw [h]
  exact State.drawn_flags s 1

theorem State.readData_flags {s : State} {a : Word} {p : Word × State} (h : s.readData a = .ok p) :
    p.2.flags = s.flags := by
  rcases State.readData_cases s a with ⟨-, e⟩ | ⟨-, e⟩ | ⟨-, e⟩ <;> rw [e] at h <;> cases h
  · exact State.readMem_flags s s.dmem a
  · rfl

theorem State.readProg_flags {s : State} {a : Word} {p : Word × State} (h : s.readProg a = .ok p) :
    p.2.flags = s.flags := by
  unfold State.readProg at h
  split at h
  · cases h; exact State.readMem_flags s s.pmem a
  · cases h

theorem State.writeDataIf_flags {s t : State} {doIt : Bool} {a v : Word}
    (h : s.writeDataIf doIt a v = .ok t) : t.flags = s.flags := by
  rcases State.writeDataIf_cases s doIt a v with ⟨-, e⟩ | ⟨-, -, e⟩ | ⟨-, -, e⟩ | ⟨-, -, e⟩ <;>
    rw [e] at h <;> cases h <;> rfl

theorem State.branch_flags {s t : State} {w : Word} {c : Bool} {off : BitVec 7}
    (h : s.branch w c off = .next t) : t.flags = s.flags := by
  obtain ⟨-, h⟩ := State.outsideSlot_next h
  cases h; rfl

theorem State.jump_flags {s t : State} {w target : Word} {link : Reg}
    (h : s.jump w target link = .next t) : t.flags = s.flags := by
  obtain ⟨-, h⟩ := State.outsideSlot_next h
  cases h
  split <;> exact State.setReg_flags s link _

/-- The default answers are not used up. -/
theorem Answers.rest_of_default {α : Type} {q : Answers α} (h : q = .default) : q.rest = q := by
  rw [h, Answers.default_rest]

theorem Answers.answer_of_default {α : Type} {q : Answers α} (h : q = .default) (d : α) (s : State)
    (args : List Word) : q.answer d s args = d := by
  rw [h, Answers.default_answer]

/-- By default `Env.CrRead` answers the plain cell (spec/10_state.md R41). -/
theorem State.readCr_of_default {s : State} (h : s.env.crReads = .default) (n : CrNum) :
    s.readCr n = .ok (s.getCr n, s) := by
  simp only [State.readCr, State.crReadAnswer, Answers.rest_of_default h, Answers.answer_of_default h]

/-- By default `Env.CrWrite` writes the plain cell (spec/10_state.md R41). -/
theorem State.writeCr_of_default {s : State} (h : s.env.crWrites = .default) (n : CrNum) (v : Word) :
    s.writeCr n v = .ok (s.setCr n v) := by
  simp only [State.writeCr, State.crWriteAnswer, Answers.rest_of_default h, Answers.answer_of_default h]

/-- By default `Env.syscall` ends the run (spec/60_exceptions.md R204). -/
theorem State.raiseSyscall_of_default {s : State} (h : s.env.syscalls = .default) (code : BitVec 6) :
    s.raiseSyscall code = .next { s with stopped := some (.syscall code) } := by
  rw [State.raiseSyscall, Answers.rest_of_default h, State.syscallAnswer, Answers.answer_of_default h,
    State.handOverOrStop]

/-- By default `Env.break` ends the run (spec/60_exceptions.md R205). -/
theorem State.raiseBreak_of_default {s : State} (h : s.env.breaks = .default) :
    s.raiseBreak = .next { s with stopped := some .brk } := by
  rw [State.raiseBreak, Answers.rest_of_default h, State.breakAnswer, Answers.answer_of_default h,
    State.handOverOrStop]

/-- By default `Env.reti` has no state to return to (spec/60_exceptions.md R206). -/
theorem State.raiseReti_of_default {s : State} (h : s.env.retis = .default) :
    s.raiseReti = .fault (.reti s.pc) := by
  rw [State.raiseReti, State.retiAnswer, Answers.answer_of_default h, State.handOver]

/-- Settles O56, by the instruction: an access, a branch and a jump leave the flags, and the default
environment changes none. -/
theorem onlyTheListedInstructionsWriteFlags : Obligations.OnlyTheListedInstructionsWriteFlags := by
  rintro i s t hw ⟨hread, hwrite, hsyscall, hbreak, hreti, -, -⟩ h
  cases i with
  | bz | bnz | bc | bnc | bn | bnn | bo | bno => exact State.branch_flags h
  | j | ja => exact State.jump_flags h
  | ld rd address off =>
    obtain ⟨p, hp, h⟩ := proceed_next h
    cases h
    exact (State.setReg_flags p.2 rd p.1).trans (State.readData_flags (s := s.leaveSlot) hp)
  | ldp rd address ign =>
    obtain ⟨p, hp, h⟩ := proceed_next h
    cases h
    exact (State.setReg_flags p.2 rd p.1).trans (State.readProg_flags (s := s.leaveSlot) hp)
  | st address off rs =>
    obtain ⟨u, hu, h⟩ := proceed_next h
    cases h
    exact (State.finish_flags u s).trans (State.writeDataIf_flags (s := s.leaveSlot) hu)
  | ldcr rd cr ign =>
    obtain ⟨p, hp, h⟩ := proceed_next h
    rw [State.readCr_of_default (s := s.leaveSlot) hread] at hp
    cases hp; cases h
    exact State.setReg_flags s.leaveSlot rd _
  | stcr cr rs ign =>
    obtain ⟨u, hu, h⟩ := proceed_next h
    rw [State.writeCr_of_default (s := s.leaveSlot) hwrite] at hu
    cases hu; cases h
    rfl
  | syscall code ign =>
    obtain ⟨-, h⟩ := State.outsideSlot_next h
    rw [State.raiseSyscall_of_default (s := s.pastInstr) hsyscall] at h
    cases h; rfl
  | brk ign =>
    obtain ⟨-, h⟩ := State.outsideSlot_next h
    rw [State.raiseBreak_of_default (s := s.pastInstr) hbreak] at h
    cases h; rfl
  | reti ign =>
    obtain ⟨-, h⟩ := State.outsideSlot_next h
    rw [State.raiseReti_of_default hreti] at h
    cases h
  | _ => cases hw

end Sys2Proof.Machine
end

section
/-! What looks at no flag (spec/10_state.md R36): from states that differ in their flags only, the
operations of the machine end alike, those that ask the environment where it looks at no flag. -/

namespace Sys2Proof.Machine

/-- No word of the list reads the flags. -/
def Blind (vs : List EnvVal) : Prop := ∀ v ∈ vs, v.readsFlags = false

/-- Two answers to an access that end alike: the same refusal, or values that `R` relates. -/
inductive Alike {α : Type} (R : α → α → Prop) : Except Refusal α → Except Refusal α → Prop where
  | ok {a b : α} (h : R a b) : Alike R (.ok a) (.ok b)
  | error (e : Refusal) : Alike R (.error e) (.error e)

/-- The same word read, in states that differ in their flags only. -/
def SameRead (p q : Word × State) : Prop := q.1 = p.1 ∧ SameButFlags p.2 q.2

/-! ### Results -/

theorem SameButFlags.next {s t : State} (h : SameButFlags s t) (g : Flags) :
    Result.withFlags g (.next t) = Result.withFlags g (.next s) := by
  obtain ⟨f, rfl⟩ := h
  rfl

theorem Alike.proceed {α : Type} {R : α → α → Prop} {r r' : Except Refusal α} (h : Alike R r r')
    {k k' : α → Result} {g : Flags}
    (hk : ∀ a b, R a b → Result.withFlags g (k' b) = Result.withFlags g (k a)) :
    Result.withFlags g (Machine.proceed r' k') = Result.withFlags g (Machine.proceed r k) := by
  cases h with
  | ok h => exact hk _ _ h
  | error e => rfl

theorem SameButFlags.outsideSlot {s t : State} (h : SameButFlags s t) (w : Word) {k k' : Result}
    {g : Flags} (hk : Result.withFlags g k' = Result.withFlags g k) :
    Result.withFlags g (t.outsideSlot w k') = Result.withFlags g (s.outsideSlot w k) := by
  obtain ⟨f, rfl⟩ := h
  simp only [State.outsideSlot]
  split
  · rfl
  · exact hk

/-! ### Registers, accesses and the end of an instruction -/

theorem SameButFlags.leaveSlot {s t : State} (h : SameButFlags s t) :
    SameButFlags s.leaveSlot t.leaveSlot := by
  obtain ⟨f, rfl⟩ := h
  exact ⟨f, rfl⟩

theorem SameButFlags.pastInstr {s t : State} (h : SameButFlags s t) :
    SameButFlags s.pastInstr t.pastInstr := by
  obtain ⟨f, rfl⟩ := h
  exact ⟨f, rfl⟩

theorem SameButFlags.record {s t : State} (h : SameButFlags s t) (e : Event) :
    SameButFlags (s.record e) (t.record e) := by
  obtain ⟨f, rfl⟩ := h
  exact ⟨f, rfl⟩

theorem SameButFlags.withEnv {s t : State} (h : SameButFlags s t) (e : Env) :
    SameButFlags { s with env := e } { t with env := e } := by
  obtain ⟨f, rfl⟩ := h
  exact ⟨f, rfl⟩

theorem SameButFlags.withIntr {s t : State} (h : SameButFlags s t) (b : Bool) :
    SameButFlags { s with intrSinceLoad := b } { t with intrSinceLoad := b } := by
  obtain ⟨f, rfl⟩ := h
  exact ⟨f, rfl⟩

theorem SameButFlags.setReg {s t : State} (h : SameButFlags s t) (r : Reg) (v : Word) :
    SameButFlags (s.setReg r v) (t.setReg r v) :=
  h.act s [] (.setReg r (.const v))

theorem SameRead.setReg {p q : Word × State} (h : SameRead p q) (rd : Reg) :
    SameButFlags (p.2.setReg rd p.1) (q.2.setReg rd q.1) := by
  obtain ⟨hword, hstate⟩ := h
  rw [hword]
  exact hstate.setReg rd p.1

theorem SameButFlags.finish {s t b c : State} (h : SameButFlags s t) (hb : SameButFlags b c) :
    SameButFlags (s.finish b) (t.finish c) := by
  obtain ⟨f, rfl⟩ := h
  obtain ⟨-, rfl⟩ := hb
  exact ⟨f, rfl⟩

theorem SameButFlags.stCondFlags {s t : State} (h : SameButFlags s t) :
    SameButFlags s.stCondFlags t.stCondFlags := by
  obtain ⟨f, rfl⟩ := h
  simp only [State.stCondFlags]
  split
  · exact ⟨_, rfl⟩
  · exact ⟨f, rfl⟩

theorem SameButFlags.readMem {s t : State} (h : SameButFlags s t) (m : Memory) (a : Word) :
    SameRead (s.readMem m a) (t.readMem m a) := by
  obtain ⟨f, rfl⟩ := h
  refine ⟨rfl, f, ?_⟩
  simp only [State.readMem]
  split <;> rfl

theorem SameButFlags.readData {s t : State} (h : SameButFlags s t) (a : Word) :
    Alike SameRead (s.readData a) (t.readData a) := by
  have read := h.readMem s.dmem a
  obtain ⟨f, rfl⟩ := h
  simp only [State.readData]
  split
  · exact .ok read
  · exact .ok ⟨rfl, f, rfl⟩
  · exact .error _

theorem SameButFlags.readProg {s t : State} (h : SameButFlags s t) (a : Word) :
    Alike SameRead (s.readProg a) (t.readProg a) := by
  have read := h.readMem s.pmem a
  obtain ⟨f, rfl⟩ := h
  simp only [State.readProg]
  split
  · exact .ok read
  · exact .error _

theorem SameButFlags.writeDataIf {s t : State} (h : SameButFlags s t) (doIt : Bool) (a v : Word) :
    Alike SameButFlags (s.writeDataIf doIt a v) (t.writeDataIf doIt a v) := by
  obtain ⟨f, rfl⟩ := h
  simp only [State.writeDataIf]
  cases s.env.region a <;> cases doIt
  case absent.true => exact .error _
  all_goals exact .ok ⟨f, rfl⟩

/-! ### The shapes of an ALU instruction, which overwrite all four flags -/

theorem SameButFlags.addInto {s t : State} (h : SameButFlags s t) (rd : Reg) (a b : Word) (cin : Bool) :
    t.addInto rd a b cin = s.addInto rd a b cin := by
  obtain ⟨f, rfl⟩ := h
  simp only [State.addInto, State.setReg_eq]
  rfl

theorem SameButFlags.subInto {s t : State} (h : SameButFlags s t) (rd : Reg) (a b : Word) (bin : Bool) :
    t.subInto rd a b bin = s.subInto rd a b bin := by
  obtain ⟨f, rfl⟩ := h
  simp only [State.subInto, State.setReg_eq]
  rfl

theorem SameButFlags.compare {s t : State} (h : SameButFlags s t) (a b : Word) :
    t.compare a b = s.compare a b := by
  obtain ⟨f, rfl⟩ := h
  rfl

theorem SameButFlags.logicInto {s t : State} (h : SameButFlags s t) (rd : Reg) (res : Word) :
    t.logicInto rd res = s.logicInto rd res := by
  obtain ⟨f, rfl⟩ := h
  simp only [State.logicInto, State.setReg_eq]
  rfl

theorem SameButFlags.haddInto {s t : State} (h : SameButFlags s t) (rd : Reg) (a b : Word) (cin : Bool) :
    t.haddInto rd a b cin = s.haddInto rd a b cin := by
  obtain ⟨f, rfl⟩ := h
  simp only [State.haddInto, State.setReg_eq]
  rfl

theorem SameButFlags.moveInto {s t : State} (h : SameButFlags s t) (rd : Reg) (res : Word) :
    t.moveInto rd res = s.moveInto rd res := by
  obtain ⟨f, rfl⟩ := h
  simp only [State.moveInto, State.setReg_eq]
  rfl

theorem SameButFlags.jump {s t : State} (h : SameButFlags s t) (w target : Word) (link : Reg) (g : Flags) :
    Result.withFlags g (t.jump w target link) = Result.withFlags g (s.jump w target link) := by
  obtain ⟨f, rfl⟩ := h
  refine SameButFlags.outsideSlot ⟨f, rfl⟩ w (SameButFlags.next ?_ g)
  simp only [State.setReg_eq]
  split <;> exact ⟨f, rfl⟩

/-! ### An environment that looks at no flag -/

/-- The words such an environment computes, by where they stand. -/
theorem Env.flagBlind_iff {e : Env} : e.flagBlind ↔
    Blind e.crReads.plan.tests ∧ Blind e.crWrites.plan.tests ∧ Blind e.syscalls.plan.tests ∧
      Blind e.breaks.plan.tests ∧ Blind e.retis.plan.tests ∧ Blind e.illegals.plan.tests ∧
      Blind e.interrupts.plan.tests ∧ Blind (e.crReads.all.flatMap CrReadReply.words) ∧
      Blind (e.changes.flatMap EnvAct.words) := by
  simp only [Env.flagBlind, Env.words, Blind, List.forall_mem_append]

/-- A word that reads no flag is the same in states that differ in their flags only. -/
theorem SameButFlags.eval {s t : State} (h : SameButFlags s t) (args : List Word) {v : EnvVal}
    (hv : v.readsFlags = false) : v.eval t args = v.eval s args := by
  obtain ⟨f, rfl⟩ := h
  exact EnvVal.eval_congr (looksLike_flags s f) args v (by simp [hv])

theorem SameButFlags.answer {α : Type} {s t : State} (h : SameButFlags s t) {q : Answers α}
    (hq : Blind q.plan.tests) (d : α) (args : List Word) : q.answer d t args = q.answer d s args :=
  Answers.answer_congr d q fun v hv => h.eval args (hq v hv)

/-- Changes among those of a blind environment, made to states that differ in their flags only. -/
theorem SameButFlags.changed {s t : State} (h : SameButFlags s t) {e : Env} (he : e.flagBlind)
    {as : List EnvAct} (has : ∀ a ∈ as, a ∈ e.changes) (args : List Word) :
    SameButFlags (s.applyActs args as) (t.applyActs args as) := by
  obtain ⟨-, -, -, -, -, -, -, -, hchanges⟩ := Env.flagBlind_iff.1 he
  exact h.applyActs fun a ha v hv => hchanges v (List.mem_flatMap.2 ⟨a, has a ha, hv⟩)

theorem SameButFlags.handOver {s t : State} (h : SameButFlags s t) {e : Env} (he : e.flagBlind)
    {a : Answer} (ha : ∀ c ∈ a.changes, c ∈ e.changes) (ev : Event) (x : Fault) (args : List Word)
    (g : Flags) : Result.withFlags g (t.handOver ev x args a) = Result.withFlags g (s.handOver ev x args a) := by
  cases a with
  | fault => rfl
  | resume acts => exact ((h.record ev).changed he ha args).next g

theorem SameButFlags.handOverOrStop {s t : State} (h : SameButFlags s t) {e : Env} (he : e.flagBlind)
    {r : Reply} (hr : ∀ c ∈ r.changes, c ∈ e.changes) (ev : Event) (x : Fault) (p : Stop)
    (args : List Word) (g : Flags) :
    Result.withFlags g (t.handOverOrStop ev x p args r) =
      Result.withFlags g (s.handOverOrStop ev x p args r) := by
  cases r with
  | stop =>
    obtain ⟨f, rfl⟩ := h
    rfl
  | answer a => exact h.handOver he hr ev x args g

theorem SameButFlags.raiseSyscall {s t : State} (h : SameButFlags s t) (he : s.env.flagBlind)
    (code : BitVec 6) (g : Flags) :
    Result.withFlags g (t.raiseSyscall code) = Result.withFlags g (s.raiseSyscall code) := by
  obtain ⟨-, -, htests, -⟩ := Env.flagBlind_iff.1 he
  have among : ∀ c ∈ (s.syscallAnswer code).changes, c ∈ s.env.changes := fun c hc =>
    Env.mem_changes.2 (.inr (.inr (.inl (Answers.mem_of_answer rfl hc))))
  have rested := h.withEnv { s.env with syscalls := s.env.syscalls.rest }
  obtain ⟨f, rfl⟩ := h
  have answer : { s with flags := f }.syscallAnswer code = s.syscallAnswer code :=
    SameButFlags.answer ⟨f, rfl⟩ htests .stop _
  rw [State.raiseSyscall, answer]
  exact rested.handOverOrStop he among _ _ _ _ g

theorem SameButFlags.raiseBreak {s t : State} (h : SameButFlags s t) (he : s.env.flagBlind) (g : Flags) :
    Result.withFlags g t.raiseBreak = Result.withFlags g s.raiseBreak := by
  obtain ⟨-, -, -, htests, -⟩ := Env.flagBlind_iff.1 he
  have among : ∀ c ∈ s.breakAnswer.changes, c ∈ s.env.changes := fun c hc =>
    Env.mem_changes.2 (.inr (.inr (.inr (.inl (Answers.mem_of_answer rfl hc)))))
  have rested := h.withEnv { s.env with breaks := s.env.breaks.rest }
  obtain ⟨f, rfl⟩ := h
  have answer : { s with flags := f }.breakAnswer = s.breakAnswer :=
    SameButFlags.answer ⟨f, rfl⟩ htests .stop _
  rw [State.raiseBreak, answer]
  exact rested.handOverOrStop he among _ _ _ _ g

theorem SameButFlags.raiseReti {s t : State} (h : SameButFlags s t) (he : s.env.flagBlind) (g : Flags) :
    Result.withFlags g t.raiseReti = Result.withFlags g s.raiseReti := by
  obtain ⟨-, -, -, -, htests, -⟩ := Env.flagBlind_iff.1 he
  have among : ∀ c ∈ s.retiAnswer.changes, c ∈ s.env.changes := fun c hc =>
    Env.mem_changes.2 (.inr (.inr (.inr (.inr (.inl (Answers.mem_of_answer rfl hc))))))
  have rested := h.withEnv { s.env with retis := s.env.retis.rest }
  obtain ⟨f, rfl⟩ := h
  have answer : { s with flags := f }.retiAnswer = s.retiAnswer :=
    SameButFlags.answer ⟨f, rfl⟩ htests .fault _
  rw [State.raiseReti, answer]
  exact rested.handOver he among _ _ _ g

theorem SameButFlags.readCr {s t : State} (h : SameButFlags s t) (he : s.env.flagBlind) (n : CrNum) :
    Alike SameRead (s.readCr n) (t.readCr n) := by
  obtain ⟨htests, -, -, -, -, -, -, hwords, -⟩ := Env.flagBlind_iff.1 he
  have among : ∀ c ∈ (s.crReadAnswer n).changes, c ∈ s.env.changes := fun c hc =>
    Env.mem_changes.2 (.inl (Answers.mem_of_answer rfl hc))
  have blind : Blind (s.crReadAnswer n).words := fun v hv => hwords v (Answers.mem_of_answer rfl hv)
  obtain ⟨f, rfl⟩ := h
  have answer : { s with flags := f }.crReadAnswer n = s.crReadAnswer n :=
    SameButFlags.answer ⟨f, rfl⟩ htests .cell _
  simp only [State.readCr, answer]
  split <;> rename_i hr
  · exact .ok ⟨rfl, f, rfl⟩
  · exact .error _
  · rw [hr] at among blind
    exact .ok ⟨SameButFlags.eval ⟨f, rfl⟩ _ (blind _ List.mem_cons_self),
      SameButFlags.changed ⟨f, rfl⟩ he among _⟩

theorem SameButFlags.writeCr {s t : State} (h : SameButFlags s t) (he : s.env.flagBlind) (n : CrNum)
    (v : Word) : Alike SameButFlags (s.writeCr n v) (t.writeCr n v) := by
  obtain ⟨-, htests, -⟩ := Env.flagBlind_iff.1 he
  have among : ∀ c ∈ (s.crWriteAnswer n v).changes, c ∈ s.env.changes := fun c hc =>
    Env.mem_changes.2 (.inr (.inl (Answers.mem_of_answer rfl hc)))
  obtain ⟨f, rfl⟩ := h
  have answer : { s with flags := f }.crWriteAnswer n v = s.crWriteAnswer n v :=
    SameButFlags.answer ⟨f, rfl⟩ htests .cell _
  simp only [State.writeCr, answer]
  split <;> rename_i hr
  · exact .ok ⟨f, rfl⟩
  · exact .error _
  · rw [hr] at among
    exact .ok (SameButFlags.changed ⟨f, rfl⟩ he among _)

/-- Settles O57, by the instruction: the ALU shapes overwrite the flags, the accesses and the jumps
carry them along, and a blind environment answers alike. -/
theorem onlyTheListedInstructionsReadFlags : Obligations.OnlyTheListedInstructionsReadFlags := by
  intro i s f g hr hblind
  have h : SameButFlags s { s with flags := f } := ⟨f, rfl⟩
  cases i with
  | addi | add => exact congrArg (Result.withFlags g) (h.addInto _ _ _ _)
  | sub => exact congrArg (Result.withFlags g) (h.subInto _ _ _ _)
  | cmpi | cmp => exact congrArg (Result.withFlags g) (h.compare _ _)
  | andi | ori | xori | and | or | xor => exact congrArg (Result.withFlags g) (h.logicInto _ _)
  | hadd => exact congrArg (Result.withFlags g) (h.haddInto _ _ _ _)
  | ldi | ldui | upsample | byteswap => exact congrArg (Result.withFlags g) (h.moveInto _ _)
  | addipc => exact h.outsideSlot _ (congrArg (Result.withFlags g) (h.moveInto _ _))
  | ja | j => exact h.jump _ _ _ g
  | ld rd address off =>
    exact (h.leaveSlot.readData _).proceed fun p q hpq => (((hpq.setReg rd).withIntr _).finish h).next g
  | ldp rd address ign =>
    exact (h.leaveSlot.readProg _).proceed fun p q hpq => (((hpq.setReg rd).withIntr _).finish h).next g
  | ldcr rd cr ign =>
    exact (h.leaveSlot.readCr (hblind rfl) cr).proceed fun p q hpq => ((hpq.setReg rd).finish h).next g
  | st address off rs =>
    exact (h.leaveSlot.writeDataIf _ _ _).proceed fun u v huv => (huv.finish h).next g
  | stCond address rs ign =>
    exact (h.leaveSlot.writeDataIf _ _ _).proceed fun u v huv => (huv.stCondFlags.finish h).next g
  | stcr cr rs ign =>
    exact (h.leaveSlot.writeCr (hblind rfl) cr _).proceed fun u v huv => (huv.finish h).next g
  | syscall code ign => exact h.outsideSlot _ (h.pastInstr.raiseSyscall (hblind rfl) code g)
  | reti ign => exact h.outsideSlot _ (h.raiseReti (hblind rfl) g)
  | brk ign => exact h.outsideSlot _ (h.pastInstr.raiseBreak (hblind rfl) g)
  | _ => cases hr

end Sys2Proof.Machine
end

section
/-! Memory (spec/20_memory.md): the invariant of its form, what a store and a conditional store leave to
be read, and that no instruction writes program memory. -/

namespace Sys2Proof.Machine

/-! ### The canonical form -/

/-- A rising list answers at its first address and at none below it. -/
theorem Memory.first_le_of_get? {c : Host.Cell} {cs : Memory} {j k : Nat}
    (h : Memory.risingFrom j (c :: cs) = true) (hk : Memory.get? (c :: cs) k ≠ none) : c.1 ≤ k := by
  simp only [Memory.risingFrom, Bool.and_eq_true, decide_eq_true_eq] at h
  obtain ⟨⟨-, hspace⟩, hcs⟩ := h
  refine Nat.le_of_not_lt fun hlt => hk (Memory.get?_eq_none_of_lt (j := c.1) ?_ hlt)
  simp [Memory.risingFrom, hspace, hcs]

theorem Memory.get?_first (c : Host.Cell) (cs : Memory) : Memory.get? (c :: cs) c.1 = some c.2 := by
  simp [Memory.get?]

/-- Rising lists that read alike at every byte are equal. -/
theorem Memory.eq_of_get?_eq {m m' : Memory} {j j' : Nat} (h : Memory.risingFrom j m = true)
    (h' : Memory.risingFrom j' m' = true) (hread : ∀ k, m.get? k = m'.get? k) : m = m' := by
  induction m generalizing m' j j' with
  | nil =>
    cases m' with
    | nil => rfl
    | cons c' cs' => simpa [Memory.get?] using hread c'.1
  | cons c cs ih =>
    cases m' with
    | nil => simpa [Memory.get?] using hread c.1
    | cons c' cs' =>
      have first : c = c' := by
        have hc : Memory.get? (c' :: cs') c.1 = some c.2 := by rw [← hread, Memory.get?_first]
        have hc' : Memory.get? (c :: cs) c'.1 = some c'.2 := by rw [hread, Memory.get?_first]
        have addr : c.1 = c'.1 := Nat.le_antisymm (Memory.first_le_of_get? h (by simp [hc']))
          (Memory.first_le_of_get? h' (by simp [hc]))
        rw [addr, Memory.get?_first] at hc
        exact Prod.ext addr (Option.some.inj hc).symm
      subst first
      simp only [Memory.risingFrom, Bool.and_eq_true] at h h'
      refine congrArg (c :: ·) (ih h.2 h'.2 fun k => ?_)
      by_cases hk : c.1 = k
      · rw [Memory.get?_eq_none_of_lt h.2 (by omega), Memory.get?_eq_none_of_lt h'.2 (by omega)]
      · simpa [Memory.get?, hk] using hread k

/-- Settles O52: the canonical form is a list that rises from 0. -/
theorem canonicalMemoriesAreEqualData : Obligations.CanonicalMemoriesAreEqualData :=
  fun _ _ h h' hread => Memory.eq_of_get?_eq h h' hread

/-- Settles O51: the invariant is stable, so every step keeps it. -/
theorem stepKeepsMemoryInvariant : Obligations.StepKeepsMemoryInvariant :=
  fun _ _ hs hstep => stable_memoryInv.step_keeps hs hstep

/-! ### Program memory -/

/-- `t` has the program memory of `s`, and its environment is one that changes no program memory. -/
structure KeepsProgram (s t : State) : Prop where
  pmem : t.pmem = s.pmem
  env : t.env.keepsProgram

/-- A data store writes no program memory; where the environment stores no program word nothing does. -/
theorem stable_keepsProgram (s : State) : Stable false (KeepsProgram s) where
  same h hs := ⟨h.pmem.trans hs.pmem, fun a v m => hs.env a v (h.changes _ m)⟩
  data _ _ _ hs := ⟨hs.pmem, hs.env⟩
  prog h := nomatch h

/-- Settles O54: without a change of the environment's to program memory, whatever a step does to
memory keeps it. -/
theorem programMemoryIsConstant : Obligations.ProgramMemoryIsConstant := by
  intro s t hkeeps hstep
  obtain ⟨hpmem, henv⟩ :=
    (stable_keepsProgram s).of_moves (step_moves (.inr hkeeps) hstep) ⟨rfl, hkeeps⟩
  exact ⟨fun k => by rw [hpmem], henv⟩

/-! ### Loads and stores of plain storage -/

/-- A store to plain storage (spec/43_load_store.md R157). -/
theorem exec_st_of_ram {s : State} {address : Reg} {off : BitVec 7} (rs : Reg)
    (h : s.env.region (s.effAddr address off) = .ram) :
    exec (.st address off rs) s =
      .next ((s.leaveSlot.storeData (s.effAddr address off) (s.getReg rs)).finish s) := by
  have stored : s.leaveSlot.writeDataIf true (s.effAddr address off) (s.getReg rs) =
      .ok (s.leaveSlot.storeData (s.effAddr address off) (s.getReg rs)) := by
    simpa [h] using s.leaveSlot.writeDataIf_cases true (s.effAddr address off) (s.getReg rs)
  rw [exec, execSt, stored, proceed_ok]

/-- The word a load from plain storage puts into its register (spec/43_load_store.md R156;
spec/20_memory.md R60). -/
theorem exec_ld_of_ram {s : State} {rd address : Reg} {off : BitVec 7}
    (h : s.env.region (s.effAddr address off) = .ram) (hrd : s.isZeroReg rd = false) :
    ∃ t, exec (.ld rd address off) s = .next t ∧
      t.getReg rd = s.dmem.loadWord s.params.imageByteOrder (s.effAddr address off)
        (Config.freeWord s.draws) := by
  have read : s.leaveSlot.readData (s.effAddr address off) =
      .ok (s.leaveSlot.readMem s.leaveSlot.dmem (s.effAddr address off)) := by
    simpa [h] using s.leaveSlot.readData_cases (s.effAddr address off)
  have zero : (s.leaveSlot.readMem s.leaveSlot.dmem (s.effAddr address off)).2.isZeroReg rd = false := by
    rcases State.readMem_snd s.leaveSlot s.leaveSlot.dmem (s.effAddr address off) with e | e <;>
      rw [e] <;> exact hrd
  refine ⟨_, by rw [exec, execLd, read, proceed_ok], ?_⟩
  exact (State.getReg_setReg _ rd rd _).trans (by rw [if_pos rfl, zero]; rfl)

/-- Settles O33: the load after the store reads the memory the store left, with the draws and the
registers of the state before it. -/
theorem loadAfterStore : Obligations.LoadAfterStore := by
  intro ra rb rs rd o1 o2 s ha hb hrd
  obtain ⟨u, hu, hread⟩ : ∃ u,
      exec (.ld rd rb o2) ((s.leaveSlot.storeData (s.effAddr ra o1) (s.getReg rs)).finish s) = .next u ∧
        u.getReg rd = (s.dmem.storeWord s.params.imageByteOrder (s.effAddr ra o1) (s.getReg rs)).loadWord
          s.params.imageByteOrder (s.effAddr rb o2) (Config.freeWord s.draws) :=
    exec_ld_of_ram hb hrd
  refine ⟨_, u, exec_st_of_ram rs ha, hu, fun same => ?_, fun other => ?_⟩
  · rw [hread, same, Memory.loadWord_storeWord_same]
  · obtain ⟨v, hv, hread'⟩ := exec_ld_of_ram hb hrd
    exact ⟨v, hv, by rw [hread, hread', Memory.loadWord_storeWord_other other]⟩

/-! ### The conditional store -/

/-- A completed load clears `intr_since_load` (spec/10_state.md R43). -/
theorem exec_ld_intrSinceLoad {s t : State} {rd address : Reg} {off : BitVec 7}
    (h : exec (.ld rd address off) s = .next t) : t.intrSinceLoad = false := by
  obtain ⟨p, -, h⟩ := proceed_next h
  cases h
  rfl

theorem State.stCondFlags_memories (s : State) : s.stCondFlags.dmem = s.dmem ∧
    s.stCondFlags.pmem = s.pmem ∧ s.stCondFlags.params = s.params := by
  unfold State.stCondFlags
  split <;> exact ⟨rfl, rfl, rfl⟩

/-- A conditional store that is performed, to plain storage (spec/45_system_and_jumps.md R187). -/
theorem exec_stCond_stores {s : State} {address rs : Reg} (ign : BitVec 3) (hintr : s.intrSinceLoad = false)
    (h : s.env.region (s.getReg address) = .ram) :
    ∃ t, exec (.stCond address rs ign) s = .next t ∧ HoldsWord t (s.getReg address) (s.getReg rs) := by
  have stored : s.leaveSlot.writeDataIf (!s.intrSinceLoad) (s.getReg address) (s.getReg rs) =
      .ok (s.leaveSlot.storeData (s.getReg address) (s.getReg rs)) := by
    simpa [h, hintr] using s.leaveSlot.writeDataIf_cases (!s.intrSinceLoad) (s.getReg address) (s.getReg rs)
  refine ⟨_, by rw [exec, execStCond, stored, proceed_ok], fun free => ?_⟩
  obtain ⟨hd, -, hp⟩ := State.stCondFlags_memories (s.leaveSlot.storeData (s.getReg address) (s.getReg rs))
  rw [State.finish_dmem, State.finish_params, hd, hp]
  exact Memory.loadWord_storeWord_same _ _ _ _ free

/-- A conditional store that is not performed, to any address (spec/45_system_and_jumps.md R187). -/
theorem exec_stCond_skips {s : State} (address rs : Reg) (ign : BitVec 3) (hintr : s.intrSinceLoad = true) :
    ∃ t, exec (.stCond address rs ign) s = .next t ∧ SameMemory s t := by
  have skipped : s.leaveSlot.writeDataIf (!s.intrSinceLoad) (s.getReg address) (s.getReg rs) =
      .ok s.leaveSlot := by
    simpa [hintr] using s.leaveSlot.writeDataIf_cases (!s.intrSinceLoad) (s.getReg address) (s.getReg rs)
  refine ⟨_, by rw [exec, execStCond, skipped, proceed_ok], fun k => ?_⟩
  obtain ⟨hd, hp, -⟩ := State.stCondFlags_memories s.leaveSlot
  rw [State.finish_dmem, State.finish_pmem, hd, hp]
  exact ⟨rfl, rfl⟩

/-- Delivery of an interrupt whose handler changes nothing (spec/60_exceptions.md R212). -/
theorem State.deliver_of_nil {k : Interrupt} (h : k.deliver = []) (s : State) :
    s.deliver k = { s with intrSinceLoad := true }.record (.interrupt k.source) := by
  rw [State.deliver, h]
  rfl

/-- Settles O34: the load leaves the hidden bit clear, the delivery sets it. -/
theorem interruptBlocksTheConditionalStore : Obligations.InterruptBlocksTheConditionalStore := by
  intro rd ra address rs off ign s t hld hram
  refine ⟨exec_stCond_stores ign (exec_ld_intrSinceLoad hld) hram, fun k hk => ?_⟩
  rw [State.deliver_of_nil hk]
  exact exec_stCond_skips address rs ign rfl

end Sys2Proof.Machine
end

section
/-! The byte order of images (spec/20_memory.md R53, R55): from states that hold the same words, every
operation of the machine ends alike and in states that hold the same words. What reads and writes no
memory commutes with putting other images in; reads and writes of words are followed one by one. -/

namespace Sys2Proof.Machine

/-! ### Other images -/

/-- `s` with images of byte order `o` in place of its own. -/
def State.withImages (s : State) (o : ByteOrder) (d p : Memory) : State :=
  { s with params := { s.params with imageByteOrder := o }, dmem := d, pmem := p }

/-- The same, of the state a result ends in. -/
def Result.withImages (o : ByteOrder) (d p : Memory) : Result → Result
  | .next s => .next (s.withImages o d p)
  | .fault e => .fault e
  | .refused e => .refused e

/-- The update neither reads nor writes the images. -/
def IgnoresImages (f : State → State) : Prop :=
  ∀ s o d p, f (s.withImages o d p) = (f s).withImages o d p

/-- The meaning neither reads nor writes the images. -/
def RunsWithoutImages (run : State → Result) : Prop :=
  ∀ s o d p, run (s.withImages o d p) = (run s).withImages o d p

theorem sameWords_iff {s t : State} : SameWords s t ↔ ∃ o d p, t = s.withImages o d p ∧
    (∀ a free, d.loadWord o a free = s.dmem.loadWord s.params.imageByteOrder a free) ∧
    ∀ a free, p.loadWord o a free = s.pmem.loadWord s.params.imageByteOrder a free := by
  constructor
  · rintro ⟨⟨o, d, p, rfl⟩, hd, hp⟩
    exact ⟨o, d, p, rfl, hd, hp⟩
  · rintro ⟨o, d, p, rfl, hd, hp⟩
    exact ⟨⟨o, d, p, rfl⟩, hd, hp⟩

/-- A meaning that ignores the images ends in the images it was given. -/
theorem RunsWithoutImages.next {run : State → Result} (hrun : RunsWithoutImages run) {s u : State}
    (h : run s = .next u) : u = u.withImages s.params.imageByteOrder s.dmem s.pmem := by
  have own : run s = (run s).withImages s.params.imageByteOrder s.dmem s.pmem := hrun s _ _ _
  rw [h] at own
  exact Host.Outcome.next.inj own

/-- It ends alike from states that hold the same words, and keeps them. -/
theorem SameWords.run {run : State → Result} (hrun : RunsWithoutImages run) {s t : State}
    (h : SameWords s t) : Result.SameWords (run s) (run t) := by
  obtain ⟨o, d, p, rfl, hd, hp⟩ := sameWords_iff.1 h
  rw [hrun]
  cases hs : run s with
  | next u =>
    refine sameWords_iff.2 ⟨o, d, p, rfl, ?_, ?_⟩ <;> rw [hrun.next hs]
    · exact hd
    · exact hp
  | fault e => rfl
  | refused e => rfl

/-- An update that ignores the images keeps the words. -/
theorem SameWords.map {f : State → State} (hf : IgnoresImages f) {s t : State} (h : SameWords s t) :
    SameWords (f s) (f t) :=
  h.run (run := fun u => .next (f u)) fun u o d p => congrArg Host.Outcome.next (hf u o d p)

/-- A reading that ignores the images is the same. -/
theorem SameWords.congr {α : Type} {g : State → α} (hg : ∀ s o d p, g (s.withImages o d p) = g s)
    {s t : State} (h : SameWords s t) : g t = g s := by
  obtain ⟨o, d, p, rfl, -, -⟩ := sameWords_iff.1 h
  exact hg s o d p

/-! ### Readings, updates and meanings that ignore the images -/

theorem SameWords.pc {s t : State} (h : SameWords s t) : t.pc = s.pc := h.looksLike.pc

theorem SameWords.env {s t : State} (h : SameWords s t) : t.env = s.env := h.congr fun _ _ _ _ => rfl

theorem SameWords.draws {s t : State} (h : SameWords s t) : t.draws = s.draws :=
  h.congr fun _ _ _ _ => rfl

theorem SameWords.stopped {s t : State} (h : SameWords s t) : t.stopped = s.stopped :=
  h.congr fun _ _ _ _ => rfl

theorem SameWords.ldpClearsIntr {s t : State} (h : SameWords s t) :
    t.params.ldpClearsIntr = s.params.ldpClearsIntr :=
  h.congr (g := (·.params.ldpClearsIntr)) fun _ _ _ _ => rfl

theorem SameWords.nextPc {s t : State} (h : SameWords s t) : t.nextPc = s.nextPc :=
  h.congr fun _ _ _ _ => rfl

theorem SameWords.getReg {s t : State} (h : SameWords s t) (r : Reg) : t.getReg r = s.getReg r :=
  h.looksLike.reg r

theorem SameWords.effAddr {s t : State} (h : SameWords s t) (address : Reg) (off : BitVec 7) :
    t.effAddr address off = s.effAddr address off := by
  rw [State.effAddr, h.getReg, State.effAddr]

theorem record_ignoresImages (e : Event) : IgnoresImages (·.record e) := fun _ _ _ _ => rfl

theorem drawn_ignoresImages (n : Nat) : IgnoresImages (·.drawn n) := fun _ _ _ _ => rfl

theorem setReg_ignoresImages (r : Reg) (v : Word) : IgnoresImages (·.setReg r v) := fun s o d p => by
  simp only [State.setReg_eq]
  rfl

theorem stCondFlags_ignoresImages : IgnoresImages State.stCondFlags := fun s o d p => by
  simp only [State.stCondFlags, State.withImages]
  split <;> rfl

section
variable (s : State) (o : ByteOrder) (d p : Memory)

theorem addInto_withImages (rd : Reg) (a b : Word) (cin : Bool) :
    (s.withImages o d p).addInto rd a b cin = (s.addInto rd a b cin).withImages o d p := by
  simp only [State.addInto, State.setReg_eq]
  rfl

theorem subInto_withImages (rd : Reg) (a b : Word) (bin : Bool) :
    (s.withImages o d p).subInto rd a b bin = (s.subInto rd a b bin).withImages o d p := by
  simp only [State.subInto, State.setReg_eq]
  rfl

theorem logicInto_withImages (rd : Reg) (res : Word) :
    (s.withImages o d p).logicInto rd res = (s.logicInto rd res).withImages o d p := by
  simp only [State.logicInto, State.setReg_eq]
  rfl

theorem haddInto_withImages (rd : Reg) (a b : Word) (cin : Bool) :
    (s.withImages o d p).haddInto rd a b cin = (s.haddInto rd a b cin).withImages o d p := by
  simp only [State.haddInto, State.setReg_eq]
  rfl

theorem moveInto_withImages (rd : Reg) (res : Word) :
    (s.withImages o d p).moveInto rd res = (s.moveInto rd res).withImages o d p := by
  simp only [State.moveInto, State.setReg_eq]
  rfl

theorem outsideSlot_withImages (w : Word) {k k' : Result} (hk : k' = k.withImages o d p) :
    (s.withImages o d p).outsideSlot w k' = (s.outsideSlot w k).withImages o d p := by
  rw [hk]
  cases h : s.delay with
  | none => rw [State.outsideSlot_of_none h, State.outsideSlot_of_none (s := s.withImages o d p) h]
  | some q =>
    rw [State.outsideSlot_of_some h, State.outsideSlot_of_some (s := s.withImages o d p) h]
    rfl

theorem branch_withImages (w : Word) (cond : Bool) (off : BitVec 7) :
    (s.withImages o d p).branch w cond off = (s.branch w cond off).withImages o d p :=
  outsideSlot_withImages s o d p w rfl

theorem jump_withImages (w target : Word) (link : Reg) :
    (s.withImages o d p).jump w target link = (s.jump w target link).withImages o d p := by
  refine outsideSlot_withImages s o d p w ?_
  simp only [State.setReg_eq, State.withImages]
  split <;> rfl

end

/-! ### Accesses -/

/-- The same word read, in states that hold the same words. -/
def SameWordRead (a b : Word × State) : Prop := b.1 = a.1 ∧ SameWords a.2 b.2

theorem Alike.proceed_sameWords {α : Type} {R : α → α → Prop} {r r' : Except Refusal α}
    (h : Alike R r r') {k k' : α → Result} (hk : ∀ a b, R a b → Result.SameWords (k a) (k' b)) :
    Result.SameWords (Machine.proceed r k) (Machine.proceed r' k') := by
  cases h with
  | ok h => exact hk _ _ h
  | error e => rfl

theorem Memory.loadWord_high (o : ByteOrder) (m : Memory) (a free : Word) :
    (m.loadWord o a free).extractLsb' 8 8 = (m.get? (highKey o a)).getD (free.extractLsb' 8 8) :=
  (BitVec.extractLsb'_append_eq_of_le (Nat.le_refl 8)).trans BitVec.extractLsb'_eq_self

theorem Memory.loadWord_low (o : ByteOrder) (m : Memory) (a free : Word) :
    (m.loadWord o a free).extractLsb' 0 8 = (m.get? (lowKey o a)).getD (free.extractLsb' 0 8) :=
  (BitVec.extractLsb'_append_eq_of_add_le (Nat.le_refl 8)).trans BitVec.extractLsb'_eq_self

/-- A byte whose reading does not depend on what a missing byte reads as is not missing. -/
theorem isSome_of_getD_eq {b : Option Byte} (h : b.getD 0x00 = b.getD 0xFF) : b.isSome = true := by
  cases b with
  | none => exact absurd h (by decide)
  | some v => rfl

theorem Memory.holds_iff_keys (o : ByteOrder) (m : Memory) (a : Word) : m.holds a = true ↔
    (m.get? (highKey o a)).isSome = true ∧ (m.get? (lowKey o a)).isSome = true := by
  cases o <;> simp [Memory.holds, highKey, lowKey, and_comm]

/-- A word is held exactly when a read of it depends on no free value. -/
theorem Memory.holds_iff_loadWord (o : ByteOrder) (m : Memory) (a : Word) :
    m.holds a = true ↔ m.loadWord o a 0x0000 = m.loadWord o a 0xFFFF := by
  refine ⟨fun h => Memory.loadWord_of_holds h _ _, fun h => (Memory.holds_iff_keys o m a).2 ⟨?_, ?_⟩⟩
  · have high := congrArg (·.extractLsb' 8 8) h
    simp only [Memory.loadWord_high] at high
    exact isSome_of_getD_eq high
  · have low := congrArg (·.extractLsb' 0 8) h
    simp only [Memory.loadWord_low] at low
    exact isSome_of_getD_eq low

theorem SameWords.readMem {s t : State} (h : SameWords s t) {m m' : Memory}
    (hm : ∀ a free, m'.loadWord t.params.imageByteOrder a free =
      m.loadWord s.params.imageByteOrder a free) (a : Word) :
    SameWordRead (s.readMem m a) (t.readMem m' a) := by
  have holds : m'.holds a = true ↔ m.holds a = true := by
    rw [Memory.holds_iff_loadWord t.params.imageByteOrder, Memory.holds_iff_loadWord s.params.imageByteOrder,
      hm, hm]
  refine ⟨by simp only [State.readMem, h.draws, hm], ?_⟩
  simp only [State.readMem, holds]
  split
  · exact h
  · exact h.map (drawn_ignoresImages 1)

theorem SameWords.leaveSlot {s t : State} (h : SameWords s t) : SameWords s.leaveSlot t.leaveSlot :=
  h.map fun _ _ _ _ => rfl

theorem SameWords.pastInstr {s t : State} (h : SameWords s t) : SameWords s.pastInstr t.pastInstr :=
  h.map fun _ _ _ _ => rfl

theorem SameWords.readData {s t : State} (h : SameWords s t) (a : Word) :
    Alike SameWordRead (s.readData a) (t.readData a) := by
  simp only [State.readData, h.env, h.draws]
  split
  · exact .ok (h.readMem h.looksLike.data a)
  · exact .ok ⟨rfl, (h.map (drawn_ignoresImages 1)).map (record_ignoresImages _)⟩
  · exact .error _

theorem SameWords.readProg {s t : State} (h : SameWords s t) (a : Word) :
    Alike SameWordRead (s.readProg a) (t.readProg a) := by
  simp only [State.readProg, h.env]
  split
  · exact .ok (h.readMem h.looksLike.prog a)
  · exact .error _

theorem SameWords.fetch {s t : State} (h : SameWords s t) : Alike SameWordRead s.fetch t.fetch := by
  rw [State.fetch, State.fetch, h.pc]
  exact h.readProg s.pc

theorem SameWords.storeData {s t : State} (h : SameWords s t) (a v : Word) :
    SameWords (s.storeData a v) (t.storeData a v) :=
  h.act s [] (.setData (.const a) (.const v))

theorem SameWords.writeDataIf {s t : State} (h : SameWords s t) (doIt : Bool) (a v : Word) :
    Alike SameWords (s.writeDataIf doIt a v) (t.writeDataIf doIt a v) := by
  simp only [State.writeDataIf, h.env]
  cases s.env.region a <;> cases doIt
  case ram.true => exact .ok (h.storeData a v)
  case device.true => exact .ok (h.map (record_ignoresImages _))
  case absent.true => exact .error _
  all_goals exact .ok h

/-! ### The end of an instruction -/

/-- An instruction that began in states that hold the same words goes on at the same address. -/
theorem SameWords.finish {s t b c : State} (h : SameWords s t) (hb : SameWords b c) :
    SameWords (s.finish b) (t.finish c) := by
  rw [State.finish, State.finish, hb.nextPc]
  exact h.map (f := ({ · with pc := b.nextPc })) fun _ _ _ _ => rfl

theorem SameWordRead.setReg {p q : Word × State} (h : SameWordRead p q) (rd : Reg) :
    SameWords (p.2.setReg rd p.1) (q.2.setReg rd q.1) := by
  obtain ⟨hword, hstate⟩ := h
  rw [hword]
  exact hstate.map (setReg_ignoresImages rd p.1)

theorem SameWords.withIntr {s t : State} (h : SameWords s t) (b : Bool) :
    SameWords { s with intrSinceLoad := b } { t with intrSinceLoad := b } :=
  h.map (f := ({ · with intrSinceLoad := b })) fun _ _ _ _ => rfl

/-! ### The environment -/

theorem SameWords.mapEnv {s t : State} (h : SameWords s t) (g : Env → Env) :
    SameWords { s with env := g s.env } { t with env := g t.env } :=
  h.map (f := fun u => { u with env := g u.env }) fun _ _ _ _ => rfl

/-- The environment computes the same word. -/
theorem SameWords.eval {s t : State} (h : SameWords s t) (args : List Word) (v : EnvVal) :
    v.eval t args = v.eval s args :=
  EnvVal.eval_congr h.looksLike args v fun _ => h.flags

/-- A member of the environment gives the same answer. -/
theorem SameWords.answer {α : Type} {s t : State} (h : SameWords s t) (q : Env → Answers α) (d : α)
    (args : List Word) : (q t.env).answer d t args = (q s.env).answer d s args := by
  rw [h.env]
  exact Answers.answer_congr d (q s.env) fun v _ => h.eval args v

theorem SameWords.handOver {s t : State} (h : SameWords s t) (e : Event) {f f' : Fault} (hf : f' = f)
    (args : List Word) {a a' : Answer} (ha : a' = a) :
    Result.SameWords (s.handOver e f args a) (t.handOver e f' args a') := by
  subst hf ha
  cases a' with
  | fault => rfl
  | resume acts => exact (h.map (record_ignoresImages e)).applyActs args acts

theorem SameWords.handOverOrStop {s t : State} (h : SameWords s t) (e : Event) {f f' : Fault}
    (hf : f' = f) (p : Stop) (args : List Word) {r r' : Reply} (hr : r' = r) :
    Result.SameWords (s.handOverOrStop e f p args r) (t.handOverOrStop e f' p args r') := by
  subst hr
  cases r' with
  | stop => exact h.map (f := ({ · with stopped := some p })) fun _ _ _ _ => rfl
  | answer a => exact h.handOver e hf args rfl

theorem SameWords.raiseSyscall {s t : State} (h : SameWords s t) (code : BitVec 6) :
    Result.SameWords (s.raiseSyscall code) (t.raiseSyscall code) :=
  (h.mapEnv fun e => { e with syscalls := e.syscalls.rest }).handOverOrStop (.syscall code)
    (congrArg (Fault.syscall code) h.pc) (.syscall code) _ (h.answer Env.syscalls .stop _)

theorem SameWords.raiseBreak {s t : State} (h : SameWords s t) :
    Result.SameWords s.raiseBreak t.raiseBreak :=
  (h.mapEnv fun e => { e with breaks := e.breaks.rest }).handOverOrStop .brk
    (congrArg Fault.brk h.pc) .brk _ (h.answer Env.breaks .stop _)

theorem SameWords.raiseReti {s t : State} (h : SameWords s t) :
    Result.SameWords s.raiseReti t.raiseReti :=
  (h.mapEnv fun e => { e with retis := e.retis.rest }).handOver .reti
    (congrArg Fault.reti h.pc) _ (h.answer Env.retis .fault _)

theorem SameWords.raiseIllegal {s t : State} (h : SameWords s t) (w : Word) :
    Result.SameWords (s.raiseIllegal w) (t.raiseIllegal w) :=
  (h.mapEnv fun e => { e with illegals := e.illegals.rest }).handOver (.illegal w)
    (congrArg (Fault.illegalInstruction w) h.pc) _ (h.answer Env.illegals .fault _)

theorem SameWords.readCr {s t : State} (h : SameWords s t) (n : CrNum) :
    Alike SameWordRead (s.readCr n) (t.readCr n) := by
  have left := h.mapEnv fun e => { e with crReads := e.crReads.rest }
  have answer : t.crReadAnswer n = s.crReadAnswer n := h.answer Env.crReads .cell _
  simp only [State.readCr, answer]
  split
  · exact .ok ⟨h.looksLike.cr n, left⟩
  · exact .error _
  · exact .ok ⟨h.eval _ _, left.applyActs _ _⟩

theorem SameWords.writeCr {s t : State} (h : SameWords s t) (n : CrNum) (v : Word) :
    Alike SameWords (s.writeCr n v) (t.writeCr n v) := by
  have left := h.mapEnv fun e => { e with crWrites := e.crWrites.rest }
  have answer : t.crWriteAnswer n v = s.crWriteAnswer n v := h.answer Env.crWrites .cell _
  simp only [State.writeCr, answer]
  split
  · exact .ok (left.map (f := (·.setCr n v)) fun _ _ _ _ => rfl)
  · exact .error _
  · exact .ok (left.applyActs _ _)

theorem State.askInterrupt_of_none {s : State} (h : s.delay = none) : s.askInterrupt =
    (s.interruptAnswer, { s with env := { s.env with interrupts := s.env.interrupts.rest } }) := by
  unfold State.askInterrupt
  split <;> simp_all

theorem State.askInterrupt_of_some {s : State} {q : Pending} (h : s.delay = some q) :
    s.askInterrupt = (none, s) := by
  simp only [State.askInterrupt, h]

/-- The environment is asked alike, and the states it is asked from stay alike. -/
theorem SameWords.askInterrupt {s t : State} (h : SameWords s t) :
    t.askInterrupt.1 = s.askInterrupt.1 ∧ SameWords s.askInterrupt.2 t.askInterrupt.2 := by
  cases hd : s.delay with
  | some q =>
    rw [State.askInterrupt_of_some hd, State.askInterrupt_of_some (h.looksLike.delay.trans hd)]
    exact ⟨rfl, h⟩
  | none =>
    rw [State.askInterrupt_of_none hd, State.askInterrupt_of_none (h.looksLike.delay.trans hd)]
    exact ⟨h.answer Env.interrupts none _, h.mapEnv fun e => { e with interrupts := e.interrupts.rest }⟩

theorem SameWords.deliver {s t : State} (h : SameWords s t) (k : Interrupt) :
    SameWords (s.deliver k) (t.deliver k) :=
  ((h.withIntr true).map (record_ignoresImages _)).applyActs [] k.deliver

theorem SameWords.outsideSlot {s t : State} (h : SameWords s t) (w : Word) {k k' : Result}
    (hk : Result.SameWords k k') : Result.SameWords (s.outsideSlot w k) (t.outsideSlot w k') := by
  rw [State.outsideSlot, State.outsideSlot, h.looksLike.delay, h.pc]
  split
  · rfl
  · exact hk

/-! ### The instruction and the step -/

/-- Every instruction ends alike: the ALU, the branches and the jumps ignore the images, the accesses and
the environment see words only. -/
theorem SameWords.exec {s t : State} (h : SameWords s t) (i : Instr) :
    Result.SameWords (Machine.exec i s) (Machine.exec i t) := by
  cases i with
  | addi | add | addc => exact h.run fun u o d p => addInto_withImages u o d p _ _ _ _
  | sub | subc => exact h.run fun u o d p => subInto_withImages u o d p _ _ _ _
  | cmpi | cmp => exact h.run fun _ _ _ _ => rfl
  | andi | ori | xori | and | or | xor => exact h.run fun u o d p => logicInto_withImages u o d p _ _
  | hadd | haddc => exact h.run fun u o d p => haddInto_withImages u o d p _ _ _ _
  | ldi | ldui | upsample | byteswap => exact h.run fun u o d p => moveInto_withImages u o d p _ _
  | addipc =>
    exact h.run fun u o d p => outsideSlot_withImages u o d p _ (moveInto_withImages u o d p _ _)
  | bz | bnz | bc | bnc | bn | bnn | bo | bno =>
    exact h.run fun u o d p => branch_withImages u o d p _ _ _
  | ja | j => exact h.run fun u o d p => jump_withImages u o d p _ _ _
  | ld rd address off =>
    rw [Machine.exec, Machine.exec, execLd, execLd, h.effAddr]
    exact (h.leaveSlot.readData _).proceed_sameWords fun p q hpq => ((hpq.setReg rd).withIntr _).finish h
  | ldp rd address ign =>
    rw [Machine.exec, Machine.exec, execLdp, execLdp, h.getReg, h.looksLike.intr, h.ldpClearsIntr]
    exact (h.leaveSlot.readProg _).proceed_sameWords fun p q hpq => ((hpq.setReg rd).withIntr _).finish h
  | ldcr rd cr ign =>
    exact (h.leaveSlot.readCr cr).proceed_sameWords fun p q hpq => (hpq.setReg rd).finish h
  | st address off rs =>
    rw [Machine.exec, Machine.exec, execSt, execSt, h.effAddr, h.getReg]
    exact (h.leaveSlot.writeDataIf _ _ _).proceed_sameWords fun u v huv => huv.finish h
  | stCond address rs ign =>
    rw [Machine.exec, Machine.exec, execStCond, execStCond, h.getReg, h.getReg, h.looksLike.intr]
    exact (h.leaveSlot.writeDataIf _ _ _).proceed_sameWords fun u v huv =>
      (huv.map stCondFlags_ignoresImages).finish h
  | stcr cr rs ign =>
    rw [Machine.exec, Machine.exec, execStcr, execStcr, h.getReg]
    exact (h.leaveSlot.writeCr cr _).proceed_sameWords fun u v huv => huv.finish h
  | syscall code ign => exact h.outsideSlot _ (h.pastInstr.raiseSyscall code)
  | reti ign => exact h.outsideSlot _ h.raiseReti
  | brk ign => exact h.outsideSlot _ h.pastInstr.raiseBreak

theorem SameWords.runWord {s t : State} (h : SameWords s t) (w : Word) :
    Result.SameWords (s.runWord Machine.exec w) (t.runWord Machine.exec w) := by
  simp only [State.runWord]
  split
  · exact h.exec _
  · exact h.raiseIllegal w

/-- Settles O60, along the step: a stop, a delivered interrupt, or a fetch and the word it answers. -/
theorem byteOrderIsNotObservable : Obligations.ByteOrderIsNotObservable := by
  intro s t h
  obtain ⟨asked, left⟩ := h.askInterrupt
  rw [step, step, State.stepWith, State.stepWith, h.stopped]
  split
  · exact h
  · generalize s.askInterrupt = a, t.askInterrupt = b at asked left
    obtain ⟨answer, u⟩ := a
    obtain ⟨answer', v⟩ := b
    obtain rfl : answer' = answer := asked
    cases answer' with
    | some k => exact left.deliver k
    | none =>
      refine left.fetch.proceed_sameWords fun p q hpq => ?_
      obtain ⟨hword, hstate⟩ := hpq
      rw [hword]
      exact hstate.runWord p.1

end Sys2Proof.Machine
end

section
/-! The encoding (spec/30_encoding.md R70 to R91): decoder and encoder undo each other, a word is an
instruction or lies in one unassigned range, and the rows of the opcode map exclude each other. -/

namespace Sys2Proof

/-! ### The word of an instruction decodes to it -/

theorem decode_encode (i : Instr) : decode (encode i) = .ok i := by
  cases i with
  | addi r imm => exact Laws.RoundTrip.addi r imm
  | andi r imm => exact Laws.RoundTrip.andi r imm
  | ori r imm => exact Laws.RoundTrip.ori r imm
  | xori r imm => exact Laws.RoundTrip.xori r imm
  | cmpi r imm => exact Laws.RoundTrip.cmpi r imm
  | ldi r imm => exact Laws.RoundTrip.ldi r imm
  | ldui r imm => exact Laws.RoundTrip.ldui r imm
  | addipc rd imm => exact Laws.RoundTrip.addipc rd imm
  | add rd rs1 rs2 => exact Laws.RoundTrip.add rd rs1 rs2
  | addc rd rs1 rs2 => exact Laws.RoundTrip.addc rd rs1 rs2
  | sub rd rs1 rs2 => exact Laws.RoundTrip.sub rd rs1 rs2
  | subc rd rs1 rs2 => exact Laws.RoundTrip.subc rd rs1 rs2
  | and rd rs1 rs2 => exact Laws.RoundTrip.and rd rs1 rs2
  | or rd rs1 rs2 => exact Laws.RoundTrip.or rd rs1 rs2
  | xor rd rs1 rs2 => exact Laws.RoundTrip.xor rd rs1 rs2
  | cmp rd rs1 rs2 => exact Laws.RoundTrip.cmp rd rs1 rs2
  | hadd rd rs1 rs2 => exact Laws.RoundTrip.hadd rd rs1 rs2
  | haddc rd rs1 rs2 => exact Laws.RoundTrip.haddc rd rs1 rs2
  | upsample rd rs1 rs2 => exact Laws.RoundTrip.upsample rd rs1 rs2
  | byteswap rd rs1 rs2 => exact Laws.RoundTrip.byteswap rd rs1 rs2
  | bz off ign => exact Laws.RoundTrip.bz off ign
  | bnz off ign => exact Laws.RoundTrip.bnz off ign
  | bc off ign => exact Laws.RoundTrip.bc off ign
  | bnc off ign => exact Laws.RoundTrip.bnc off ign
  | bn off ign => exact Laws.RoundTrip.bn off ign
  | bnn off ign => exact Laws.RoundTrip.bnn off ign
  | bo off ign => exact Laws.RoundTrip.bo off ign
  | bno off ign => exact Laws.RoundTrip.bno off ign
  | ld rd address off => exact Laws.RoundTrip.ld rd address off
  | st address off rs => exact Laws.RoundTrip.st address off rs
  | ldcr rd cr ign => exact Laws.RoundTrip.ldcr rd cr ign
  | stcr cr rs ign => exact Laws.RoundTrip.stcr cr rs ign
  | syscall code ign => exact Laws.RoundTrip.syscall code ign
  | ja address link ign => exact Laws.RoundTrip.ja address link ign
  | j off link => exact Laws.RoundTrip.j off link
  | ldp rd address ign => exact Laws.RoundTrip.ldp rd address ign
  | stCond address rs ign => exact Laws.RoundTrip.stCond address rs ign
  | reti ign => exact Laws.RoundTrip.reti ign
  | brk ign => exact Laws.RoundTrip.brk ign

theorem encode_injective {i k : Instr} (h : encode i = encode k) : i = k := by
  have decoded := decode_encode i
  rw [h, decode_encode] at decoded
  exact (Except.ok.inj decoded).symm

/-- The image bytes of a word decode as the word does, with the bytes after them left over. -/
theorem decodeBytes_wordBytes (o : ByteOrder) {w : Word} {i : Instr} (h : decode w = .ok i)
    (rest : List Byte) : decodeBytes o (wordBytes o w ++ rest) = .ok (i, rest) := by
  cases o <;> simp [wordBytes, decodeBytes, Machine.word_of_bytes, h]

/-- Settles O2: the round trip of each instruction, and its word joined again from its image bytes. -/
theorem decodeOfEncodeIsIdentity : Obligations.DecodeOfEncodeIsIdentity := fun o i rest =>
  ⟨decode_encode i, decodeBytes_wordBytes o (decode_encode i) rest⟩

/-! ### What decoding a word answers -/

/-- The word is one of the row of the opcode map with this mask and match. -/
def InRow (row : Word × Word) (w : Word) : Prop := w &&& row.1 = row.2

/-- Mask and match of the register-ALU opcodes 1100 to 1111 (spec/30_encoding.md R90 (a)). -/
def registerAluGap : Word × Word := (0xF800, 0x5800)

/-- Mask and match of major opcode 1110 (spec/30_encoding.md R90 (b)). -/
def groupGap : Word × Word := (0xF000, 0xE000)

/-- A word with its low `k` bits masked off, as a number. -/
theorem masked_toNat (w : Word) (k : Nat) :
    (w &&& BitVec.allOnes 16 <<< k).toNat = w.toNat / 2 ^ k * 2 ^ k := by
  have le := (Nat.div_mul_le_self w.toNat (2 ^ k)).trans_lt w.isLt
  rw [← BitVec.shiftLeft_ushiftRight, BitVec.toNat_shiftLeft, BitVec.toNat_ushiftRight,
    Nat.shiftLeft_eq, Nat.shiftRight_eq_div_pow, Nat.mod_eq_of_lt le]

theorem inRow_registerAluGap (w : Word) :
    InRow registerAluGap w ↔ 0x5800 ≤ w.toNat ∧ w.toNat ≤ 0x5FFF := by
  have masked : (w &&& 0xF800#16).toNat = w.toNat / 2 ^ 11 * 2 ^ 11 := masked_toNat w 11
  change w &&& 0xF800#16 = 0x5800#16 ↔ _
  rw [← BitVec.toNat_inj, masked, BitVec.toNat_ofNat]
  omega

theorem inRow_groupGap (w : Word) : InRow groupGap w ↔ 0xE000 ≤ w.toNat ∧ w.toNat ≤ 0xEFFF := by
  have masked : (w &&& 0xF000#16).toNat = w.toNat / 2 ^ 12 * 2 ^ 12 := masked_toNat w 12
  change w &&& 0xF000#16 = 0xE000#16 ↔ _
  rw [← BitVec.toNat_inj, masked, BitVec.toNat_ofNat]
  omega

theorem encode_decodeImmediateAlu {w : Word} (h : w.extractLsb' 14 2 = 0b00#2) :
    encode (decodeImmediateAlu w) = w := by
  have fields := join_immediate w
  rw [h] at fields
  unfold decodeImmediateAlu
  split <;> rename_i sel <;> rw [sel] at fields <;> exact fields

theorem encode_decodeBranch {w : Word} (h : w.extractLsb' 13 3 = 0b011#3) :
    encode (decodeBranch w) = w := by
  have fields := join_branch w
  rw [h] at fields
  unfold decodeBranch
  split <;> rename_i sel <;> rw [sel] at fields <;> exact fields

theorem encode_decodeLoadStore {w : Word} (h : w.extractLsb' 14 2 = 0b10#2) :
    encode (decodeLoadStore w) = w := by
  have fields := join_loadStore w
  rw [h] at fields
  unfold decodeLoadStore
  split <;> rename_i sel <;> rw [sel] at fields <;> exact fields

theorem encode_decodeControlRegister {w : Word} (h : w.extractLsb' 13 3 = 0b110#3) :
    encode (decodeControlRegister w) = w := by
  have fields := join_controlRegister w
  rw [h] at fields
  unfold decodeControlRegister
  split <;> rename_i sel <;> rw [sel] at fields <;> exact fields

/-- Bit 9 belongs to the offset of `j`; the two bits above it select (spec/30_encoding.md R80). -/
theorem encode_j_of_fields {w : Word} (h : w.extractLsb' 12 4 = 0b1111#4)
    (sel : w.extractLsb' 9 3 = 0b010#3 ∨ w.extractLsb' 9 3 = 0b011#3) :
    encode (.j (w.extractLsb' 3 7) (w.extractLsb' 0 3)) = w := by
  have fields := join_jump w
  have two : w.extractLsb' 10 2 = 0b01#2 := by
    simp only [← BitVec.toNat_inj, slice_toNat, BitVec.toNat_ofNat] at sel ⊢
    omega
  rwa [h, two] at fields

theorem encode_decodeSystem {w : Word} (h : w.extractLsb' 12 4 = 0b1111#4) :
    encode (decodeSystem w) = w := by
  have code := join_syscall w
  have address := join_address w
  have rest := join_noOperand w
  rw [h] at code address rest
  unfold decodeSystem
  split <;> rename_i sel
  · rwa [sel] at code
  · rwa [sel] at address
  · exact encode_j_of_fields h (.inl sel)
  · exact encode_j_of_fields h (.inr sel)
  · rwa [sel] at address
  · rwa [sel] at address
  · rwa [sel] at rest
  · rwa [sel] at rest

theorem decodeRegisterAlu_cases {w : Word} (h : w.extractLsb' 13 3 = 0b010#3) :
    (∃ i, decodeRegisterAlu w = .ok i ∧ encode i = w) ∨
      decodeRegisterAlu w = .error (.unassignedRegisterAlu w) ∧ InRow registerAluGap w := by
  have fields := join_registers w
  rw [h] at fields
  unfold decodeRegisterAlu
  split
  case h_13 =>
    refine .inr ⟨rfl, (inRow_registerAluGap w).2 ?_⟩
    simp only [imp_false, ← BitVec.toNat_inj, slice_toNat, BitVec.toNat_ofNat] at *
    omega
  all_goals
    rename_i sel
    rw [sel] at fields
    exact .inl ⟨_, rfl, fields⟩

/-- What decoding a word answers: an instruction whose word it is, or the unassigned range it lies in
(spec/30_encoding.md R71, R90). -/
theorem decode_cases (w : Word) :
    (∃ i, decode w = .ok i ∧ encode i = w) ∨
      (decode w = .error (.unassignedRegisterAlu w) ∧ InRow registerAluGap w) ∨
      decode w = .error (.unassignedGroup1110 w) ∧ InRow groupGap w := by
  unfold decode
  split_ifs with immediate register branch loadStore control gap
  · exact .inl ⟨_, rfl, encode_decodeImmediateAlu immediate⟩
  · exact (decodeRegisterAlu_cases register).imp_right .inl
  · exact .inl ⟨_, rfl, encode_decodeBranch branch⟩
  · exact .inl ⟨_, rfl, encode_decodeLoadStore loadStore⟩
  · exact .inl ⟨_, rfl, encode_decodeControlRegister control⟩
  · refine .inr (.inr ⟨rfl, (inRow_groupGap w).2 ?_⟩)
    simp only [← BitVec.toNat_inj, slice_toNat, BitVec.toNat_ofNat] at gap
    omega
  · refine .inl ⟨_, rfl, encode_decodeSystem ?_⟩
    simp only [← BitVec.toNat_inj, slice_toNat, BitVec.toNat_ofNat] at *
    omega

theorem encode_of_decode {w : Word} {i : Instr} (h : decode w = .ok i) : encode i = w := by
  rcases decode_cases w with ⟨k, hk, hw⟩ | ⟨hk, -⟩ | ⟨hk, -⟩ <;> rw [hk] at h <;> cases h
  exact hw

/-- Settles O3: a word that is an instruction is the word of that instruction. -/
theorem encodeOfDecodeIsIdentity : Obligations.EncodeOfDecodeIsIdentity := fun _ _ => encode_of_decode

/-- Settles O1: each word's fields are read off. -/
theorem specWordsDecode : Obligations.SpecWordsDecode :=
  ⟨rfl, rfl, rfl, rfl, rfl, rfl, rfl, rfl, rfl, rfl, rfl, rfl, rfl, rfl, rfl, rfl, rfl, rfl, rfl, rfl, rfl⟩

end Sys2Proof
end

section
/-! The opcode map (spec/30_encoding.md R88, R90): its rows and the two unassigned ranges exclude each
other, so mask and match decide what a word is. -/

namespace Sys2Proof

open Machine

/-! ### The row of an instruction's word -/

theorem append2_and_opcode {n k : Nat} (p : BitVec n) (a : BitVec k) :
    (p ++ a) &&& (BitVec.allOnes n ++ 0#k) = p ++ 0#k := by
  rw [BitVec.and_append, BitVec.and_allOnes, BitVec.and_zero]

theorem append3_and_opcode {n k l : Nat} (p : BitVec n) (a : BitVec k) (b : BitVec l) :
    (p ++ a ++ b) &&& (BitVec.allOnes n ++ 0#k ++ 0#l) = p ++ 0#k ++ 0#l := by
  rw [BitVec.and_append, append2_and_opcode, BitVec.and_zero]

theorem append4_and_opcode {n k l m : Nat} (p : BitVec n) (a : BitVec k) (b : BitVec l) (c : BitVec m) :
    (p ++ a ++ b ++ c) &&& (BitVec.allOnes n ++ 0#k ++ 0#l ++ 0#m) = p ++ 0#k ++ 0#l ++ 0#m := by
  rw [BitVec.and_append, append3_and_opcode, BitVec.and_zero]

/-- The selecting bits of an instruction's word are the first fields of its format. -/
theorem encode_inRow (i : Instr) : InRow (opcodeRow i) (encode i) := by
  cases i with
  | addi | andi | ori | xori | cmpi | ldi | ldui | addipc => exact append3_and_opcode _ _ _
  | add | addc | sub | subc | and | or | xor | cmp | hadd | haddc | upsample | byteswap =>
    exact append4_and_opcode _ _ _ _
  | bz | bnz | bc | bnc | bn | bnn | bo | bno => exact append3_and_opcode _ _ _
  | ld | st => exact append4_and_opcode _ _ _ _
  | ldcr | stcr => exact append4_and_opcode _ _ _ _
  | syscall | j => exact append3_and_opcode _ _ _
  | ja | ldp | stCond => exact append4_and_opcode _ _ _ _
  | reti | brk => exact append2_and_opcode _ _

theorem inRow_of_decode {w : Word} {i : Instr} (h : decode w = .ok i) : InRow (opcodeRow i) w :=
  encode_of_decode h ▸ encode_inRow i

/-! ### The rows exclude each other -/

/-- The rows of the opcode map, in the order of the instructions. -/
def opcodeRows : List (Word × Word) :=
  [(0xF800, 0x0000), (0xF800, 0x0800), (0xF800, 0x1000), (0xF800, 0x1800), (0xF800, 0x2000),
   (0xF800, 0x2800), (0xF800, 0x3000), (0xF800, 0x3800), (0xFE00, 0x4000), (0xFE00, 0x4200),
   (0xFE00, 0x4400), (0xFE00, 0x4600), (0xFE00, 0x4800), (0xFE00, 0x4A00), (0xFE00, 0x4C00),
   (0xFE00, 0x4E00), (0xFE00, 0x5000), (0xFE00, 0x5200), (0xFE00, 0x5400), (0xFE00, 0x5600),
   (0xFC00, 0x6000), (0xFC00, 0x6400), (0xFC00, 0x6800), (0xFC00, 0x6C00), (0xFC00, 0x7000),
   (0xFC00, 0x7400), (0xFC00, 0x7800), (0xFC00, 0x7C00), (0xE000, 0x8000), (0xE000, 0xA000),
   (0xF000, 0xC000), (0xF000, 0xD000), (0xFE00, 0xF000), (0xFE00, 0xF200), (0xFC00, 0xF400),
   (0xFE00, 0xF800), (0xFE00, 0xFA00), (0xFE00, 0xFC00), (0xFE00, 0xFE00)]

theorem opcodeRow_mem (i : Instr) : opcodeRow i ∈ opcodeRows := by
  cases i <;> simp [opcodeRow, opcodeRows]

/-- The rows differ in a bit that both fix. -/
abbrev Separate (r q : Word × Word) : Prop := r.2 &&& q.1 ≠ q.2 &&& r.1

theorem InRow.not_of_separate {r q : Word × Word} {w : Word} (hr : InRow r w) (h : Separate r q) :
    ¬ InRow q w := by
  intro hq
  rw [Separate, ← hr, ← hq, BitVec.and_assoc, BitVec.and_assoc, BitVec.and_comm r.1] at h
  exact h rfl

/-- Every two rows are separate, the unassigned ranges among them (spec/30_encoding.md R88, R90). -/
theorem rows_separate : (registerAluGap :: groupGap :: opcodeRows).Pairwise Separate := by
  decide +kernel

theorem separate_registerAluGap {r : Word × Word} (h : r ∈ groupGap :: opcodeRows) :
    Separate registerAluGap r :=
  (List.pairwise_cons.1 rows_separate).1 r h

theorem separate_groupGap {r : Word × Word} (h : r ∈ opcodeRows) : Separate groupGap r :=
  (List.pairwise_cons.1 (List.pairwise_cons.1 rows_separate).2).1 r h

theorem opcodeRow_eq_of_inRow {i j : Instr} {w : Word} (hi : InRow (opcodeRow i) w)
    (hj : InRow (opcodeRow j) w) : opcodeRow i = opcodeRow j := by
  have rows : opcodeRows.Pairwise Separate :=
    (List.pairwise_cons.1 (List.pairwise_cons.1 rows_separate).2).2
  have : Std.Symm Separate := ⟨fun _ _ => Ne.symm⟩
  by_contra hne
  exact hi.not_of_separate (rows.forall (opcodeRow_mem i) (opcodeRow_mem j) hne) hj

/-- A word of an instruction's row lies in no unassigned range. -/
theorem not_gap_of_inRow {w : Word} {i : Instr} (h : InRow (opcodeRow i) w) :
    ¬ InRow registerAluGap w ∧ ¬ InRow groupGap w :=
  ⟨fun gap => gap.not_of_separate (separate_registerAluGap (.tail _ (opcodeRow_mem i))) h,
    fun gap => gap.not_of_separate (separate_groupGap (opcodeRow_mem i)) h⟩

/-- No word lies in both unassigned ranges. -/
theorem not_groupGap_of_registerAluGap {w : Word} (h : InRow registerAluGap w) : ¬ InRow groupGap w :=
  h.not_of_separate (separate_registerAluGap (.head _))

/-- Settles O4: every word is an instruction or lies in one of the ranges, and these exclude each other. -/
theorem unassignedWordsAreTheTwoRanges : Obligations.UnassignedWordsAreTheTwoRanges := by
  intro w
  rw [← inRow_registerAluGap, ← inRow_groupGap]
  rcases decode_cases w with ⟨i, hi, -⟩ | ⟨hw, gap⟩ | ⟨hw, gap⟩
  · simp [hi, not_gap_of_inRow (inRow_of_decode hi)]
  · simp [hw, gap, not_groupGap_of_registerAluGap gap]
  · have other : ¬ InRow registerAluGap w := fun k => not_groupGap_of_registerAluGap k gap
    simp [hw, gap, other]

/-- Settles O5: a word of a row is an instruction, being in no unassigned range, and its row is that one,
the rows being separate. -/
theorem opcodeMapDecidesTheRow : Obligations.OpcodeMapDecidesTheRow := by
  intro w j
  constructor
  · intro (h : InRow (opcodeRow j) w)
    obtain ⟨noAlu, noGroup⟩ := not_gap_of_inRow h
    rcases decode_cases w with ⟨i, hi, -⟩ | ⟨-, gap⟩ | ⟨-, gap⟩
    · exact ⟨i, hi, opcodeRow_eq_of_inRow (inRow_of_decode hi) h⟩
    · exact absurd gap noAlu
    · exact absurd gap noGroup
  · rintro ⟨i, hi, hrow⟩
    exact hrow ▸ inRow_of_decode hi

end Sys2Proof
end

section
/-! The ignored bits (spec/30_encoding.md R86, R87): an instruction with other values in them has the
word with other values in them, and runs alike. -/

namespace Sys2Proof

open Machine

/-! ### Words that differ in the ignored bits -/

/-- The instruction with its ignored bits those of the word `v`. -/
def withIgnored (v : Word) : Instr → Instr
  | .bz off _ => .bz off (v.extractLsb' 0 3)
  | .bnz off _ => .bnz off (v.extractLsb' 0 3)
  | .bc off _ => .bc off (v.extractLsb' 0 3)
  | .bnc off _ => .bnc off (v.extractLsb' 0 3)
  | .bn off _ => .bn off (v.extractLsb' 0 3)
  | .bnn off _ => .bnn off (v.extractLsb' 0 3)
  | .bo off _ => .bo off (v.extractLsb' 0 3)
  | .bno off _ => .bno off (v.extractLsb' 0 3)
  | .syscall code _ => .syscall code (v.extractLsb' 0 3)
  | .ldcr rd cr _ => .ldcr rd cr (v.extractLsb' 3 6)
  | .stcr cr rs _ => .stcr cr rs (v.extractLsb' 3 6)
  | .ja address link _ => .ja address link (v.extractLsb' 3 3)
  | .ldp rd address _ => .ldp rd address (v.extractLsb' 3 3)
  | .stCond address rs _ => .stCond address rs (v.extractLsb' 3 3)
  | .reti _ => .reti (v.extractLsb' 0 9)
  | .brk _ => .brk (v.extractLsb' 0 9)
  | i => i

theorem withIgnored_zero (i : Instr) : withIgnored 0 i = zeroIgnored i := by
  cases i <;> rfl

theorem zeroIgnored_withIgnored (v : Word) (i : Instr) :
    zeroIgnored (withIgnored v i) = zeroIgnored i := by
  cases i <;> rfl

/-- `x` with the bits under the mask replaced by those of `v`. -/
def replaceBits {n : Nat} (mask v x : BitVec n) : BitVec n := (x &&& ~~~mask) ||| (v &&& mask)

theorem getElem_replaceBits {n : Nat} (mask v x : BitVec n) (i : Nat) (hi : i < n) :
    (replaceBits mask v x)[i] = if mask[i] then v[i] else x[i] := by
  by_cases masked : mask[i] = true <;> simp [replaceBits, masked]

theorem replaceBits_none {n : Nat} (v x : BitVec n) : replaceBits 0 v x = x := by
  ext i hi
  simp [getElem_replaceBits]

theorem replaceBits_low {n k : Nat} (a : BitVec n) (b : BitVec k) (v : BitVec (n + k)) :
    replaceBits (0#n ++ BitVec.allOnes k) v (a ++ b) = a ++ v.extractLsb' 0 k := by
  ext i hi
  rw [getElem_replaceBits]
  by_cases low : i < k <;> simp [BitVec.getElem_append, low, BitVec.getLsbD_eq_getElem hi]

theorem replaceBits_middle {n k m : Nat} (a : BitVec n) (b : BitVec k) (c : BitVec m)
    (v : BitVec (n + k + m)) : replaceBits (0#n ++ BitVec.allOnes k ++ 0#m) v (a ++ b ++ c) =
      a ++ v.extractLsb' m k ++ c := by
  ext i hi
  rw [getElem_replaceBits]
  by_cases low : i < m
  · simp [BitVec.getElem_append, low]
  · by_cases mid : i - m < k
    · have same : m + (i - m) = i := by omega
      simp [BitVec.getElem_append, low, mid, same, BitVec.getLsbD_eq_getElem hi]
    · simp [BitVec.getElem_append, low, mid]

theorem encode_withIgnored (v : Word) (i : Instr) :
    encode (withIgnored v i) = replaceBits (ignoredBits i) v (encode i) := by
  cases i with
  | bz | bnz | bc | bnc | bn | bnn | bo | bno | syscall =>
    exact (replaceBits_low (n := 13) (k := 3) _ _ v).symm
  | ldcr | stcr => exact (replaceBits_middle (n := 7) (k := 6) (m := 3) _ _ _ v).symm
  | ja | ldp | stCond => exact (replaceBits_middle (n := 10) (k := 3) (m := 3) _ _ _ v).symm
  | reti | brk => exact (replaceBits_low (n := 7) (k := 9) _ _ v).symm
  | _ => exact (replaceBits_none v _).symm

/-- Words that agree outside the mask: one is the other with the bits under the mask replaced. -/
theorem replaceBits_of_agree {mask w u : Word} (h : (w ^^^ u) &&& ~~~mask = 0) :
    replaceBits mask u w = u := by
  ext i hi
  have bit := congrArg (·[i]) h
  rw [getElem_replaceBits]
  split
  · rfl
  next unmasked => simpa [unmasked] using bit

theorem eq_replaceBits_zero_iff {mask w : Word} : w = replaceBits mask 0 w ↔ w &&& mask = 0 := by
  simp only [BitVec.eq_of_getElem_eq_iff, getElem_replaceBits]
  refine forall_congr' fun i => forall_congr' fun hi => ?_
  by_cases masked : mask[i] = true <;> simp [masked]

theorem wellFormed_iff_eq_zeroIgnored (i : Instr) : WellFormed i ↔ i = zeroIgnored i := by
  cases i <;> simp [WellFormed, Instr.wellFormed, zeroIgnored]

/-- The assembler's form has zeros in the ignored bits of its word (spec/30_encoding.md R86, D17). -/
theorem wellFormed_iff_encode (i : Instr) : WellFormed i ↔ encode i &&& ignoredBits i = 0 := by
  rw [wellFormed_iff_eq_zeroIgnored, ← eq_replaceBits_zero_iff, ← encode_withIgnored, withIgnored_zero]
  exact ⟨congrArg encode, encode_injective⟩

/-! ### Running alike -/

/-- The ignored bits do not matter where no control instruction stands in the slot of a taken branch:
only the word of that fault shows them. -/
theorem exec_withIgnored {i : Instr} {s : State} (h : s.delay = none ∨ isControl i = false) (v : Word) :
    exec (withIgnored v i) s = exec i s := by
  have outside (hc : isControl i = true) (u w : Word) (k : Result) :
      s.outsideSlot u k = s.outsideSlot w k := by
    have free : s.delay = none := h.resolve_right (by simp [hc])
    rw [State.outsideSlot_of_none free, State.outsideSlot_of_none free]
  cases i with
  | bz | bnz | bc | bnc | bn | bnn | bo | bno => exact outside rfl _ _ _
  | ja | syscall | reti | brk => exact outside rfl _ _ _
  | ldcr | stcr | ldp | stCond => rfl
  | _ => rfl

/-- In the slot of a taken branch a control instruction faults under its own word
(spec/42_branches.md R141 (d)). -/
theorem exec_control_of_pending {i : Instr} {s : State} {t : Pending} (hd : s.delay = some t)
    (hc : isControl i = true) : exec i s = .fault (.delaySlotControl (encode i) s.pc) := by
  cases i with
  | addipc | bz | bnz | bc | bnc | bn | bnn | bo | bno | j | ja | syscall | reti | brk =>
    exact State.outsideSlot_of_some hd _ _
  | _ => cases hc

theorem isControl_withIgnored (v : Word) (i : Instr) : isControl (withIgnored v i) = isControl i := by
  cases i <;> rfl

/-- Settles O6: the second word is that of the instruction with its ignored bits. -/
theorem ignoredBitsTakeNoPart : Obligations.IgnoredBitsTakeNoPart := by
  intro w u i hw hu
  obtain rfl := encode_of_decode hw
  have word : encode (withIgnored u i) = u := by
    rw [encode_withIgnored, replaceBits_of_agree hu]
  have decoded : decode u = .ok (withIgnored u i) := by
    rw [← decode_encode (withIgnored u i), word]
  refine ⟨withIgnored u i, decoded, zeroIgnored_withIgnored u i,
    wellFormed_iff_encode i, fun s => ⟨fun h => exec_withIgnored h u, fun t hd hc => ⟨?_, ?_⟩⟩⟩
  · exact exec_control_of_pending hd hc
  · rw [exec_control_of_pending hd ((isControl_withIgnored u i).trans hc), word]

/-! ### The destination of `cmp` -/

/-- Settles O7: the word is that of `cmp`, whose meaning is a comparison of its sources alone. -/
theorem cmpIgnoresItsDestination : Obligations.CmpIgnoresItsDestination := by
  intro rd rd' rs1 rs2 s
  obtain ⟨t, ht, regs, -⟩ := compare_spec s (s.getReg rs1) (s.getReg rs2)
  exact ⟨decode_encode (.cmp rd rs1 rs2), rfl, t, ht, regs⟩

end Sys2Proof
end

section
/-! The immediate ALU instructions (spec/40_immediate_alu.md R101 to R108): each is a shape of
instruction applied to its register and its immediate, and its word is its encoding. -/

namespace Sys2Proof.Machine

/-! ### Results -/

/-- A bitwise shape ends as the rules say (spec/10_state.md R33, third row). -/
theorem logicInto_ends (s : State) (rd : Reg) (res : Word) :
    ∃ t, s.logicInto rd res = .next t ∧ LogicInto rd res s t := by
  obtain ⟨t, ht, written, flags, frame, draws⟩ := logicInto_spec s rd res
  have zn : ZNOf res t := znOf_of_flags (by rw [flags]) (by rw [flags])
  exact ⟨t, ht, written, zn, by rw [flags], by rw [flags], draws, frame⟩

/-- An addition without a carry is that of words (spec/41_register_alu.md R121). -/
theorem addResult_noCarry (a b : Word) : addResult a b false = a + b := by
  rw [addResult_eq, BitVec.ofNat_add, BitVec.ofNat_add]
  simp

/-- The sum of a word and an immediate, as one truncated integer (spec/40_immediate_alu.md R101). -/
theorem addResult_immWord (a : Word) (imm : BitVec 8) :
    addResult a (immWord imm) false = BitVec.ofInt 16 (a.toNat + imm.toInt) := by
  rw [addResult_noCarry, immWord_eq, add_ofInt]

/-- `Pc` plus an immediate, as one truncated integer (spec/40_immediate_alu.md R108). -/
theorem pcRead_add_immWord (s : State) (imm : BitVec 8) :
    s.pcRead + immWord imm =
      BitVec.ofInt 16 (s.pc.toNat + s.params.pcReadBias.toNat + imm.toInt) := by
  rw [State.pcRead, immWord_eq, BitVec.ofInt_add, BitVec.ofInt_add]
  simp

/-- Two bytes joined, as a number. -/
theorem append_bytes_eq (high low : Byte) :
    high ++ low = BitVec.ofNat 16 (high.toNat * 256 + low.toNat) := by
  apply BitVec.eq_of_toNat_eq
  rw [append_toNat, BitVec.toNat_ofNat]
  omega

/-- The result of `ldui` under both values of `LDUI_KEEPS_LOW_BYTE` (spec/40_immediate_alu.md R107). -/
theorem lduiResult_eq (keeps : Bool) (old : Word) (imm : BitVec 8) :
    imm ++ (if keeps then old.extractLsb' 0 8 else 0#8) =
      BitVec.ofNat 16 (imm.toNat * 256 + if keeps = true then old.toNat % 256 else 0) := by
  rw [append_bytes_eq]
  cases keeps
  · rfl
  · simp

/-! ### The instructions -/

/-- Settles O8: `addi` is the addition of its immediate without a carry. -/
theorem addiAddsItsImmediate : Obligations.AddiAddsItsImmediate := by
  refine fun r imm => ⟨decode_encode (.addi r imm), fun s => ?_⟩
  obtain ⟨t, ht, written, flags, frame, draws⟩ := addInto_spec s r (s.getReg r) (immWord imm) false
  rw [addResult_immWord] at written
  have sums := addFlagsOf_of_flags flags
  rw [immWord_eq] at sums
  exact ⟨t, ht, written, sums, frame, draws⟩

/-- Settles O9: each is the bitwise shape of its result. -/
theorem bitwiseImmediates : Obligations.BitwiseImmediates := by
  intro r imm s
  rw [← immWord_eq]
  exact ⟨decode_encode (.andi r imm), decode_encode (.ori r imm), decode_encode (.xori r imm),
    logicInto_ends s r _, logicInto_ends s r _, logicInto_ends s r _⟩

/-- Settles O10: `cmpi` is the comparison with its immediate. -/
theorem cmpiWritesFlagsOnly : Obligations.CmpiWritesFlagsOnly := by
  refine fun r imm => ⟨decode_encode (.cmpi r imm), fun s => ?_⟩
  obtain ⟨t, ht, regs, flags, frame, draws⟩ := compare_spec s (s.getReg r) (immWord imm)
  have differences := subFlagsOf_of_flags flags
  rw [immWord_eq] at differences
  exact ⟨t, ht, regs, differences, frame, draws⟩

/-- Settles O11: `ldi` moves its immediate. -/
theorem ldiLoadsItsImmediate : Obligations.LdiLoadsItsImmediate := by
  refine fun r imm => ⟨decode_encode (.ldi r imm), fun s => ?_⟩
  rw [← immWord_eq]
  exact moveInto_spec s r _

/-- Settles O12: `ldui` moves its immediate joined with the low byte the parameter asks for. -/
theorem lduiLoadsTheHighByte : Obligations.LduiLoadsTheHighByte := by
  refine fun r imm => ⟨decode_encode (.ldui r imm), fun s => ?_⟩
  rw [← lduiResult_eq]
  exact moveInto_spec s r _

/-- Settles O13: outside the slot of a taken branch `addipc` moves its sum, in it the guard faults. -/
theorem addipcAddsToPc : Obligations.AddipcAddsToPc := by
  refine fun rd imm => ⟨decode_encode (.addipc rd imm), fun s => ⟨fun outside => ?_, fun d inside => ?_⟩⟩
  · rw [exec, execAddipc, State.outsideSlot_of_none outside, ← pcRead_add_immWord]
    exact moveInto_spec s rd _
  · exact exec_control_of_pending inside rfl

end Sys2Proof.Machine
end

section
/-! The register ALU instructions (spec/41_register_alu.md R121 to R133): each is a shape of instruction
applied to its two sources, and its word is its encoding. -/

namespace Sys2Proof.Machine

/-! ### The shapes in the terms of the rules -/

/-- A flag as a number, in the spelling of the statements. -/
theorem flag_toNat_eq_ite (b : Bool) : b.toNat = if b then 1 else 0 := by
  cases b <;> rfl

/-- An addition ends with the truncated sum and its flags (spec/41_register_alu.md R121, R122). -/
theorem addInto_ends (s : State) (rd : Reg) (a b : Word) (cin : Bool) :
    ∃ t, s.addInto rd a b cin = .next t ∧
      WritesReg rd (BitVec.ofNat 16 (a.toNat + b.toNat + cin.toNat)) s t ∧
      AddFlagsOf a b cin.toNat t ∧ AluFrame s t ∧ t.draws = s.draws := by
  obtain ⟨t, ht, written, flags, frame, draws⟩ := addInto_spec s rd a b cin
  exact ⟨t, ht, addResult_eq a b cin ▸ written, addFlagsOf_of_flags flags, frame, draws⟩

/-- A subtraction ends with the difference of words and its flags (spec/41_register_alu.md R123, R124). -/
theorem subInto_ends (s : State) (rd : Reg) (a b : Word) (bin : Bool) :
    ∃ t, s.subInto rd a b bin = .next t ∧ WritesReg rd (a - b - BitVec.ofNat 16 bin.toNat) s t ∧
      SubFlagsOf a b bin.toNat s t ∧ AluFrame s t ∧ t.draws = s.draws := by
  obtain ⟨t, ht, written, flags, frame, draws⟩ := subInto_spec s rd a b bin
  exact ⟨t, ht, subResult_eq a b bin ▸ written, subFlagsOf_of_flags flags, frame, draws⟩

/-! ### Halving sums -/

theorem haddSum_noCarry (p : Params) (a b : Word) : haddSum p a b false = a.toNat + b.toNat := by
  simp [haddSum]

/-- The sum of `haddc` under both values of `HADDC_CARRY_WEIGHT` (spec/41_register_alu.md R130). -/
theorem haddSum_eq (p : Params) (a b : Word) (cin : Bool) :
    haddSum p a b cin =
      a.toNat + b.toNat + if cin then (if p.haddcWeight = .two15 then 32768 else 65536) else 0 := by
  cases cin
  · exact haddSum_noCarry p a b
  · cases h : p.haddcWeight <;> simp [haddSum, carryWeight, h]

/-- Both weights of the carry are even, so bit 0 of the sum is that of the sum of the registers. -/
theorem haddSum_parity (p : Params) (a b : Word) (cin : Bool) :
    haddSum p a b cin % 2 = (a.toNat + b.toNat) % 2 := by
  have even : carryWeight p.haddcWeight % 2 = 0 := by cases p.haddcWeight <;> rfl
  simp [haddSum, Nat.add_mod, Nat.mul_mod, even]

/-- A halving add ends with half its sum (spec/41_register_alu.md R129, R130). -/
theorem haddInto_ends (s : State) (rd : Reg) (a b : Word) (cin : Bool) {sum : Nat}
    (hsum : haddSum s.params a b cin = sum) :
    ∃ t, s.haddInto rd a b cin = .next t ∧ WritesReg rd (BitVec.ofNat 16 (sum / 2)) s t ∧
      ZNOf (BitVec.ofNat 16 (sum / 2)) t ∧ (t.flags.c = true ↔ (a.toNat + b.toNat) % 2 = 1) ∧
      t.flags.v = Config.freeBit s.draws ∧ t.draws = s.draws + 1 ∧ AluFrame s t := by
  obtain ⟨t, ht, written, flags, frame, draws⟩ := haddInto_spec s rd a b cin
  rw [haddSum_parity] at flags
  rw [haddResult_eq, hsum] at written flags
  have zn : ZNOf (BitVec.ofNat 16 (sum / 2)) t := znOf_of_flags (by rw [flags]) (by rw [flags])
  exact ⟨t, ht, written, zn, by simp [flags], by rw [flags], draws, frame⟩

/-- The halved 17-bit sum fits a word (spec/41_register_alu.md R129). -/
theorem toNat_half_sum (a b : Word) :
    (BitVec.ofNat 16 ((a.toNat + b.toNat) / 2)).toNat = (a.toNat + b.toNat) / 2 := by
  rw [BitVec.toNat_ofNat]
  omega

/-- With carry weight 2^16 the result and the new carry are the old carry and the source
(spec/41_register_alu.md R130). -/
theorem haddResult_rotates {p : Params} (h : p.haddcWeight = .two16) (a : Word) (cin : Bool) :
    haddResult p a 0 cin ++ BitVec.ofBool (decide (haddSum p a 0 cin % 2 = 1)) =
      BitVec.ofBool cin ++ a := by
  have sum : haddSum p a 0 cin = a.toNat + cin.toNat * 65536 := by
    simp [haddSum, carryWeight, h]
  have shiftedOut (n : Nat) : (decide (n % 2 = 1)).toNat = n % 2 := by
    rcases Nat.mod_two_eq_zero_or_one n with even | odd <;> simp [*]
  have := cin.toNat_le
  apply BitVec.eq_of_toNat_eq
  rw [haddResult_eq, sum, append_toNat, append_toNat]
  simp only [BitVec.toNat_ofNat, BitVec.toNat_ofBool, shiftedOut]
  omega

/-! ### Joined bytes -/

/-- Two low bytes joined, by shift and mask (spec/41_register_alu.md R131). -/
theorem joinedLowBytes_eq (a b : Word) :
    a.extractLsb' 0 8 ++ b.extractLsb' 0 8 = a <<< 8 ||| b &&& 0x00FF := by
  have high : a <<< 8 = a.extractLsb' 0 8 ++ 0#8 := BitVec.shiftLeft_eq_concat_of_lt (by decide)
  have low : b &&& 0x00FF = 0#8 ++ b.extractLsb' 0 8 :=
    calc b &&& 0x00FF
        = (b.extractLsb' 8 8 ++ b.extractLsb' 0 8) &&& (0#8 ++ BitVec.allOnes 8) := by
          rw [word_of_bytes]; rfl
      _ = 0#8 ++ b.extractLsb' 0 8 := by rw [BitVec.and_append, BitVec.and_zero, BitVec.and_allOnes]
  rw [high, low]
  exact (BitVec.or_append.trans (by rw [BitVec.or_zero, BitVec.zero_or])).symm

/-- The middle word of a concatenation, by its bytes (spec/41_register_alu.md R132). -/
theorem middleWord_eq (a b : Word) :
    a.extractLsb' 0 8 ++ b.extractLsb' 8 8 = (a ++ b).extractLsb' 8 16 := by
  have := b.isLt
  apply BitVec.eq_of_toNat_eq
  rw [append_toNat, slice_toNat, slice_toNat, slice_toNat, append_toNat]
  omega

/-! ### The instructions -/

/-- Settles O14: `add` is the addition without a carry. -/
theorem addAddsTwoRegisters : Obligations.AddAddsTwoRegisters := fun rd rs1 rs2 =>
  ⟨decode_encode (.add rd rs1 rs2), fun s => addInto_ends s rd (s.getReg rs1) (s.getReg rs2) false⟩

/-- Settles O15: `addc` is the addition with the carry flag. -/
theorem addcAddsTheCarry : Obligations.AddcAddsTheCarry := by
  refine fun rd rs1 rs2 => ⟨decode_encode (.addc rd rs1 rs2), fun s => ?_⟩
  rw [← flag_toNat_eq_ite]
  exact addInto_ends s rd (s.getReg rs1) (s.getReg rs2) s.flags.c

/-- Settles O16: `sub` is the subtraction without a borrow. -/
theorem subSubtracts : Obligations.SubSubtracts := by
  refine fun rd rs1 rs2 => ⟨decode_encode (.sub rd rs1 rs2), fun s => ?_⟩
  rw [← BitVec.sub_zero (s.getReg rs1 - s.getReg rs2)]
  exact subInto_ends s rd (s.getReg rs1) (s.getReg rs2) false

/-- Settles O17: `subc` is the subtraction with the carry flag for its borrow. -/
theorem subcSubtractsTheCarry : Obligations.SubcSubtractsTheCarry := by
  refine fun rd rs1 rs2 => ⟨decode_encode (.subc rd rs1 rs2), fun s => ?_⟩
  have borrow : (if s.flags.c then (1 : Word) else 0) = BitVec.ofNat 16 s.flags.c.toNat := by
    cases s.flags.c <;> rfl
  rw [borrow, ← flag_toNat_eq_ite]
  exact subInto_ends s rd (s.getReg rs1) (s.getReg rs2) s.flags.c

/-- Settles O18: each is the bitwise shape of its result. -/
theorem bitwiseRegisters : Obligations.BitwiseRegisters := fun rd rs1 rs2 s =>
  ⟨decode_encode (.and rd rs1 rs2), decode_encode (.or rd rs1 rs2), decode_encode (.xor rd rs1 rs2),
    logicInto_ends s rd _, logicInto_ends s rd _, logicInto_ends s rd _⟩

/-- Settles O19: `cmp` and `sub` set the flags of the same subtraction. -/
theorem cmpWritesFlagsOnly : Obligations.CmpWritesFlagsOnly := by
  refine fun rd rs1 rs2 => ⟨decode_encode (.cmp rd rs1 rs2), fun s => ?_⟩
  obtain ⟨t, ht, regs, flags, frame, draws⟩ := compare_spec s (s.getReg rs1) (s.getReg rs2)
  obtain ⟨u, hu, -, flags', -⟩ := subInto_spec s rd (s.getReg rs1) (s.getReg rs2) false
  exact ⟨t, ht, regs, subFlagsOf_of_flags flags, frame, draws, u, hu, flags.trans flags'.symm⟩

/-- Settles O20: `hadd` is the halving add without a carry, whose result fits a word. -/
theorem haddHalvesTheSum : Obligations.HaddHalvesTheSum := by
  refine fun rd rs1 rs2 => ⟨decode_encode (.hadd rd rs1 rs2), fun s => ?_⟩
  obtain ⟨t, ht, ⟨written, others⟩, rest⟩ :=
    haddInto_ends s rd (s.getReg rs1) (s.getReg rs2) false (haddSum_noCarry _ _ _)
  refine ⟨t, ht, others, fun plain => ?_, fun zero => ?_, rest⟩
  · rw [written, plain]
    exact toNat_half_sum (s.getReg rs1) (s.getReg rs2)
  · rw [written, if_pos zero]

/-- Settles O21: `haddc` is the halving add with the carry flag. -/
theorem haddcHalvesTheSumWithCarry : Obligations.HaddcHalvesTheSumWithCarry := fun rd rs1 rs2 =>
  ⟨decode_encode (.haddc rd rs1 rs2), fun s =>
    haddInto_ends s rd (s.getReg rs1) (s.getReg rs2) s.flags.c (haddSum_eq _ _ _ _)⟩

/-- Settles O22: `upsample` moves its joined low bytes. -/
theorem upsampleJoinsLowBytes : Obligations.UpsampleJoinsLowBytes := by
  refine fun rd rs1 rs2 => ⟨decode_encode (.upsample rd rs1 rs2), fun s => ?_⟩
  rw [← joinedLowBytes_eq]
  exact moveInto_spec s rd _

/-- Settles O23: `byteswap` moves the middle word. -/
theorem byteswapTakesTheMiddleWord : Obligations.ByteswapTakesTheMiddleWord := by
  refine fun rd rs1 rs2 => ⟨decode_encode (.byteswap rd rs1 rs2), fun s => ?_⟩
  rw [← middleWord_eq]
  exact moveInto_spec s rd _

/-- Settles O25: the second source adds nothing, and the carry is bit 16 of the sum. -/
theorem haddcRotatesRightAtWeightTwo16 : Obligations.HaddcRotatesRightAtWeightTwo16 := by
  intro rd rs rz s weight zero plain
  obtain ⟨t, ht, ⟨written, -⟩, flags, -⟩ := haddInto_spec s rd (s.getReg rs) 0 s.flags.c
  refine ⟨t, ?_, ?_⟩
  · rw [exec, execHaddc, zero, ht]
  · rw [written, plain, flags]
    exact haddResult_rotates weight (s.getReg rs) s.flags.c

/-! ### Two-word arithmetic -/

/-- The low sum and the high sum with its carry are the sum of the joined words
(spec/41_register_alu.md R133 (b)). -/
theorem addResult_joined (a0 a1 b0 b1 : Word) :
    addResult a1 b1 (addFlags a0 b0 false).c ++ addResult a0 b0 false = (a1 ++ a0) + (b1 ++ b0) := by
  have carry : (addFlags a0 b0 false).c.toNat = (a0.toNat + b0.toNat) / 65536 := by
    by_cases wide : 65536 ≤ a0.toNat + b0.toNat <;> simp [addFlags, wide] <;> omega
  apply BitVec.eq_of_toNat_eq
  simp only [addResult_eq, append_toNat, BitVec.toNat_add, BitVec.toNat_ofNat, carry, Bool.toNat_false]
  omega

/-- The low difference and the high difference less its borrow are the difference of the joined words
(spec/41_register_alu.md R133 (b)). -/
theorem subResult_joined {p : Params} (h : p.subCarryIsBorrow = true) (a0 a1 b0 b1 : Word) :
    subResult a1 b1 (subFlags p a0 b0 false).c ++ subResult a0 b0 false = (a1 ++ a0) - (b1 ++ b0) := by
  have borrow : (subFlags p a0 b0 false).c = decide (a0.toNat < b0.toNat) := by
    simp [subFlags, h]
  have := a0.isLt
  have := b0.isLt
  have := b1.isLt
  apply BitVec.eq_of_toNat_eq
  rw [borrow, subResult_eq, subResult_eq]
  simp only [BitVec.toNat_sub, append_toNat, BitVec.toNat_ofNat]
  by_cases less : a0.toNat < b0.toNat <;> simp [less] <;> omega

theorem WritesReg.getReg_of_ne {rd r : Reg} {v : Word} {s t : State} (h : WritesReg rd v s t)
    (hr : rd ≠ r) : t.getReg r = s.getReg r :=
  h.2 r hr.symm

/-- Two registers written one after the other hold the two words written. -/
theorem joined_of_writesReg {l h : Reg} {lo hi : Word} {s t u : State} (low : WritesReg l lo s t)
    (high : WritesReg h hi t u) (params : t.params = s.params) (apart : l ≠ h)
    (plainLow : s.isZeroReg l = false) (plainHigh : s.isZeroReg h = false) :
    u.getReg h ++ u.getReg l = hi ++ lo := by
  rw [high.1, high.getReg_of_ne apart.symm, low.1, State.isZeroReg_congr params, plainLow, plainHigh]
  rfl

theorem AluFrame.params_eq {s t : State} (frame : AluFrame s t) : t.params = s.params := by
  obtain ⟨-, -, -, -, params, -⟩ := frame
  exact params

/-- Settles O24: the high instruction reads its sources as they were and the carry of the low one. -/
theorem twoWordArithmetic : Obligations.TwoWordArithmetic := by
  intro l h a0 a1 b0 b1 s notA notB apart plainLow plainHigh
  constructor
  · obtain ⟨t, ht, low, flags, frame, -⟩ := addInto_spec s l (s.getReg a0) (s.getReg b0) false
    obtain ⟨u, hu, high, -⟩ := addInto_spec t h (t.getReg a1) (t.getReg b1) t.flags.c
    refine ⟨t, u, ht, hu, ?_⟩
    rw [joined_of_writesReg low high frame.params_eq apart plainLow plainHigh, flags,
      low.getReg_of_ne notA, low.getReg_of_ne notB]
    exact addResult_joined _ _ _ _
  · intro borrow
    obtain ⟨t, ht, low, flags, frame, -⟩ := subInto_spec s l (s.getReg a0) (s.getReg b0) false
    obtain ⟨u, hu, high, -⟩ := subInto_spec t h (t.getReg a1) (t.getReg b1) t.flags.c
    refine ⟨t, u, ht, hu, ?_⟩
    rw [joined_of_writesReg low high frame.params_eq apart plainLow plainHigh, flags,
      low.getReg_of_ne notA, low.getReg_of_ne notB]
    exact subResult_joined borrow _ _ _ _

end Sys2Proof.Machine
end

section
/-! The conditional branches and the delay slot (spec/42_branches.md R140 to R150): what a branch leaves
pending, which instructions may stand in its slot, and where the run goes on after it. -/

namespace Sys2Proof.Machine

/-! ### The branch -/

/-- `s` after a branch outside every slot, in the integers of the rule (spec/42_branches.md R140). -/
def State.branched (s : State) (taken : Bool) (off : BitVec 7) : State :=
  { s with
    delay := if taken then
        some ⟨BitVec.ofInt 16 (s.pc.toNat + s.params.pcReadBias.toNat + off.toInt), 0⟩ else none
    pc := BitVec.ofNat 16 (s.pc.toNat + 1) }

/-- In `s` the instruction is a conditional branch by `off` whose condition is `taken`. -/
def Branches (i : Instr) (taken : Bool) (off : BitVec 7) (s : State) : Prop :=
  isControl i = true ∧ exec i s = s.branch (encode i) taken off

theorem nextWord_eq (pc : Word) : BitVec.ofNat 16 (pc.toNat + 1) = pc + 1 := by
  rw [BitVec.ofNat_add, BitVec.ofNat_toNat, BitVec.setWidth_eq]
  rfl


theorem Branches.exec_of_none {i : Instr} {taken : Bool} {off : BitVec 7} {s : State}
    (h : Branches i taken off s) (outside : s.delay = none) : exec i s = .next (s.branched taken off) := by
  rw [h.2, State.branch, State.outsideSlot_of_none outside, State.branched, ← relTarget_eq, nextWord_eq]

/-- A branch by its word, outside the slot of a taken branch and in it (decisions D4, D5, D6). -/
theorem Branches.ends {i : Instr} {taken : Bool} {off : BitVec 7} {s : State} (h : Branches i taken off s) :
    decode (encode i) = .ok i ∧ (s.delay = none → exec i s = .next (s.branched taken off)) ∧
      ∀ d, s.delay = some d → exec i s = .fault (.delaySlotControl (encode i) s.pc) :=
  ⟨decode_encode i, h.exec_of_none, fun _ inside => exec_control_of_pending inside h.1⟩

/-- Settles O26: each of the eight branches on its own flag. -/
theorem branchesTestTheirFlags : Obligations.BranchesTestTheirFlags := fun off ign _ =>
  ⟨Branches.ends (i := .bz off ign) ⟨rfl, rfl⟩, Branches.ends (i := .bnz off ign) ⟨rfl, rfl⟩,
    Branches.ends (i := .bc off ign) ⟨rfl, rfl⟩, Branches.ends (i := .bnc off ign) ⟨rfl, rfl⟩,
    Branches.ends (i := .bn off ign) ⟨rfl, rfl⟩, Branches.ends (i := .bnn off ign) ⟨rfl, rfl⟩,
    Branches.ends (i := .bo off ign) ⟨rfl, rfl⟩, Branches.ends (i := .bno off ign) ⟨rfl, rfl⟩⟩

/-! ### What may stand in the slot -/

/-- The result of an instruction that began in `s` and either completes normally or is refused. -/
def FinishesOrRefuses (s : State) (r : Result) : Prop :=
  (∃ u : State, r = .next (u.finish s)) ∨ ∃ e, r = .refused e

theorem finishesOrRefuses_proceed {α : Type} (s : State) (r : Except Refusal α) (f : α → State) :
    FinishesOrRefuses s (proceed r fun a => .next ((f a).finish s)) := by
  cases r with
  | ok a => exact .inl ⟨f a, rfl⟩
  | error e => exact .inr ⟨e, rfl⟩

/-- Whatever may stand in the slot of a taken branch raises no fault, and completes normally unless it is
refused (spec/42_branches.md R141 (e)). -/
theorem exec_finishesOrRefuses {i : Instr} (h : isControl i = false) (s : State) :
    FinishesOrRefuses s (exec i s) := by
  cases i with
  | ld | st | ldcr | stcr | ldp | stCond => exact finishesOrRefuses_proceed s _ _
  | addipc | bz | bnz | bc | bnc | bn | bnn | bo | bno | j | ja | syscall | reti | brk => cases h
  | _ => exact .inl ⟨_, rfl⟩

theorem exec_not_fault {i : Instr} (h : isControl i = false) (s : State) (f : Fault) :
    exec i s ≠ .fault f := by
  rcases exec_finishesOrRefuses h s with ⟨u, h⟩ | ⟨e, h⟩ <;> rw [h] <;> exact nofun

theorem FinishesOrRefuses.pc_of_next {s t : State} (h : FinishesOrRefuses s (.next t)) :
    t.pc = s.nextPc := by
  rcases h with ⟨u, h⟩ | ⟨e, h⟩ <;> cases h
  rfl

/-! ### Faults outside the slot -/

/-- Handing over raises the fault it was given and no other. -/
theorem State.handOver_fault {s : State} {e : Event} {f g : Fault} {args : List Word} {a : Answer}
    (h : s.handOver e f args a = .fault g) : g = f := by
  cases a with
  | fault => cases h; rfl
  | resume acts => cases h

theorem State.handOverOrStop_fault {s : State} {e : Event} {f g : Fault} {p : Stop} {args : List Word}
    {r : Reply} (h : s.handOverOrStop e f p args r = .fault g) : g = f := by
  cases r with
  | stop => cases h
  | answer a => exact State.handOver_fault h

/-- Outside the slot of a taken branch no instruction raises its fault: branches and jumps complete, and
the environment answers with faults of its own kinds. -/
theorem exec_not_delaySlotControl {s : State} (outside : s.delay = none) (i : Instr) (w p : Word) :
    exec i s ≠ .fault (.delaySlotControl w p) := by
  by_cases control : isControl i = true
  case neg => exact exec_not_fault (eq_false_of_ne_true control) s _
  intro h
  have run {v : Word} {k : Result} (raised : s.outsideSlot v k = .fault (.delaySlotControl w p)) :
      k = .fault (.delaySlotControl w p) := by
    rwa [State.outsideSlot_of_none outside] at raised
  cases i with
  | addipc | bz | bnz | bc | bnc | bn | bnn | bo | bno | j | ja => cases run h
  | syscall | brk => cases State.handOverOrStop_fault (run h)
  | reti => cases State.handOver_fault (run h)
  | _ => cases control

/-- Settles O28: in the slot the guard faults, and nothing else raises that fault. -/
theorem controlInstructionsFaultInTheSlot : Obligations.ControlInstructionsFaultInTheSlot := by
  intro i s
  constructor
  · rintro ⟨w, p, raised⟩
    refine ⟨?_, fun outside => exec_not_delaySlotControl outside i w p raised⟩
    exact eq_true_of_ne_false fun plain => exec_not_fault plain s _ raised
  · rintro ⟨control, inside⟩
    obtain ⟨d, pending⟩ := Option.ne_none_iff_exists'.1 inside
    exact ⟨encode i, s.pc, exec_control_of_pending pending control⟩

/-! ### After the slot -/

/-- Where the slot instruction of a branch goes on (spec/42_branches.md R140). -/
theorem State.branched_nextPc (s : State) (taken : Bool) (off : BitVec 7) :
    (s.branched taken off).nextPc =
      if taken then BitVec.ofInt 16 (s.pc.toNat + s.params.pcReadBias.toNat + off.toInt)
      else BitVec.ofNat 16 (s.pc.toNat + 2) := by
  cases taken with
  | true => rfl
  | false =>
    calc (s.branched false off).nextPc = BitVec.ofNat 16 (s.pc.toNat + 1) + 1 := rfl
      _ = BitVec.ofNat 16 (s.pc.toNat + 2) := (BitVec.ofNat_add (s.pc.toNat + 1) 1).symm

/-- A branch and an instruction that completes in its slot (spec/42_branches.md R140, R150 (a)). -/
theorem Branches.slotThenTarget {i k : Instr} {taken : Bool} {off : BitVec 7} {s : State}
    (h : Branches i taken off s) (outside : s.delay = none) (slot : isControl k = false) :
    ∃ t, exec i s = .next t ∧ ∀ u, exec k t = .next u →
      u.pc = if taken then BitVec.ofInt 16 (s.pc.toNat + s.params.pcReadBias.toNat + off.toInt)
        else BitVec.ofNat 16 (s.pc.toNat + 2) := by
  refine ⟨s.branched taken off, h.exec_of_none outside, fun u completes => ?_⟩
  have finished := exec_finishesOrRefuses slot (s.branched taken off)
  rw [completes] at finished
  exact finished.pc_of_next.trans (s.branched_nextPc taken off)

/-- Settles O27: the pending target was fixed by the branch, and the slot instruction goes on there. -/
theorem slotThenTarget : Obligations.SlotThenTarget := fun off ign _ _ outside slot =>
  ⟨Branches.slotThenTarget (i := .bz off ign) ⟨rfl, rfl⟩ outside slot,
    Branches.slotThenTarget (i := .bnz off ign) ⟨rfl, rfl⟩ outside slot,
    Branches.slotThenTarget (i := .bc off ign) ⟨rfl, rfl⟩ outside slot,
    Branches.slotThenTarget (i := .bnc off ign) ⟨rfl, rfl⟩ outside slot,
    Branches.slotThenTarget (i := .bn off ign) ⟨rfl, rfl⟩ outside slot,
    Branches.slotThenTarget (i := .bnn off ign) ⟨rfl, rfl⟩ outside slot,
    Branches.slotThenTarget (i := .bo off ign) ⟨rfl, rfl⟩ outside slot,
    Branches.slotThenTarget (i := .bno off ign) ⟨rfl, rfl⟩ outside slot⟩

end Sys2Proof.Machine
end

section
/-! The step (spec/42_branches.md R141): what it fetches and what it runs. -/

namespace Sys2Proof.Machine

/-! ### Fetching -/

/-- A step that neither stays ended nor delivers an interrupt runs the fetched word
(spec/42_branches.md R141 (a) to (e)). -/
theorem step_of_noInterrupt {s : State} (running : s.stopped = none) (quiet : s.noInterrupt)
    (present : s.env.hasProgram s.pc = true) : step s = s.fetchState.runWord exec s.fetchedWord := by
  rw [step, State.stepWith, running, askInterrupt_of_noInterrupt quiet]
  refine congrArg (proceed · fun p => p.2.runWord exec p.1) (State.fetch_of_hasProgram ?_)
  split
  · exact present
  · exact present

theorem State.runWord_of_decode {w : Word} {i : Instr} (h : decode w = .ok i) (s : State)
    (run : Instr → State → Result) : s.runWord run w = run i s := by
  rw [State.runWord, h]

theorem State.fetchState_draws (s : State) :
    s.fetchState.draws = if s.pmem.holds s.pc = true then s.draws else s.draws + 1 := rfl

/-- A word neither byte of which was written reads as the free value offered (spec/20_memory.md R60). -/
theorem Memory.loadWord_of_unwritten {m : Memory} {a : Word} (high : m.get? (2 * a.toNat) = none)
    (low : m.get? (2 * a.toNat + 1) = none) (o : ByteOrder) (free : Word) : m.loadWord o a free = free := by
  cases o <;> simp [Memory.loadWord, highKey, lowKey, high, low, word_of_bytes]

/-- Settles O43: the step runs the fetched word, which is the loaded one or the next draw. -/
theorem stepRunsTheDecodedInstruction : Obligations.StepRunsTheDecodedInstruction := by
  intro s running quiet present
  refine ⟨fun i decoded => ?_, fun loaded => ⟨?_, fun free => ?_⟩, fun high low => ⟨?_, ?_⟩⟩
  · rw [step_of_noInterrupt running quiet present, State.runWord_of_decode decoded]
  · rw [State.fetchState_draws, if_pos loaded]
  · exact Memory.loadWord_of_holds loaded free _
  · exact Memory.loadWord_of_unwritten high low _ _
  · rw [State.fetchState_draws, if_neg (by simp [Memory.holds, high])]

/-! ### Placing a word -/

/-- An opcode-table word counts by its low 16 bits (spec/30_encoding.md R70). -/
theorem decode_of_decodeTableWord {n w : Nat} {i : Instr} (h : decodeTableWord n w = some i) :
    decode (BitVec.ofNat 16 w) = .ok i := by
  cases decoded : decode (BitVec.ofNat 16 w) with
  | ok k =>
    rw [decodeTableWord, ← List.append_nil (wordBytes .big _), decodeBytes_wordBytes .big decoded] at h
    cases h
    rfl
  | error e =>
    simp [decodeTableWord, decodeBytes, wordBytes, word_of_bytes, decoded] at h

section
variable (s : State) (n w : Nat)

theorem withFetchWord_hasProgram :
    (s.withFetchWord n w).env.hasProgram (s.withFetchWord n w).pc = true := by
  simp [Env.hasProgram, State.withFetchWord]

theorem withFetchWord_noInterrupt : (s.withFetchWord n w).noInterrupt := .inr rfl

theorem withFetchWord_fetchedWord : (s.withFetchWord n w).fetchedWord = BitVec.ofNat 16 w :=
  Memory.loadWord_storeWord_same _ _ _ _ _

/-- Fetching a placed word uses up no answer and draws nothing. -/
theorem withFetchWord_fetchState : (s.withFetchWord n w).fetchState = s.withFetchWord n w := by
  have loaded : (s.withFetchWord n w).pmem.holds (s.withFetchWord n w).pc = true :=
    Memory.holds_storeWord_same _ _ _ _
  rw [State.fetchState, if_pos loaded]
  split <;> rfl

end

/-- Settles O44: the placed word is the fetched one, and fetching it leaves the state. -/
theorem placedWordIsRunNext : Obligations.PlacedWordIsRunNext := by
  intro s n w i row
  rw [step_of_noInterrupt rfl (withFetchWord_noInterrupt s n w) (withFetchWord_hasProgram s n w),
    withFetchWord_fetchedWord, withFetchWord_fetchState,
    State.runWord_of_decode (decode_of_decodeTableWord row)]

end Sys2Proof.Machine
end

section
/-! The load and the store (spec/43_load_store.md R155 to R157): each access by the region of its
effective address, and what the completed instruction leaves. -/

namespace Sys2Proof.Machine

/-! ### The load -/

/-- The frame of a load, besides its register, the events and the draws: the hidden bit is cleared
(spec/43_load_store.md R156). -/
def LoadFrame (s t : State) : Prop :=
  Completed s t ∧ t.flags = s.flags ∧ SameMemory s t ∧ SameCr s t ∧ t.intrSinceLoad = false ∧
    t.params = s.params ∧ t.env = s.env ∧ t.stopped = s.stopped

/-- A memory read takes a draw exactly where the word is not held (spec/20_memory.md R60). -/
theorem State.readMem_eq (s : State) (m : Memory) (a : Word) :
    s.readMem m a = (m.loadWord s.params.imageByteOrder a (Config.freeWord s.draws),
      { s with draws := if m.holds a = true then s.draws else s.draws + 1 }) := by
  unfold State.readMem
  split <;> rfl

theorem State.readData_of_ram {s : State} {a : Word} (h : s.env.region a = .ram) :
    s.readData a = .ok (s.readMem s.dmem a) := by
  simpa [h] using s.readData_cases a

theorem State.readData_of_device {s : State} {a : Word} (h : s.env.region a = .device) :
    s.readData a = .ok (Config.freeWord s.draws,
      (s.drawn 1).record (.deviceRead a (Config.freeWord s.draws))) := by
  simpa [h] using s.readData_cases a

theorem State.readData_of_absent {s : State} {a : Word} (h : s.env.region a = .absent) :
    s.readData a = .error (.absentData a) := by
  simpa [h] using s.readData_cases a

/-- A load whose read answers `v`, having made `draws` and `events` of the state's own. -/
theorem exec_ld_of_read {s : State} {address : Reg} {off : BitVec 7} {v : Word} {draws : Nat}
    {events : List Event} (rd : Reg)
    (read : s.leaveSlot.readData (s.effAddr address off) =
      .ok (v, { s.leaveSlot with draws := draws, events := events })) :
    ∃ t, exec (.ld rd address off) s = .next t ∧ WritesReg rd v s t ∧ LoadFrame s t ∧
      t.events = events ∧ t.draws = draws := by
  refine ⟨_, by rw [exec, execLd, read, proceed_ok], ?_, ⟨completed_of (by simp) (by simp), ?_⟩, ?_⟩
  · exact writesReg_of_setReg (u := { s.leaveSlot with draws := draws, events := events }) rfl rfl rfl
      (by simp)
  · simp [SameMemory, SameCr, State.getCr]
  · simp

theorem exec_ld_of_absent {s : State} {address : Reg} {off : BitVec 7} (rd : Reg)
    (h : s.env.region (s.effAddr address off) = .absent) :
    exec (.ld rd address off) s = .refused (.absentData (s.effAddr address off)) := by
  rw [exec, execLd, State.readData_of_absent (s := s.leaveSlot) h, proceed_error]

/-- Settles O29: a read of storage draws for a word not held, a read of a device draws and is recorded,
and the load puts either answer into its register. -/
theorem ldLoadsAWord : Obligations.LdLoadsAWord := by
  intro rd address off
  refine ⟨decode_encode (.ld rd address off), fun s => ?_⟩
  simp only [← effAddr_eq]
  refine ⟨fun ram => ?_, fun device => ?_, exec_ld_of_absent rd⟩
  · have read := State.readData_of_ram (s := s.leaveSlot) ram
    rw [State.readMem_eq] at read
    obtain ⟨t, completes, written, frame, events, draws⟩ := exec_ld_of_read rd read
    exact ⟨t, _, completes, written, frame, events, draws,
      fun held free => Memory.loadWord_of_holds held free _, rfl⟩
  · exact exec_ld_of_read rd (State.readData_of_device (s := s.leaveSlot) device)

/-! ### The store -/

/-- A word write leaves every byte of both memories but the two of that word (spec/43_load_store.md R157). -/
theorem State.storeData_sameMemoryBut (s : State) (a v : Word) : SameMemoryBut a s (s.storeData a v) :=
  ⟨fun _ h0 h1 => Memory.get?_storeWord_of_ne h0 h1, fun _ => rfl⟩

theorem State.storeData_holdsWord (s : State) (a v : Word) : HoldsWord (s.storeData a v) a v :=
  Memory.loadWord_storeWord_same _ _ a v

/-- A store to a device (spec/43_load_store.md R157). -/
theorem exec_st_of_device {s : State} {address : Reg} {off : BitVec 7} (rs : Reg)
    (h : s.env.region (s.effAddr address off) = .device) :
    exec (.st address off rs) s =
      .next ((s.leaveSlot.record (.deviceWrite (s.effAddr address off) (s.getReg rs))).finish s) := by
  have recorded : s.leaveSlot.writeDataIf true (s.effAddr address off) (s.getReg rs) =
      .ok (s.leaveSlot.record (.deviceWrite (s.effAddr address off) (s.getReg rs))) := by
    simpa [h] using s.leaveSlot.writeDataIf_cases true (s.effAddr address off) (s.getReg rs)
  rw [exec, execSt, recorded, proceed_ok]

theorem exec_st_of_absent {s : State} {address : Reg} {off : BitVec 7} (rs : Reg)
    (h : s.env.region (s.effAddr address off) = .absent) :
    exec (.st address off rs) s = .refused (.absentData (s.effAddr address off)) := by
  have absent : s.leaveSlot.writeDataIf true (s.effAddr address off) (s.getReg rs) =
      .error (.absentData (s.effAddr address off)) := by
    simpa [h] using s.leaveSlot.writeDataIf_cases true (s.effAddr address off) (s.getReg rs)
  rw [exec, execSt, absent, proceed_error]

/-- Settles O30: the store ends in the state the access left, which differs from the one before in the
stored word or in the recorded event. -/
theorem stStoresAWord : Obligations.StStoresAWord := by
  intro address off rs
  refine ⟨decode_encode (.st address off rs), fun s => ?_⟩
  simp only [← effAddr_eq]
  refine ⟨fun ram => ⟨_, exec_st_of_ram rs ram, ?_, ?_, ?_⟩,
    fun device => ⟨_, exec_st_of_device rs device, ?_⟩, exec_st_of_absent rs⟩
  · exact s.leaveSlot.storeData_holdsWord _ _
  · exact s.leaveSlot.storeData_sameMemoryBut _ _
  · exact ⟨fun _ => rfl, completed_of rfl rfl, rfl, fun _ => rfl, rfl, ⟨rfl, rfl, rfl, rfl⟩, rfl⟩
  · exact ⟨fun _ => ⟨rfl, rfl⟩, fun _ => rfl, completed_of rfl rfl, rfl, fun _ => rfl, rfl, rfl, rfl, rfl,
      rfl, rfl⟩

end Sys2Proof.Machine
end

section
/-! The control-register moves (spec/44_control_registers.md R165 to R167): each access by the answer of
the environment, and what the completed instruction leaves. -/

namespace Sys2Proof.Machine

/-! ### The read -/

theorem State.readCr_of_cell {s : State} {n : CrNum} (h : s.crReadAnswer n = .cell) :
    s.readCr n = .ok (s.getCr n, { s with env := { s.env with crReads := s.env.crReads.rest } }) := by
  simp only [State.readCr, h]

theorem State.readCr_of_value {s : State} {n : CrNum} {v : EnvVal} {acts : List EnvAct}
    (h : s.crReadAnswer n = .value v acts) :
    s.readCr n = .ok (v.eval s [n.setWidth 16],
      { s with env := { s.env with crReads := s.env.crReads.rest } }.applyActs [n.setWidth 16] acts) := by
  simp only [State.readCr, h]

theorem State.readCr_of_refuse {s : State} {n : CrNum} (h : s.crReadAnswer n = .refuse) :
    s.readCr n = .error (.crRead n) := by
  simp only [State.readCr, h]

/-- The frame of `ldcr`, besides its register: what the environment left in `u` stays, its pc excepted
(spec/44_control_registers.md R166; log 17). -/
def LdcrFrame (pc : Word) (u t : State) : Prop :=
  t.flags = u.flags ∧ SameMemory u t ∧ SameCr u t ∧ t.intrSinceLoad = u.intrSinceLoad ∧
    SameOutside u t ∧ t.delay = u.delay ∧ t.draws = u.draws ∧ t.pc = pc

/-- An `ldcr` whose read answers `v` and leaves the state `u`. -/
theorem exec_ldcr_of_read {s u : State} {cr : CrNum} {v : Word} (rd : Reg) (ign : BitVec 6)
    (read : s.leaveSlot.readCr cr = .ok (v, u)) :
    ∃ t, exec (.ldcr rd cr ign) s = .next t ∧ WritesReg rd v u t ∧ LdcrFrame s.nextPc u t := by
  refine ⟨_, by rw [exec, execLdcr, read, proceed_ok], ?_, ?_⟩
  · exact writesReg_of_setReg (u := u) rfl rfl rfl (by simp)
  · simp [LdcrFrame, SameMemory, SameCr, SameOutside]

/-- Settles O35: the register takes the word the read answers, in the state the read left; the cell's
answer leaves the state handed over, less that answer. -/
theorem ldcrReadsAControlRegister : Obligations.LdcrReadsAControlRegister := by
  intro rd cr ign
  refine ⟨decode_encode (.ldcr rd cr ign), fun s => ?_⟩
  rw [BitVec.ofNat_toNat]
  intro args handed left
  refine ⟨Answers.lawful _ _ _ _, fun cell => ?_, fun v acts value => ?_, fun refuse => ?_⟩
  · obtain ⟨t, completes, written, flags, memory, cells, intr, outside, delay, draws, pc⟩ :=
      exec_ldcr_of_read rd ign (State.readCr_of_cell (s := s.leaveSlot) cell)
    exact ⟨t, completes, written, ⟨completed_of pc delay, flags, memory, cells, outside, draws⟩, intr⟩
  · exact exec_ldcr_of_read rd ign (State.readCr_of_value (s := s.leaveSlot) value)
  · rw [exec, execLdcr, State.readCr_of_refuse (s := s.leaveSlot) refuse, proceed_error]

/-! ### The write -/

theorem State.writeCr_of_cell {s : State} {n : CrNum} {v : Word} (h : s.crWriteAnswer n v = .cell) :
    s.writeCr n v = .ok ({ s with env := { s.env with crWrites := s.env.crWrites.rest } }.setCr n v) := by
  simp only [State.writeCr, h]

theorem State.writeCr_of_acts {s : State} {n : CrNum} {v : Word} {acts : List EnvAct}
    (h : s.crWriteAnswer n v = .acts acts) :
    s.writeCr n v = .ok ({ s with env := { s.env with crWrites := s.env.crWrites.rest } }.applyActs
      [n.setWidth 16, v] acts) := by
  simp only [State.writeCr, h]

theorem State.writeCr_of_refuse {s : State} {n : CrNum} {v : Word} (h : s.crWriteAnswer n v = .refuse) :
    s.writeCr n v = .error (.crWrite n) := by
  simp only [State.writeCr, h]

/-- An `stcr` whose write leaves the state `u`. -/
theorem exec_stcr_of_write {s u : State} {cr : CrNum} {rs : Reg} (ign : BitVec 6)
    (write : s.leaveSlot.writeCr cr (s.getReg rs) = .ok u) :
    exec (.stcr cr rs ign) s = .next (u.finish s) := by
  rw [exec, execStcr, write, proceed_ok]

/-- Settles O36: the instruction ends in the state the write left, its pc excepted; the cell's answer
leaves the state handed over, less that answer and with the cell written. -/
theorem stcrWritesAControlRegister : Obligations.StcrWritesAControlRegister := by
  intro cr rs ign
  refine ⟨decode_encode (.stcr cr rs ign), fun s => ?_⟩
  rw [BitVec.ofNat_toNat]
  intro args handed left
  refine ⟨Answers.lawful _ _ _ _, fun cell => ?_, fun acts changes => ?_, fun refuse => ?_⟩
  · have cells := State.getCr_setCr left cr (v := s.getReg rs)
    refine ⟨_, exec_stcr_of_write ign (State.writeCr_of_cell (s := s.leaveSlot) cell), ?_, ?_, ?_⟩
    · exact (cells cr).trans (if_pos rfl)
    · exact fun n other => (cells n).trans (if_neg other)
    · exact ⟨fun _ => rfl, completed_of rfl rfl, rfl, fun _ => ⟨rfl, rfl⟩, rfl, ⟨rfl, rfl, rfl, rfl⟩, rfl⟩
  · exact exec_stcr_of_write ign (State.writeCr_of_acts (s := s.leaveSlot) changes)
  · rw [exec, execStcr, State.writeCr_of_refuse (s := s.leaveSlot) refuse, proceed_error]

end Sys2Proof.Machine
end

section
/-! The jumps (spec/45_system_and_jumps.md R175, R178, R181): the link and the target, at once or after
the delay slots that `JUMP_DELAY_SLOTS` asks for, and the run through those slots. -/

namespace Sys2Proof.Machine

/-! ### The link and the target -/

/-- `s` after a jump: `Pc` linked, and where the run goes on. -/
def State.linked (s : State) (link : Reg) (pc : Word) (delay : Option Pending) : State :=
  { s.setReg link s.pcRead with pc := pc, delay := delay }

theorem State.linked_writesReg (s : State) (link : Reg) (pc : Word) (delay : Option Pending) :
    WritesReg link (BitVec.ofNat 16 (s.pc.toNat + s.params.pcReadBias.toNat)) s
      (s.linked link pc delay) := by
  rw [← pcRead_eq]
  exact writesReg_of_setReg (u := s) rfl rfl rfl (State.setReg_params s link _)

theorem State.linked_jumpFrame (s : State) (link : Reg) (pc : Word) (delay : Option Pending) :
    JumpFrame s (s.linked link pc delay) := by
  simp [State.linked, JumpFrame, SameMemory, SameCr, SameOutside, State.getCr]

/-- Without delay slots a jump goes on at its target at once (spec/45_system_and_jumps.md R178, R181). -/
theorem State.jump_of_noSlots {s : State} (outside : s.delay = none) (slots : s.params.jumpDelaySlots = 0)
    (w target : Word) (link : Reg) : s.jump w target link = .next (s.linked link target none) := by
  have kept : (s.setReg link s.pcRead).delay = none := (State.setReg_delay s link _).trans outside
  rw [State.jump, State.outsideSlot_of_none outside, slots, State.linked, ← kept]

/-- With delay slots a jump leaves its target pending (spec/45_system_and_jumps.md R175; log 13). -/
theorem State.jump_of_slots {s : State} {n : Nat} (outside : s.delay = none)
    (slots : s.params.jumpDelaySlots = n + 1) (w target : Word) (link : Reg) :
    s.jump w target link = .next (s.linked link (s.pc + 1) (some ⟨target, n⟩)) := by
  rw [State.jump, State.outsideSlot_of_none outside, slots, State.linked]

/-- Settles O37: the jump to the old value of its register, and the guard in the slot. -/
theorem jaJumpsAndLinks : Obligations.JaJumpsAndLinks := by
  refine fun address link ign => ⟨decode_encode (.ja address link ign), fun s => ⟨fun outside slots => ?_,
    fun d inside => exec_control_of_pending (i := .ja address link ign) inside rfl⟩⟩
  exact ⟨_, State.jump_of_noSlots outside slots _ _ _, rfl, rfl, s.linked_writesReg link _ _,
    s.linked_jumpFrame link _ _⟩

/-- Settles O38: the jump to `Pc` plus its offset, and the guard in the slot. -/
theorem jJumpsAndLinks : Obligations.JJumpsAndLinks := by
  refine fun off link => ⟨decode_encode (.j off link), fun s => ⟨fun outside slots => ?_,
    fun d inside => exec_control_of_pending (i := .j off link) inside rfl⟩⟩
  exact ⟨_, State.jump_of_noSlots outside slots _ _ _, relTarget_eq s off, rfl,
    s.linked_writesReg link _ _, s.linked_jumpFrame link _ _⟩

/-! ### The run through the slots -/

/-- `t` has the pending branch and the environment of `s`, as an access to memory leaves them. -/
structure KeepsSlotAndEnv (s t : State) : Prop where
  delay : t.delay = s.delay
  env : t.env = s.env

theorem State.readMem_keepsSlotAndEnv (s : State) (m : Memory) (a : Word) :
    KeepsSlotAndEnv s (s.readMem m a).2 := by
  rw [State.readMem_eq]
  exact ⟨rfl, rfl⟩

theorem State.readData_keepsSlotAndEnv {s : State} {a : Word} {p : Word × State}
    (h : s.readData a = .ok p) : KeepsSlotAndEnv s p.2 := by
  rcases State.readData_cases s a with ⟨-, e⟩ | ⟨-, e⟩ | ⟨-, e⟩ <;> rw [e] at h <;> cases h
  · exact s.readMem_keepsSlotAndEnv s.dmem a
  · exact ⟨rfl, rfl⟩

theorem State.readProg_keepsSlotAndEnv {s : State} {a : Word} {p : Word × State}
    (h : s.readProg a = .ok p) : KeepsSlotAndEnv s p.2 := by
  unfold State.readProg at h
  split at h <;> cases h
  exact s.readMem_keepsSlotAndEnv s.pmem a

theorem State.writeDataIf_keepsSlotAndEnv {s t : State} {doIt : Bool} {a v : Word}
    (h : s.writeDataIf doIt a v = .ok t) : KeepsSlotAndEnv s t := by
  rcases State.writeDataIf_cases s doIt a v with ⟨-, e⟩ | ⟨-, -, e⟩ | ⟨-, -, e⟩ | ⟨-, -, e⟩ <;>
    rw [e] at h <;> cases h <;> exact ⟨rfl, rfl⟩

theorem State.stCondFlags_keepsSlotAndEnv (s : State) : KeepsSlotAndEnv s s.stCondFlags := by
  unfold State.stCondFlags
  split <;> exact ⟨rfl, rfl⟩

theorem KeepsSlotAndEnv.setReg {s t : State} (h : KeepsSlotAndEnv s t) (r : Reg) (v : Word) :
    KeepsSlotAndEnv s (t.setReg r v) :=
  ⟨(State.setReg_delay t r v).trans h.delay, (State.setReg_env t r v).trans h.env⟩

/-- An instruction that began in `s` ends normally, in the environment it began in. -/
def CompletesInEnv (s t : State) : Prop := Completed s t ∧ t.env = s.env

/-- An instruction that leaves the slot first and then keeps the pending branch ends normally. -/
theorem KeepsSlotAndEnv.completes {s u t : State} (h : KeepsSlotAndEnv s.leaveSlot u)
    (pc : t.pc = s.nextPc) (delay : t.delay = u.delay) (env : t.env = u.env) : CompletesInEnv s t :=
  ⟨completed_of pc (delay.trans h.delay), env.trans h.env⟩

/-- Whatever may stand in a slot ends normally where the control registers are plain cells
(spec/42_branches.md R141 (e); spec/10_state.md R41). -/
theorem exec_completesInEnv {i : Instr} (plain : isControl i = false) {s t : State}
    (reads : s.env.crReads = .default) (writes : s.env.crWrites = .default) (h : exec i s = .next t) :
    CompletesInEnv s t := by
  cases i with
  | addipc | bz | bnz | bc | bnc | bn | bnn | bo | bno | j | ja | syscall | reti | brk => cases plain
  | ld rd address off =>
    obtain ⟨p, hp, h⟩ := proceed_next h
    cases h
    exact ((State.readData_keepsSlotAndEnv hp).setReg rd p.1).completes rfl rfl rfl
  | ldp rd address ign =>
    obtain ⟨p, hp, h⟩ := proceed_next h
    cases h
    exact ((State.readProg_keepsSlotAndEnv hp).setReg rd p.1).completes rfl rfl rfl
  | st address off rs =>
    obtain ⟨u, hu, h⟩ := proceed_next h
    cases h
    exact (State.writeDataIf_keepsSlotAndEnv hu).completes rfl rfl rfl
  | stCond address rs ign =>
    obtain ⟨u, hu, h⟩ := proceed_next h
    cases h
    have flags := u.stCondFlags_keepsSlotAndEnv
    exact (State.writeDataIf_keepsSlotAndEnv hu).completes rfl flags.delay flags.env
  | ldcr rd cr ign =>
    obtain ⟨p, hp, h⟩ := proceed_next h
    rw [State.readCr_of_default (s := s.leaveSlot) reads] at hp
    cases hp; cases h
    exact (KeepsSlotAndEnv.setReg ⟨rfl, rfl⟩ rd _).completes rfl rfl rfl
  | stcr cr rs ign =>
    obtain ⟨u, hu, h⟩ := proceed_next h
    rw [State.writeCr_of_default (s := s.leaveSlot) writes] at hu
    cases hu; cases h
    exact KeepsSlotAndEnv.completes (u := s.leaveSlot) ⟨rfl, rfl⟩ rfl rfl rfl
  | cmpi | cmp =>
    cases h
    exact KeepsSlotAndEnv.completes (u := s.leaveSlot) ⟨rfl, rfl⟩ rfl rfl rfl
  | _ =>
    cases h
    exact (KeepsSlotAndEnv.setReg (t := s.leaveSlot) ⟨rfl, rfl⟩ _ _).completes rfl rfl rfl

theorem Completed.of_last {s t : State} {target : Word} (h : Completed s t)
    (pending : s.delay = some ⟨target, 0⟩) : t.pc = target ∧ t.delay = none := by
  rwa [Completed, pending] at h

theorem Completed.of_more {s t : State} {target : Word} {n : Nat} (h : Completed s t)
    (pending : s.delay = some ⟨target, n + 1⟩) : t.pc = s.pc + 1 ∧ t.delay = some ⟨target, n⟩ := by
  rwa [Completed, pending] at h

/-- Where the run stands after `k` of the `n + 1` slots of a jump to `target`, the first slot being at
`pc` (spec/45_system_and_jumps.md R175; log 13). -/
def AfterSlots (target pc : Word) (n k : Nat) (u : State) : Prop :=
  if k = n + 1 then u.pc = target ∧ u.delay = none
  else u.pc = pc + BitVec.ofNat 16 k ∧ u.delay = some ⟨target, n - k⟩

/-- One slot more, before those counted from the next word. -/
theorem AfterSlots.succ {target pc : Word} {n k : Nat} {u : State} (h : AfterSlots target (pc + 1) n k u) :
    AfterSlots target pc (n + 1) (k + 1) u := by
  have words : pc + 1 + BitVec.ofNat 16 k = pc + BitVec.ofNat 16 (k + 1) := by
    rw [BitVec.add_assoc, Nat.add_comm k 1, BitVec.ofNat_add]
    rfl
  rw [AfterSlots, words] at h
  simpa [AfterSlots] using h

/-- The slots of a jump, run one after the other. -/
theorem execsTo_afterSlots {ks : List Instr} {s u : State} {target : Word} {n : Nat}
    (pending : s.delay = some ⟨target, n⟩) (reads : s.env.crReads = .default)
    (writes : s.env.crWrites = .default) (plain : ∀ k ∈ ks, isControl k = false)
    (fits : ks.length ≤ n + 1) (run : ExecsTo ks s u) : AfterSlots target s.pc n ks.length u := by
  induction ks generalizing s n with
  | nil =>
    obtain rfl : u = s := run
    simpa [AfterSlots] using pending
  | cons k ks ih =>
    obtain ⟨v, first, rest⟩ := run
    obtain ⟨completed, env⟩ := exec_completesInEnv (plain k List.mem_cons_self) reads writes first
    cases n with
    | zero =>
      obtain rfl : ks = [] := List.eq_nil_of_length_eq_zero (Nat.le_zero.1 (Nat.le_of_succ_le_succ fits))
      obtain rfl : u = v := rest
      exact completed.of_last pending
    | succ n =>
      obtain ⟨pc, left⟩ := completed.of_more pending
      have after := ih left (by rw [env, reads]) (by rw [env, writes])
        (fun i hi => plain i (List.mem_cons_of_mem k hi)) (Nat.le_of_succ_le_succ fits) rest
      rw [pc] at after
      exact after.succ

/-- Settles O39: either jump leaves its target pending, and the slots are run from there. -/
theorem jumpsWithDelaySlots : Obligations.JumpsWithDelaySlots := by
  intro i link target n s outside slots jump
  have completes : exec i s = .next (s.linked link (s.pc + 1) (some ⟨target, n⟩)) := by
    obtain ⟨address, ign, rfl, rfl⟩ | ⟨off, rfl, rfl⟩ := jump
    · exact State.jump_of_slots outside slots _ _ _
    · rw [← relTarget_eq]
      exact State.jump_of_slots outside slots _ _ _
  have env : (s.linked link (s.pc + 1) (some ⟨target, n⟩)).env = s.env := State.setReg_env s link _
  refine ⟨_, completes, rfl, rfl, s.linked_writesReg link _ _, s.linked_jumpFrame link _ _, ?_⟩
  intro ks u reads writes plain fits run
  exact execsTo_afterSlots rfl (by rw [env, reads]) (by rw [env, writes]) plain fits run

end Sys2Proof.Machine
end

section
/-! System call, break and return from interrupt (spec/45_system_and_jumps.md R176, R190, R192): each
hands the state to the environment, and ends as its answer says. -/

namespace Sys2Proof.Machine

/-! ### The calls by their answers -/

theorem State.raiseSyscall_of_answer {s : State} {code : BitVec 6} {r : Reply}
    (h : s.syscallAnswer code = r) : s.raiseSyscall code =
      { s with env := { s.env with syscalls := s.env.syscalls.rest } }.handOverOrStop
        (.syscall code) (.syscall code s.pc) (.syscall code) [code.setWidth 16] r := by
  rw [State.raiseSyscall, h]

theorem State.raiseBreak_of_answer {s : State} {r : Reply} (h : s.breakAnswer = r) : s.raiseBreak =
    { s with env := { s.env with breaks := s.env.breaks.rest } }.handOverOrStop
      .brk (.brk s.pc) .brk [] r := by
  rw [State.raiseBreak, h]

theorem State.raiseReti_of_answer {s : State} {a : Answer} (h : s.retiAnswer = a) : s.raiseReti =
    { s with env := { s.env with retis := s.env.retis.rest } }.handOver .reti (.reti s.pc) [] a := by
  rw [State.raiseReti, h]

/-! ### The instructions outside the slot of a taken branch -/

section
variable {s : State} (outside : s.delay = none)
include outside

/-- `syscall` by the environment's answer (spec/60_exceptions.md R204). -/
theorem exec_syscall_of_answer {code : BitVec 6} (ign : BitVec 3) {r : Reply}
    (h : s.pastInstr.syscallAnswer code = r) : exec (.syscall code ign) s =
      { s.pastInstr with env := { s.env with syscalls := s.env.syscalls.rest } }.handOverOrStop
        (.syscall code) (.syscall code (s.pc + 1)) (.syscall code) [code.setWidth 16] r :=
  (State.outsideSlot_of_none outside _ _).trans (State.raiseSyscall_of_answer h)

/-- `break` by the environment's answer (spec/60_exceptions.md R205). -/
theorem exec_brk_of_answer (ign : BitVec 9) {r : Reply} (h : s.pastInstr.breakAnswer = r) :
    exec (.brk ign) s =
      { s.pastInstr with env := { s.env with breaks := s.env.breaks.rest } }.handOverOrStop
        .brk (.brk (s.pc + 1)) .brk [] r :=
  (State.outsideSlot_of_none outside _ _).trans (State.raiseBreak_of_answer h)

/-- `reti` by the environment's answer (spec/60_exceptions.md R206). -/
theorem exec_reti_of_answer (ign : BitVec 9) {a : Answer} (h : s.retiAnswer = a) :
    exec (.reti ign) s =
      { s with env := { s.env with retis := s.env.retis.rest } }.handOver .reti (.reti s.pc) [] a :=
  (State.outsideSlot_of_none outside _ _).trans (State.raiseReti_of_answer h)

end

/-- Settles O40: the environment's answer is followed outside the slot, the guard faults in it. -/
theorem syscallGoesToTheEnvironment : Obligations.SyscallGoesToTheEnvironment := by
  refine fun code ign => ⟨decode_encode (.syscall code ign), fun s => ?_⟩
  rw [BitVec.ofNat_toNat]
  exact ⟨Answers.lawful _ _ _ _, fun outside stop => exec_syscall_of_answer outside ign stop,
    fun acts outside resume => exec_syscall_of_answer outside ign resume,
    fun outside fault => exec_syscall_of_answer outside ign fault,
    fun d inside => exec_control_of_pending (i := .syscall code ign) inside rfl⟩

/-- Settles O41: the environment's answer is followed outside the slot, the guard faults in it. -/
theorem breakGoesToTheEnvironment : Obligations.BreakGoesToTheEnvironment := fun ign =>
  ⟨decode_encode (.brk ign), fun _ => ⟨Answers.lawful _ _ _ _,
    fun outside stop => exec_brk_of_answer outside ign stop,
    fun _ outside resume => exec_brk_of_answer outside ign resume,
    fun outside fault => exec_brk_of_answer outside ign fault,
    fun _ inside => exec_control_of_pending (i := .brk ign) inside rfl⟩⟩

/-- Settles O42: the environment's answer is followed outside the slot, the guard faults in it. -/
theorem retiGoesToTheEnvironment : Obligations.RetiGoesToTheEnvironment := fun ign =>
  ⟨decode_encode (.reti ign), fun _ => ⟨Answers.lawful _ _ _ _,
    fun _ outside resume => exec_reti_of_answer outside ign resume,
    fun outside fault => exec_reti_of_answer outside ign fault,
    fun _ inside => exec_control_of_pending (i := .reti ign) inside rfl⟩⟩

end Sys2Proof.Machine
end

section
/-! The load from program memory and the conditional store (spec/45_system_and_jumps.md R184, R187). -/

namespace Sys2Proof.Machine

/-! ### The load from program memory -/

theorem State.readProg_of_hasProgram {s : State} {a : Word} (h : s.env.hasProgram a = true) :
    s.readProg a = .ok (s.readMem s.pmem a) := if_pos h

theorem State.readProg_of_absent {s : State} {a : Word} (h : s.env.hasProgram a = false) :
    s.readProg a = .error (.absentProgram a) := if_neg (by simp [h])

/-- A memory read as a draw of one value or none (spec/20_memory.md R60). -/
theorem State.readMem_eq_drawn (s : State) (m : Memory) (a : Word) :
    s.readMem m a = (m.loadWord s.params.imageByteOrder a (Config.freeWord s.draws),
      s.drawn (if m.holds a = true then 0 else 1)) := by
  unfold State.readMem
  split <;> rfl

/-- An `ldp` whose read answers `v`, with `draws` values drawn for it. -/
theorem exec_ldp_of_read {s : State} {address : Reg} {v : Word} {draws : Nat} (rd : Reg) (ign : BitVec 3)
    (read : s.leaveSlot.readProg (s.getReg address) = .ok (v, s.leaveSlot.drawn draws)) :
    ∃ t, exec (.ldp rd address ign) s = .next t ∧ WritesReg rd v s t ∧ QuietFrame draws s t ∧
      t.intrSinceLoad = (if s.params.ldpClearsIntr = true then false else s.intrSinceLoad) := by
  refine ⟨_, by rw [exec, execLdp, read, proceed_ok], ?_, ⟨completed_of (by simp) (by simp), ?_⟩, ?_⟩
  · exact writesReg_of_setReg (u := s.leaveSlot.drawn draws) rfl rfl rfl (by simp)
  · simp [SameMemory, SameCr, SameOutside, State.getCr]
  · cases h : s.params.ldpClearsIntr <;> simp

/-- Settles O31: a read of program memory draws for a word not held, and the load puts it into its
register. -/
theorem ldpReadsProgramMemory : Obligations.LdpReadsProgramMemory := by
  refine fun rd address ign => ⟨decode_encode (.ldp rd address ign), fun s => ⟨fun present => ?_,
    fun absent => ?_⟩⟩
  · have read := State.readProg_of_hasProgram (s := s.leaveSlot) present
    rw [State.readMem_eq_drawn] at read
    obtain ⟨t, completes, written, frame, intr⟩ := exec_ldp_of_read rd ign read
    exact ⟨t, _, completes, written, frame, intr, fun held free => Memory.loadWord_of_holds held free _,
      rfl⟩
  · rw [exec, execLdp, State.readProg_of_absent (s := s.leaveSlot) absent, proceed_error]

/-! ### The conditional store -/

/-- The frame of `st_cond`, besides the memories and the events: the flags are kept or fresh as
`STCOND_FLAGS` says (spec/45_system_and_jumps.md R187). -/
def StCondFrame (s t : State) : Prop :=
  SameRegs s t ∧ Completed s t ∧ SameCr s t ∧ t.intrSinceLoad = s.intrSinceLoad ∧
    t.params = s.params ∧ t.env = s.env ∧ t.stopped = s.stopped ∧
    (s.params.stCondFlags = .preserve → t.flags = s.flags ∧ t.draws = s.draws) ∧
    (s.params.stCondFlags = .draw → FreshFlags s t)

theorem State.writeDataIf_false (s : State) (a v : Word) : s.writeDataIf false a v = .ok s := by
  simpa using s.writeDataIf_cases false a v

theorem State.writeDataIf_of_ram {s : State} {a : Word} (h : s.env.region a = .ram) (v : Word) :
    s.writeDataIf true a v = .ok (s.storeData a v) := by
  simpa [h] using s.writeDataIf_cases true a v

theorem State.writeDataIf_of_device {s : State} {a : Word} (h : s.env.region a = .device) (v : Word) :
    s.writeDataIf true a v = .ok (s.record (.deviceWrite a v)) := by
  simpa [h] using s.writeDataIf_cases true a v

theorem State.writeDataIf_of_absent {s : State} {a : Word} (h : s.env.region a = .absent) (v : Word) :
    s.writeDataIf true a v = .error (.absentData a) := by
  simpa [h] using s.writeDataIf_cases true a v

theorem State.stCondFlags_of_draw {s : State} (h : s.params.stCondFlags = .draw) :
    s.stCondFlags = s.freeFlags := by
  simp only [State.stCondFlags, h]

theorem State.stCondFlags_of_preserve {s : State} (h : s.params.stCondFlags = .preserve) :
    s.stCondFlags = s := by
  simp only [State.stCondFlags, h]

/-- An `st_cond` whose access, made where `doIt`, leaves the data memory `dmem` and the events `events`. -/
theorem exec_stCond_of_write {s : State} {address rs : Reg} {doIt : Bool} {dmem : Memory}
    {events : List Event} (ign : BitVec 3) (bit : s.intrSinceLoad = !doIt)
    (write : s.leaveSlot.writeDataIf doIt (s.getReg address) (s.getReg rs) =
      .ok { s.leaveSlot with dmem := dmem, events := events }) :
    ∃ t, exec (.stCond address rs ign) s = .next t ∧
      t.dmem = dmem ∧ t.pmem = s.pmem ∧ t.events = events ∧ StCondFrame s t := by
  have completes : exec (.stCond address rs ign) s =
      .next ({ s.leaveSlot with dmem := dmem, events := events }.stCondFlags.finish s) := by
    rw [exec, execStCond, bit, Bool.not_not, write, proceed_ok]
  cases flags : s.params.stCondFlags with
  | draw =>
    rw [State.stCondFlags_of_draw (s := { s.leaveSlot with dmem, events }) flags] at completes
    exact ⟨_, completes, rfl, rfl, rfl, fun _ => rfl, completed_of rfl rfl, fun _ => rfl, rfl, rfl, rfl,
      rfl, fun other => (nomatch flags.symm.trans other), fun _ => ⟨rfl, rfl⟩⟩
  | preserve =>
    rw [State.stCondFlags_of_preserve (s := { s.leaveSlot with dmem, events }) flags] at completes
    exact ⟨_, completes, rfl, rfl, rfl, fun _ => rfl, completed_of rfl rfl, fun _ => rfl, rfl, rfl, rfl,
      rfl, fun _ => ⟨rfl, rfl⟩, fun other => nomatch flags.symm.trans other⟩

/-- Settles O32: with the hidden bit set there is no access, with it clear the access is that of the
region. -/
theorem stCondStoresUnlessInterrupted : Obligations.StCondStoresUnlessInterrupted := by
  refine fun address rs ign => ⟨decode_encode (.stCond address rs ign), fun s => ?_⟩
  refine ⟨fun set => ?_, fun clear ram => ?_, fun clear device => ?_, fun clear absent => ?_⟩
  · obtain ⟨t, completes, dmem, pmem, events, frame⟩ :=
      exec_stCond_of_write ign set (s.leaveSlot.writeDataIf_false (s.getReg address) (s.getReg rs))
    exact ⟨t, completes, fun _ => by rw [dmem, pmem]; exact ⟨rfl, rfl⟩, events, frame⟩
  · obtain ⟨t, completes, dmem, pmem, events, frame⟩ :=
      exec_stCond_of_write ign clear (State.writeDataIf_of_ram (s := s.leaveSlot) ram (s.getReg rs))
    have ⟨_, _, _, _, params, _⟩ := frame
    refine ⟨t, completes, fun free => ?_, ⟨fun _ h0 h1 => ?_, fun _ => by rw [pmem]⟩, events, frame⟩
    · rw [dmem, params]
      exact s.leaveSlot.storeData_holdsWord _ _ free
    · rw [dmem]
      exact Memory.get?_storeWord_of_ne h0 h1
  · obtain ⟨t, completes, dmem, pmem, events, frame⟩ :=
      exec_stCond_of_write ign clear (State.writeDataIf_of_device (s := s.leaveSlot) device (s.getReg rs))
    exact ⟨t, completes, fun _ => by rw [dmem, pmem]; exact ⟨rfl, rfl⟩, events, frame⟩
  · rw [exec, execStCond, clear, Bool.not_false,
      State.writeDataIf_of_absent (s := s.leaveSlot) absent, proceed_error]

end Sys2Proof.Machine
end

section
/-! The outcomes of a step (spec/42_branches.md R141; spec/60_exceptions.md R200, R207, R208): what a step
answers said once by its cases, unassigned words, absent fetch addresses and ended runs. -/

namespace Sys2Proof.Machine

/-! ### The cases of a step -/

theorem step_of_stopped {s : State} (ended : s.stopped ≠ none) : step s = .next s :=
  if_pos (Option.isSome_iff_ne_none.2 ended)

/-- With no branch pending an interrupt that the environment answers is delivered
(spec/60_exceptions.md R212). -/
theorem step_of_interrupt {s : State} {k : Interrupt} (running : s.stopped = none)
    (outside : s.delay = none) (asked : s.interruptAnswer = some k) : step s =
      .next ({ s with env := { s.env with interrupts := s.env.interrupts.rest } }.deliver k) := by
  rw [step, State.stepWith, if_neg (by simp [running]), State.askInterrupt_of_none outside, asked]

theorem step_of_absent {s : State} (running : s.stopped = none) (quiet : s.noInterrupt)
    (absent : s.env.hasProgram s.pc = false) : step s = .refused (.absentProgram s.pc) := by
  rw [step, State.stepWith, running, askInterrupt_of_noInterrupt quiet]
  refine congrArg (proceed · fun p => p.2.runWord exec p.1) (State.readProg_of_absent ?_)
  split
  · exact absent
  · exact absent

/-- Everything a step can do (spec/42_branches.md R141): stay ended, deliver an interrupt, refuse the fetch,
or run the fetched word. -/
theorem step_cases (s : State) :
    (s.stopped ≠ none ∧ step s = .next s) ∨
      (∃ k, s.stopped = none ∧ s.delay = none ∧ s.interruptAnswer = some k ∧ step s =
        .next ({ s with env := { s.env with interrupts := s.env.interrupts.rest } }.deliver k)) ∨
      (s.stopped = none ∧ s.noInterrupt ∧ s.env.hasProgram s.pc = false ∧
        step s = .refused (.absentProgram s.pc)) ∨
      (s.stopped = none ∧ s.noInterrupt ∧ s.env.hasProgram s.pc = true ∧
        step s = s.fetchState.runWord exec s.fetchedWord) := by
  by_cases running : s.stopped = none
  case neg => exact .inl ⟨running, step_of_stopped running⟩
  by_cases quiet : s.noInterrupt
  · cases fetched : s.env.hasProgram s.pc with
    | false => exact .inr (.inr (.inl ⟨running, quiet, rfl, step_of_absent running quiet fetched⟩))
    | true => exact .inr (.inr (.inr ⟨running, quiet, rfl, step_of_noInterrupt running quiet fetched⟩))
  · obtain ⟨pending, asked⟩ := not_or.1 quiet
    obtain ⟨k, answer⟩ := Option.ne_none_iff_exists'.1 asked
    have outside := not_not.1 pending
    exact .inr (.inl ⟨k, running, outside, answer, step_of_interrupt running outside answer⟩)

/-- A run whose first step answers `t` goes on as the run from `t`. -/
theorem run_succ_of_next {M : Host.Core} {n : Nat} {s t : M.State} (h : M.step s = .next t) :
    M.run (n + 1) s = M.run n t := by
  rw [Host.Core.run.eq_def]
  simp only [h]

/-- Settles O47: the fetch is refused before the word is read. -/
theorem absentFetchIsRefused : Obligations.AbsentFetchIsRefused := fun _ => step_of_absent

/-- Settles O48, by induction on the number of steps. -/
theorem endedRunsStayEnded : Obligations.EndedRunsStayEnded := by
  intro n s ended
  induction n with
  | zero => rfl
  | succ n ih =>
    exact (run_succ_of_next (step_of_stopped ended)).trans ih

/-! ### Unassigned words -/

@[simp] theorem State.fetchState_illegals (s : State) : s.fetchState.env.illegals = s.env.illegals := by
  unfold State.fetchState
  split <;> rfl

theorem State.fetchState_illegalAnswer (s : State) (w : Word) :
    s.fetchState.illegalAnswer w = s.env.illegals.answer .fault s.fetchState [w] := by
  rw [State.illegalAnswer, State.fetchState_illegals]

theorem State.runWord_of_decode_error {w : Word} {e : Reject} (h : decode w = .error e) (s : State)
    (run : Instr → State → Result) : s.runWord run w = s.raiseIllegal w := by
  rw [State.runWord, h]

theorem State.raiseIllegal_of_answer {s : State} {w : Word} {a : Answer} (h : s.illegalAnswer w = a) :
    s.raiseIllegal w = { s with env := { s.env with illegals := s.env.illegals.rest } }.handOver
      (.illegal w) (.illegalInstruction w s.pc) [w] a := by
  rw [State.raiseIllegal, h]

/-- The words of the two ranges decode to nothing (spec/30_encoding.md R90). -/
theorem decode_error_of_unassigned {w : Word}
    (h : (0x5800 ≤ w.toNat ∧ w.toNat ≤ 0x5FFF) ∨ (0xE000 ≤ w.toNat ∧ w.toNat ≤ 0xEFFF)) :
    ∃ e, decode w = .error e := by
  obtain ⟨registerAlu, group, -⟩ := unassignedWordsAreTheTwoRanges w
  rcases h with range | range
  · exact ⟨_, registerAlu.2 range⟩
  · exact ⟨_, group.2 range⟩

/-- A fetched word that decodes to nothing is handed over, and the environment's answer is followed
(spec/60_exceptions.md R207; decision D18). -/
theorem step_of_decode_error {s : State} {e : Reject} {a : Answer} (running : s.stopped = none)
    (quiet : s.noInterrupt) (present : s.env.hasProgram s.pc = true)
    (unassigned : decode s.fetchedWord = .error e)
    (answer : s.env.illegals.answer .fault s.fetchState [s.fetchedWord] = a) : step s =
      { s.fetchState with env := { s.fetchState.env with illegals := s.env.illegals.rest } }.handOver
        (.illegal s.fetchedWord) (.illegalInstruction s.fetchedWord s.pc) [s.fetchedWord] a := by
  rw [step_of_noInterrupt running quiet present, State.runWord_of_decode_error unassigned,
    State.raiseIllegal_of_answer ((s.fetchState_illegalAnswer _).trans answer), s.fetchState_illegals]
  rfl

/-- Settles O45: the word decodes to nothing, so either answer of the environment is followed. -/
theorem unassignedWordsAreIllegal : Obligations.UnassignedWordsAreIllegal := by
  intro s running quiet present w range
  obtain ⟨e, unassigned⟩ := decode_error_of_unassigned range
  exact ⟨Answers.lawful _ _ _ _, step_of_decode_error running quiet present unassigned,
    fun _ => step_of_decode_error running quiet present unassigned⟩

end Sys2Proof.Machine
end

section
/-! Interrupts (spec/60_exceptions.md R212): delivery with no branch pending, and that nothing in the slot
of a taken branch asks about an interrupt or records one. -/

namespace Sys2Proof.Machine

/-- Between `s` and `t` the environment is not asked about interrupts and none is recorded. -/
structure NoDelivery (s t : State) : Prop where
  interrupts : t.env.interrupts = s.env.interrupts
  events : ∃ es, t.events = s.events ++ es ∧ ∀ k, Event.interrupt k ∉ es

theorem NoDelivery.of_eq {s t : State} (interrupts : t.env.interrupts = s.env.interrupts)
    (events : t.events = s.events) : NoDelivery s t :=
  ⟨interrupts, [], by rw [events, List.append_nil], fun _ => List.not_mem_nil⟩

theorem NoDelivery.trans {s t u : State} (h : NoDelivery s t) (g : NoDelivery t u) : NoDelivery s u := by
  obtain ⟨es, hes, clear⟩ := h.events
  obtain ⟨fs, hfs, clear'⟩ := g.events
  refine ⟨g.interrupts.trans h.interrupts, es ++ fs, by rw [hfs, hes, List.append_assoc], fun k => ?_⟩
  exact List.not_mem_append (clear k) (clear' k)

theorem NoDelivery.record (s : State) {e : Event} (h : ∀ k, Event.interrupt k ≠ e) :
    NoDelivery s (s.record e) :=
  ⟨rfl, [e], rfl, fun k m => h k (List.mem_singleton.1 m)⟩

/-- No event added is the delivery of an interrupt. -/
theorem NoDelivery.events_ne {s t : State} (h : NoDelivery s t) (k : Nat) (e : List Event) :
    t.events ≠ s.events ++ Event.interrupt k :: e := by
  obtain ⟨es, hes, clear⟩ := h.events
  intro delivered
  rw [hes, List.append_cancel_left_eq] at delivered
  exact clear k (delivered ▸ List.mem_cons_self)

/-! ### The operations -/

theorem noDelivery_setReg (s : State) (r : Reg) (v : Word) : NoDelivery s (s.setReg r v) :=
  .of_eq (congrArg Env.interrupts (s.setReg_env r v)) (s.setReg_events r v)

/-- The environment's changes are to the spec's state only (spec/60_exceptions.md R203; log 20). -/
theorem noDelivery_act (s t : State) (args : List Word) (a : EnvAct) : NoDelivery t (s.act args t a) := by
  cases a with
  | setReg r v => exact noDelivery_setReg t r _
  | _ => exact .of_eq rfl rfl

theorem noDelivery_applyActs (s : State) (args : List Word) (as : List EnvAct) :
    NoDelivery s (s.applyActs args as) := by
  suffices ∀ t, NoDelivery t (as.foldl (s.act args) t) from this s
  induction as with
  | nil => exact fun t => .of_eq rfl rfl
  | cons a as ih => exact fun t => (noDelivery_act s t args a).trans (ih _)

theorem noDelivery_handOver {s t : State} {e : Event} {f : Fault} {args : List Word} {a : Answer}
    (other : ∀ k, Event.interrupt k ≠ e) (h : s.handOver e f args a = .next t) : NoDelivery s t := by
  cases a with
  | fault => cases h
  | resume acts =>
    cases h
    exact (NoDelivery.record s other).trans (noDelivery_applyActs _ args acts)

theorem noDelivery_readMem (s : State) (m : Memory) (a : Word) : NoDelivery s (s.readMem m a).2 := by
  rw [State.readMem_eq]
  exact .of_eq rfl rfl

theorem noDelivery_readData {s : State} {a : Word} {p : Word × State} (h : s.readData a = .ok p) :
    NoDelivery s p.2 := by
  rcases State.readData_cases s a with ⟨-, e⟩ | ⟨-, e⟩ | ⟨-, e⟩ <;> rw [e] at h <;> cases h
  · exact noDelivery_readMem s s.dmem a
  · exact .trans (t := s.drawn 1) (.of_eq rfl rfl)
      (.record _ (e := .deviceRead a (Config.freeWord s.draws)) nofun)

theorem noDelivery_readProg {s : State} {a : Word} {p : Word × State} (h : s.readProg a = .ok p) :
    NoDelivery s p.2 := by
  unfold State.readProg at h
  split at h <;> cases h
  exact noDelivery_readMem s s.pmem a

theorem noDelivery_writeDataIf {s t : State} {doIt : Bool} {a v : Word}
    (h : s.writeDataIf doIt a v = .ok t) : NoDelivery s t := by
  rcases State.writeDataIf_cases s doIt a v with ⟨-, e⟩ | ⟨-, -, e⟩ | ⟨-, -, e⟩ | ⟨-, -, e⟩ <;>
    rw [e] at h <;> cases h
  · exact .of_eq rfl rfl
  · exact .of_eq rfl rfl
  · exact NoDelivery.record s (e := .deviceWrite a v) nofun

theorem noDelivery_readCr {s : State} {n : CrNum} {p : Word × State} (h : s.readCr n = .ok p) :
    NoDelivery s p.2 := by
  cases answer : s.crReadAnswer n with
  | cell =>
    rw [State.readCr_of_cell answer] at h
    cases h
    exact .of_eq rfl rfl
  | refuse => cases (State.readCr_of_refuse answer).symm.trans h
  | value v acts =>
    rw [State.readCr_of_value answer] at h
    cases h
    exact .trans (t := { s with env.crReads := s.env.crReads.rest }) (.of_eq rfl rfl)
      (noDelivery_applyActs _ _ acts)

theorem noDelivery_writeCr {s t : State} {n : CrNum} {v : Word} (h : s.writeCr n v = .ok t) :
    NoDelivery s t := by
  cases answer : s.crWriteAnswer n v with
  | cell =>
    rw [State.writeCr_of_cell answer] at h
    cases h
    exact .of_eq rfl rfl
  | refuse => cases (State.writeCr_of_refuse answer).symm.trans h
  | acts as =>
    rw [State.writeCr_of_acts answer] at h
    cases h
    exact .trans (t := { s with env.crWrites := s.env.crWrites.rest }) (.of_eq rfl rfl)
      (noDelivery_applyActs _ _ as)

/-! ### The instructions that may stand in a slot -/

/-- No instruction that may stand in the slot of a taken branch has to do with interrupts. -/
theorem exec_noDelivery {i : Instr} (plain : isControl i = false) {s t : State}
    (h : exec i s = .next t) : NoDelivery s t := by
  have left : NoDelivery s s.leaveSlot := .of_eq rfl rfl
  have finished (u : State) : NoDelivery u (u.finish s) := .of_eq rfl rfl
  cases i with
  | addipc | bz | bnz | bc | bnc | bn | bnn | bo | bno | j | ja | syscall | reti | brk => cases plain
  | ld rd address off =>
    obtain ⟨p, hp, h⟩ := proceed_next h
    cases h
    exact (left.trans (noDelivery_readData hp)).trans (.of_eq (by simp) (by simp))
  | ldp rd address ign =>
    obtain ⟨p, hp, h⟩ := proceed_next h
    cases h
    exact (left.trans (noDelivery_readProg hp)).trans (.of_eq (by simp) (by simp))
  | ldcr rd cr ign =>
    obtain ⟨p, hp, h⟩ := proceed_next h
    cases h
    exact (left.trans (noDelivery_readCr hp)).trans (.of_eq (by simp) (by simp))
  | st address off rs =>
    obtain ⟨u, hu, h⟩ := proceed_next h
    cases h
    exact (left.trans (noDelivery_writeDataIf hu)).trans (finished u)
  | stcr cr rs ign =>
    obtain ⟨u, hu, h⟩ := proceed_next h
    cases h
    exact (left.trans (noDelivery_writeCr hu)).trans (finished u)
  | stCond address rs ign =>
    obtain ⟨u, hu, h⟩ := proceed_next h
    cases h
    have flags : NoDelivery u u.stCondFlags := by
      unfold State.stCondFlags
      split <;> exact .of_eq rfl rfl
    exact (left.trans (noDelivery_writeDataIf hu)).trans (flags.trans (finished _))
  | _ =>
    cases h
    exact .of_eq (by simp) (by simp)

/-- In a slot the fetched word has nothing to do with interrupts: a control instruction faults there. -/
theorem runWord_noDelivery {s t : State} {w : Word} {d : Pending} (pending : s.delay = some d)
    (h : s.runWord exec w = .next t) : NoDelivery s t := by
  cases decoded : decode w with
  | ok i =>
    rw [State.runWord_of_decode decoded] at h
    refine exec_noDelivery (eq_false_of_ne_true fun control => ?_) h
    rw [exec_control_of_pending pending control] at h
    cases h
  | error e =>
    rw [State.runWord_of_decode_error decoded] at h
    exact .trans (t := { s with env.illegals := s.env.illegals.rest }) (.of_eq rfl rfl)
      (noDelivery_handOver (e := .illegal w) nofun h)

/-- In the slot of a taken branch no step has to do with interrupts (decision D14). -/
theorem step_noDelivery {s t : State} {d : Pending} (pending : s.delay = some d) (h : step s = .next t) :
    NoDelivery s t := by
  have fetched : NoDelivery s s.fetchState :=
    .of_eq (congrArg Env.interrupts (if_neg (by simp [pending]))) rfl
  rcases step_cases s with ⟨-, e⟩ | ⟨-, -, outside, -⟩ | ⟨-, -, -, e⟩ | ⟨-, -, -, e⟩
  · rw [e] at h
    cases h
    exact .of_eq rfl rfl
  · cases pending.symm.trans outside
  · cases e.symm.trans h
  · exact fetched.trans (runWord_noDelivery (s := s.fetchState) pending (e.symm.trans h))

/-- Settles O46: an answered interrupt is delivered, and a step in a slot leaves the answers and records
no delivery. -/
theorem interruptsAreDeliveredBetweenInstructions :
    Obligations.InterruptsAreDeliveredBetweenInstructions := by
  refine fun s running => ⟨Answers.lawful _ _ _ _, fun k => step_of_interrupt running, ?_⟩
  intro d pending t completes
  have kept := step_noDelivery pending completes
  exact ⟨kept.interrupts, kept.events_ne⟩

end Sys2Proof.Machine
end

section
/-! Faults and refusals (spec/60_exceptions.md R200, R202): each operation stops a run exactly on its own
condition, hence so do the instructions and the step, and nothing stops in the default environment. -/

namespace Sys2Proof.Machine

/-! ### The operations -/

theorem handOver_fault_iff {s : State} {e : Event} {f r : Fault} {args : List Word} {a : Answer} :
    s.handOver e f args a = .fault r ↔ r = f ∧ a = .fault := by
  cases a with
  | fault => simp [State.handOver, eq_comm]
  | resume acts => simp [State.handOver]

theorem handOverOrStop_fault_iff {s : State} {e : Event} {f r : Fault} {p : Stop} {args : List Word}
    {reply : Reply} : s.handOverOrStop e f p args reply = .fault r ↔ r = f ∧ reply = .answer .fault := by
  cases reply with
  | stop => simp [State.handOverOrStop]
  | answer a => simp [State.handOverOrStop, handOver_fault_iff]

theorem handOver_not_refused (s : State) (e : Event) (f : Fault) (args : List Word) (a : Answer)
    (r : Refusal) : s.handOver e f args a ≠ .refused r := by
  cases a with
  | fault => exact nofun
  | resume acts => exact nofun

theorem handOverOrStop_not_refused (s : State) (e : Event) (f : Fault) (p : Stop) (args : List Word)
    (reply : Reply) (r : Refusal) : s.handOverOrStop e f p args reply ≠ .refused r := by
  cases reply with
  | stop => exact nofun
  | answer a => exact handOver_not_refused s e f args a r

theorem outsideSlot_not_refused {s : State} {w : Word} {k : Result} {r : Refusal} (h : k ≠ .refused r) :
    s.outsideSlot w k ≠ .refused r := by
  unfold State.outsideSlot
  split
  · exact nofun
  · exact h

/-- An instruction that completes once its access is answered is refused exactly when the access is. -/
theorem proceed_refused_iff {α : Type} {x : Except Refusal α} {f : α → State} {r : Refusal} :
    (proceed x fun a => .next (f a)) = .refused r ↔ x = .error r := by
  cases x with
  | ok a => simp
  | error e => simp

theorem readData_error_iff {s : State} {a : Word} {r : Refusal} :
    s.readData a = .error r ↔ r = .absentData a ∧ s.env.region a = .absent := by
  rcases s.readData_cases a with ⟨h, e⟩ | ⟨h, e⟩ | ⟨h, e⟩ <;> simp [h, e, eq_comm]

theorem writeDataIf_error_iff {s : State} {doIt : Bool} {a v : Word} {r : Refusal} :
    s.writeDataIf doIt a v = .error r ↔
      doIt = true ∧ r = .absentData a ∧ s.env.region a = .absent := by
  rcases s.writeDataIf_cases doIt a v with ⟨rfl, e⟩ | ⟨rfl, h, e⟩ | ⟨rfl, h, e⟩ | ⟨rfl, h, e⟩
  · simp [e]
  · simp [e, h]
  · simp [e, h]
  · simp [e, h, eq_comm]

theorem readProg_error_iff {s : State} {a : Word} {r : Refusal} :
    s.readProg a = .error r ↔ r = .absentProgram a ∧ s.env.hasProgram a = false := by
  cases h : s.env.hasProgram a with
  | true => simp [State.readProg_of_hasProgram h]
  | false => simp [State.readProg_of_absent h, eq_comm]

theorem readCr_error_iff {s : State} {n : CrNum} {r : Refusal} :
    s.readCr n = .error r ↔ r = .crRead n ∧ s.crReadAnswer n = .refuse := by
  cases h : s.crReadAnswer n with
  | cell => simp [State.readCr_of_cell h]
  | refuse => simp [State.readCr_of_refuse h, eq_comm]
  | value v acts => simp [State.readCr_of_value h]

theorem writeCr_error_iff {s : State} {n : CrNum} {v : Word} {r : Refusal} :
    s.writeCr n v = .error r ↔ r = .crWrite n ∧ s.crWriteAnswer n v = .refuse := by
  cases h : s.crWriteAnswer n v with
  | cell => simp [State.writeCr_of_cell h]
  | refuse => simp [State.writeCr_of_refuse h, eq_comm]
  | acts as => simp [State.writeCr_of_acts h]

/-! ### The instructions -/

/-- The faults an instruction outside every slot raises: those of the environment's answers
(spec/60_exceptions.md R204 to R206). -/
def EnvFault (s : State) (i : Instr) (r : Fault) : Prop :=
  (∃ ign, i = .reti ign ∧ r = .reti s.pc ∧ s.retiAnswer = .fault) ∨
    (∃ code ign, i = .syscall code ign ∧ r = .syscall code (s.pc + 1) ∧
      s.pastInstr.syscallAnswer code = .answer .fault) ∨
    ∃ ign, i = .brk ign ∧ r = .brk (s.pc + 1) ∧ s.pastInstr.breakAnswer = .answer .fault

theorem EnvFault.isControl {s : State} {i : Instr} {r : Fault} (h : EnvFault s i r) :
    isControl i = true := by
  rcases h with ⟨ign, rfl, -⟩ | ⟨code, ign, rfl, -⟩ | ⟨ign, rfl, -⟩ <;> rfl

theorem exec_fault_iff_of_outside {s : State} (outside : s.delay = none) (i : Instr) (r : Fault) :
    exec i s = .fault r ↔ EnvFault s i r := by
  by_cases control : isControl i = true
  case neg =>
    exact iff_of_false (exec_not_fault (eq_false_of_ne_true control) s r) (mt EnvFault.isControl control)
  have completes {w : Word} {t : State} : s.outsideSlot w (.next t) ≠ .fault r := by
    rw [State.outsideSlot_of_none outside]
    exact nofun
  cases i with
  | reti ign => simp [exec_reti_of_answer outside ign rfl, handOver_fault_iff, EnvFault]
  | syscall code ign => simp [exec_syscall_of_answer outside ign rfl, handOverOrStop_fault_iff, EnvFault]
  | brk ign => simp [exec_brk_of_answer outside ign rfl, handOverOrStop_fault_iff, EnvFault]
  | addipc | bz | bnz | bc | bnc | bn | bnn | bo | bno | j | ja =>
    exact iff_of_false completes (by simp [EnvFault])
  | _ => cases control

/-- Where an instruction faults: a control instruction in a slot, and outside every slot where the
environment answers fault. -/
theorem exec_fault_iff (i : Instr) (s : State) (r : Fault) : exec i s = .fault r ↔
    (isControl i = true ∧ s.delay ≠ none ∧ r = .delaySlotControl (encode i) s.pc) ∨
      (s.delay = none ∧ EnvFault s i r) := by
  cases place : s.delay with
  | none => simp [exec_fault_iff_of_outside place]
  | some d =>
    by_cases control : isControl i = true
    · simp [exec_control_of_pending place control, control, eq_comm]
    · simp [exec_not_fault (eq_false_of_ne_true control), control]

/-- Where an instruction is refused: at an access that its environment refuses. -/
def AccessRefused (s : State) (r : Refusal) : Instr → Prop
  | .ld _ address off =>
    r = .absentData (s.effAddr address off) ∧ s.env.region (s.effAddr address off) = .absent
  | .st address off _ =>
    r = .absentData (s.effAddr address off) ∧ s.env.region (s.effAddr address off) = .absent
  | .stCond address _ _ => s.intrSinceLoad = false ∧
    r = .absentData (s.getReg address) ∧ s.env.region (s.getReg address) = .absent
  | .ldp _ address _ =>
    r = .absentProgram (s.getReg address) ∧ s.env.hasProgram (s.getReg address) = false
  | .ldcr _ cr _ => r = .crRead cr ∧ s.leaveSlot.crReadAnswer cr = .refuse
  | .stcr cr rs _ => r = .crWrite cr ∧ s.leaveSlot.crWriteAnswer cr (s.getReg rs) = .refuse
  | _ => False

theorem exec_refused_iff (i : Instr) (s : State) (r : Refusal) :
    exec i s = .refused r ↔ AccessRefused s r i := by
  cases i with
  | ld => exact proceed_refused_iff.trans readData_error_iff
  | st => exact proceed_refused_iff.trans (writeDataIf_error_iff.trans (and_iff_right rfl))
  | stCond =>
    exact proceed_refused_iff.trans (writeDataIf_error_iff.trans
      (and_congr_left' (Bool.not_eq_true' _).to_iff))
  | ldp => exact proceed_refused_iff.trans readProg_error_iff
  | ldcr => exact proceed_refused_iff.trans readCr_error_iff
  | stcr => exact proceed_refused_iff.trans writeCr_error_iff
  | addipc | bz | bnz | bc | bnc | bn | bnn | bo | bno | j | ja =>
    exact iff_of_false (outsideSlot_not_refused nofun) id
  | reti => exact iff_of_false (outsideSlot_not_refused (handOver_not_refused _ _ _ _ _ r)) id
  | syscall | brk =>
    exact iff_of_false (outsideSlot_not_refused (handOverOrStop_not_refused _ _ _ _ _ _ r)) id
  | _ => exact iff_of_false nofun id

/-! ### The step -/

theorem runWord_fault_iff {s : State} {w : Word} {r : Fault} : s.runWord exec w = .fault r ↔
    (∃ i, decode w = .ok i ∧ exec i s = .fault r) ∨
      ((∃ e, decode w = .error e) ∧ r = .illegalInstruction w s.pc ∧ s.illegalAnswer w = .fault) := by
  cases h : decode w with
  | ok i => simp [State.runWord_of_decode h]
  | error e => simp [State.runWord_of_decode_error h, State.raiseIllegal, handOver_fault_iff]

theorem runWord_refused_iff {s : State} {w : Word} {r : Refusal} : s.runWord exec w = .refused r ↔
    ∃ i, decode w = .ok i ∧ exec i s = .refused r := by
  cases h : decode w with
  | ok i => simp [State.runWord_of_decode h]
  | error e => simp [State.runWord_of_decode_error h, State.raiseIllegal, handOver_not_refused]

/-- An interrupt with no branch pending excludes that none is delivered. -/
theorem not_noInterrupt {s : State} {k : Interrupt} (outside : s.delay = none)
    (asked : s.interruptAnswer = some k) : ¬ s.noInterrupt := by
  simp [State.noInterrupt, outside, asked]

theorem step_fault_iff {s : State} {r : Fault} : step s = .fault r ↔
    s.stopped = none ∧ s.noInterrupt ∧ s.env.hasProgram s.pc = true ∧
      s.fetchState.runWord exec s.fetchedWord = .fault r := by
  rcases step_cases s with ⟨ended, e⟩ | ⟨k, -, outside, asked, e⟩ | ⟨-, -, absent, e⟩ |
    ⟨running, quiet, present, e⟩
  · simp [e, ended]
  · simp [e, not_noInterrupt outside asked]
  · simp [e, absent]
  · simp [e, running, quiet, present]

theorem step_refused_iff {s : State} {r : Refusal} : step s = .refused r ↔
    s.stopped = none ∧ s.noInterrupt ∧
      ((s.env.hasProgram s.pc = false ∧ r = .absentProgram s.pc) ∨
        (s.env.hasProgram s.pc = true ∧ s.fetchState.runWord exec s.fetchedWord = .refused r)) := by
  rcases step_cases s with ⟨ended, e⟩ | ⟨k, -, outside, asked, e⟩ | ⟨running, quiet, absent, e⟩ |
    ⟨running, quiet, present, e⟩
  · simp [e, ended]
  · simp [e, not_noInterrupt outside asked]
  · simp [e, running, quiet, absent, eq_comm]
  · simp [e, running, quiet, present]

/-- Settles O59: by the stops of the operations each meaning is made of, and by the cases of the step. -/
theorem faultsAndRefusalsAreTheSpecs : Obligations.FaultsAndRefusalsAreTheSpecs := by
  intro s
  simp only [BitVec.ofNat_toNat]
  refine ⟨fun i r => exec_fault_iff i s r, fun i r => ?_, fun r => ?_, fun r => ?_⟩
  · rw [exec_refused_iff]
    cases i with
    | ldcr | stcr => simp [AccessRefused, State.crReadAnswer, State.crWriteAnswer, State.leaveSlot]
    | _ => simp [AccessRefused]
  · rw [step_fault_iff, runWord_fault_iff, State.fetchState_illegalAnswer]
    rfl
  · simp only [step_refused_iff, runWord_refused_iff]

/-! ### The default environment -/

theorem Env.region_of_allRam {e : Env} (h : e.allRam) (a : Word) : e.region a = .ram := by
  rw [Env.region, h.1, Env.region.lookup]

theorem Env.hasProgram_of_allRam {e : Env} (h : e.allRam) (a : Word) : e.hasProgram a = true := by
  simp [Env.hasProgram, h.2]

/-- Plain storage and plain control registers refuse no access. -/
theorem not_accessRefused {s : State} (plain : s.env.quiet) (ram : s.env.allRam) (r : Refusal)
    (i : Instr) : ¬ AccessRefused s r i := by
  obtain ⟨reads, writes, -⟩ := plain
  cases i with
  | ld | st | stCond => simp [AccessRefused, Env.region_of_allRam ram]
  | ldp => simp [AccessRefused, Env.hasProgram_of_allRam ram]
  | ldcr => simp [AccessRefused, State.crReadAnswer, reads]
  | stcr => simp [AccessRefused, State.crWriteAnswer, writes]
  | _ => exact id

/-- By default the environment answers fault to `reti` alone (spec/60_exceptions.md R203). -/
theorem EnvFault.reti_of_quiet {s : State} {i : Instr} {r : Fault} (plain : s.env.quiet)
    (h : EnvFault s i r) : ∃ ign, i = .reti ign := by
  obtain ⟨-, -, syscalls, breaks, -⟩ := plain
  rcases h with ⟨ign, rfl, -⟩ | ⟨code, ign, -, -, answer⟩ | ⟨ign, -, -, answer⟩
  · exact ⟨ign, rfl⟩
  · simp [State.syscallAnswer, syscalls] at answer
  · simp [State.breakAnswer, breaks] at answer

/-- Settles O58: where nothing faults and nothing is refused, a next state is answered. -/
theorem defaultEnvironmentCompletes : Obligations.DefaultEnvironmentCompletes := by
  intro i s plain ram place
  cases result : exec i s with
  | next t => exact ⟨t, rfl⟩
  | refused r => exact absurd ((exec_refused_iff i s r).1 result) (not_accessRefused plain ram r i)
  | fault r =>
    exfalso
    rcases place with ⟨outside, other⟩ | slot
    · obtain ⟨ign, reti⟩ := ((exec_fault_iff_of_outside outside i r).1 result).reti_of_quiet plain
      exact other ign reti
    · exact exec_not_fault slot s r result

end Sys2Proof.Machine
end

section
/-! The state after reset and after loading (spec/70_reset_and_hazards.md R230, R232): what reset leaves,
and that the words the host places keep the memory invariant. -/

namespace Sys2Proof.Machine

/-! ### Reset -/

@[simp] theorem Memory.holds_nil (a : Word) : Memory.holds [] a = false := rfl

/-- The default instance answers each call as R203 says. -/
theorem Env.default_quiet : Env.default.quiet := ⟨rfl, rfl, rfl, rfl, rfl, rfl, rfl⟩

theorem Env.default_allRam : Env.default.allRam := ⟨rfl, rfl⟩

/-- Settles O49: the fields of the state at reset, its empty memories, and the default environment. -/
theorem resetState : Obligations.ResetState :=
  ⟨fun _ _ => ⟨rfl, rfl, rfl, fun a => ⟨Memory.holds_nil a, Memory.holds_nil a⟩, rfl, rfl⟩,
    rfl, rfl, rfl, rfl, rfl, rfl, rfl, rfl, rfl, Env.default_quiet, Env.default_allRam⟩

/-! ### Loading -/

theorem State.resetWith_memoryInv (p : Params) (e : Env) : (State.resetWith p e).MemoryInv :=
  ⟨Memory.wf_nil, Memory.wf_nil, Memory.whole_nil, Memory.whole_nil⟩

/-- A stable property survives the placing of data words, one store after another. -/
theorem Stable.loadData {env : Bool} {P : State → Prop} (hP : Stable env P) {s : State} (hs : P s)
    (words : List (Word × Word)) : P (s.loadData words) :=
  List.foldlRecOn words _ hs fun t ht p _ => hP.data t p.1 p.2 ht

/-- A property that program stores keep too survives the placing of program words. -/
theorem Stable.loadProgram {P : State → Prop} (hP : Stable true P) {s : State} (hs : P s)
    (words : List (Word × Word)) : P (s.loadProgram words) :=
  List.foldlRecOn words _ hs fun t ht p _ => hP.prog rfl t p.1 p.2 ht

/-- Settles O50: the empty memories of reset meet the invariant, and being stable it survives loading. -/
theorem memoryInvariantAtReset : Obligations.MemoryInvariantAtReset := by
  intro p e prog data
  have start := State.resetWith_memoryInv p e
  exact ⟨start, stable_memoryInv.loadData (stable_memoryInv.loadProgram start prog) data⟩

end Sys2Proof.Machine
end
